-- ==== Sys2Proof/Word.lean ====
section
/-! DEFINITION. The widths of the Plg Plugin VM: 00_scope.md R6, R9, R10; the field widths of 30_encoding.md R72 to R74. -/

namespace Sys2Proof

/-- A 32-bit pattern: a general register, the pc, an address, an instruction word (00_scope.md R10). -/
abbrev Word := BitVec 32

/-- An octet of the data space (00_scope.md R6). -/
abbrev Byte := BitVec 8

/-- A 5-bit register field: every value 0 to 31 is a register number (30_encoding.md R77, R81). -/
abbrev Reg := BitVec 5

/-- The immediate field of the RRI format (30_encoding.md R73). -/
abbrev Imm15 := BitVec 15

/-- The immediate field of the RI format (30_encoding.md R74). -/
abbrev Imm20 := BitVec 20

end Sys2Proof
end

