-- ==== Sys2Proof/Syntax.lean ====
section
/-! DEFINITION. The instructions: one constructor for each of the 55 rows of spec/opcode_table.json
(30_encoding.md R78), with the fields the instruction uses (R76, R77). A field that must be zero (R80) is no
argument. The row `break` is the constructor `brk`, since `break` is a word of Lean's own. -/

namespace Sys2Proof

/-- The instruction set of the VM (30_encoding.md R78). -/
inductive Instr where
  -- System (RRI, opc 0), 40_system.md
  /-- `break`: Debugger breakpoint (R101). -/
  | brk
  /-- `eret`: Halt execution and return to host (R102). -/
  | eret
  /-- `ecall imm15`: Call host function (imm15) (R103). -/
  | ecall (imm : Imm15)
  -- Memory operations (RRI, opc 1), 41_memory_ops.md. In a store `rd` names the register stored (30_encoding.md R77).
  /-- `sw rd rs1 imm15`: Store 32b word (rd) to (rs1 + imm15) (R112). -/
  | sw (rd rs1 : Reg) (imm : Imm15)
  /-- `sh rd rs1 imm15`: Store 16b short (rd) to (rs1 + imm15) (R113). -/
  | sh (rd rs1 : Reg) (imm : Imm15)
  /-- `sb rd rs1 imm15`: Store 8b byte (rd) to (rs1 + imm15) (R114). -/
  | sb (rd rs1 : Reg) (imm : Imm15)
  /-- `lw rd rs1 imm15`: Load s-ext 32b word (rd) from (rs1 + imm15) (R115). -/
  | lw (rd rs1 : Reg) (imm : Imm15)
  /-- `lh rd rs1 imm15`: Load s-ext 16b short (rd) from (rs1 + imm15) (R116). -/
  | lh (rd rs1 : Reg) (imm : Imm15)
  /-- `lb rd rs1 imm15`: Load s-ext 8b byte (rd) from (rs1 + imm15) (R117). -/
  | lb (rd rs1 : Reg) (imm : Imm15)
  /-- `lhu rd rs1 imm15`: Load z-ext 16b short (rd) from (rs1 + imm15) (R118). -/
  | lhu (rd rs1 : Reg) (imm : Imm15)
  /-- `lbu rd rs1 imm15`: Load z-ext 8b byte (rd) from (rs1 + imm15) (R119). -/
  | lbu (rd rs1 : Reg) (imm : Imm15)
  -- Immediate arithmetic (RRI, opc 2), 42_immediate_arithmetic.md
  /-- `addi rd rs1 imm15`: rd := rs1 + (imm15 z-ext) (R131). -/
  | addi (rd rs1 : Reg) (imm : Imm15)
  /-- `subi rd rs1 imm15`: rd := rs1 - (imm15 z-ext) (R132). -/
  | subi (rd rs1 : Reg) (imm : Imm15)
  /-- `andi rd rs1 imm15`: rd := rs1 & (imm15 s-ext) (R133). -/
  | andi (rd rs1 : Reg) (imm : Imm15)
  /-- `xori rd rs1 imm15`: rd := rs1 ^ (imm15 s-ext) (R134). -/
  | xori (rd rs1 : Reg) (imm : Imm15)
  /-- `ori rd rs1 imm15`: rd := rs1 | (imm15 s-ext) (R135). -/
  | ori (rd rs1 : Reg) (imm : Imm15)
  /-- `slli rd rs1 imm15`: rd := rs1 << (imm15 z-ext) (R137). -/
  | slli (rd rs1 : Reg) (imm : Imm15)
  /-- `srli rd rs1 imm15`: rd := rs1 z-ext>> (imm15 z-ext) (R138). -/
  | srli (rd rs1 : Reg) (imm : Imm15)
  /-- `srai rd rs1 imm15`: rd := rs1 s-ext>> (imm15 z-ext) (R139). -/
  | srai (rd rs1 : Reg) (imm : Imm15)
  /-- `muli rd rs1 imm15`: rd := rs1 * (imm15 s-ext) (R140). -/
  | muli (rd rs1 : Reg) (imm : Imm15)
  /-- `divi rd rs1 imm15`: rd := rs1 /trunc (imm15 s-ext)   (0 illegal) (R143). -/
  | divi (rd rs1 : Reg) (imm : Imm15)
  /-- `remi rd rs1 imm15`: rd := rs1 %trunc (imm15 s-ext)   (0 illegal) (R144). -/
  | remi (rd rs1 : Reg) (imm : Imm15)
  /-- `icf rd rs1`: rd := (float)rs1 truncated to int32 (R145). -/
  | icf (rd rs1 : Reg)
  /-- `fci rd rs1`: rd := rs1 converted to float (R146). -/
  | fci (rd rs1 : Reg)
  /-- `roundf rd rs1`: rd := round((float)rs1) (R147). -/
  | roundf (rd rs1 : Reg)
  /-- `ceilf rd rs1`: rd := ceil((float)rs1) (R148). -/
  | ceilf (rd rs1 : Reg)
  /-- `floorf rd rs1`: rd := floor((float)rs1) (R149). -/
  | floorf (rd rs1 : Reg)
  -- Register arithmetic (RRR, opc 3), 43_register_arithmetic.md
  /-- `add rd rs1 rs2`: rd := rs1 + rs2 (R161). -/
  | add (rd rs1 rs2 : Reg)
  /-- `sub rd rs1 rs2`: rd := rs1 - rs2 (R162). -/
  | sub (rd rs1 rs2 : Reg)
  /-- `and rd rs1 rs2`: rd := rs1 & rs2 (R163). -/
  | and (rd rs1 rs2 : Reg)
  /-- `xor rd rs1 rs2`: rd := rs1 ^ rs2 (R164). -/
  | xor (rd rs1 rs2 : Reg)
  /-- `or rd rs1 rs2`: rd := rs1 | rs2 (R165). -/
  | or (rd rs1 rs2 : Reg)
  /-- `sll rd rs1 rs2`: rd := rs1 << rs2 (R166). -/
  | sll (rd rs1 rs2 : Reg)
  /-- `srl rd rs1 rs2`: rd := rs1 z-ext>> rs2 (R167). -/
  | srl (rd rs1 rs2 : Reg)
  /-- `sra rd rs1 rs2`: rd := rs1 s-ext>> rs2 (R168). -/
  | sra (rd rs1 rs2 : Reg)
  /-- `mul rd rs1 rs2`: rd := rs1 * rs2 (R169). -/
  | mul (rd rs1 rs2 : Reg)
  /-- `div rd rs1 rs2`: rd := rs1 /trunc rs2 (R171). -/
  | div (rd rs1 rs2 : Reg)
  /-- `rem rd rs1 rs2`: rd := rs1 %trunc rs2 (R172). -/
  | rem (rd rs1 rs2 : Reg)
  /-- `addf rd rs1 rs2`: rd := (float)rs1 + (float)rs2 (R174). -/
  | addf (rd rs1 rs2 : Reg)
  /-- `subf rd rs1 rs2`: rd := (float)rs1 - (float)rs2 (R175). -/
  | subf (rd rs1 rs2 : Reg)
  /-- `mulf rd rs1 rs2`: rd := (float)rs1 * (float)rs2 (R176). -/
  | mulf (rd rs1 rs2 : Reg)
  /-- `divf rd rs1 rs2`: rd := (float)rs1 / (float)rs2 (R177). -/
  | divf (rd rs1 rs2 : Reg)
  /-- `sqrtf rd rs1`: rd := sqrt((float)rs1) (R178). -/
  | sqrtf (rd rs1 : Reg)
  -- `jalr` and the branches (RRI, opc 4), 44_jalr_branches.md. A branch's `rs2` is the field at bits 11:7 (90_conflicts.md C2, D1; DESIGN CHOICE of the spec, log entry 19).
  /-- `jalr rd rs1 imm15`: rd := pc + 1; pc := rs1 + (imm15 z-ext) (R191). -/
  | jalr (rd rs1 : Reg) (imm : Imm15)
  /-- `beq rs1 rs2 imm15`: if rs1 == rs2 { pc += (imm15 s-ext) } (R192). -/
  | beq (rs1 rs2 : Reg) (imm : Imm15)
  /-- `bne rs1 rs2 imm15`: if rs1 != rs2 { pc += (imm15 s-ext) } (R193). -/
  | bne (rs1 rs2 : Reg) (imm : Imm15)
  /-- `blt rs1 rs2 imm15`: if rs1 <s rs2 { pc += (imm15 s-ext) } (R194). -/
  | blt (rs1 rs2 : Reg) (imm : Imm15)
  /-- `bge rs1 rs2 imm15`: if rs1 >=s rs2 { pc += (imm15 s-ext) } (R195). -/
  | bge (rs1 rs2 : Reg) (imm : Imm15)
  /-- `bltu rs1 rs2 imm15`: if rs1 <u rs2 { pc += (imm15 s-ext) } (R196). -/
  | bltu (rs1 rs2 : Reg) (imm : Imm15)
  /-- `bgeu rs1 rs2 imm15`: if rs1 >=u rs2 { pc += (imm15 s-ext) } (R197). -/
  | bgeu (rs1 rs2 : Reg) (imm : Imm15)
  /-- `bltf rs1 rs2 imm15`: if rs1 <f rs2 { pc += (imm15 s-ext) } (R198). -/
  | bltf (rs1 rs2 : Reg) (imm : Imm15)
  /-- `bgef rs1 rs2 imm15`: if rs1 >=f rs2 { pc += (imm15 s-ext) } (R199). -/
  | bgef (rs1 rs2 : Reg) (imm : Imm15)
  -- RI (opc 5), 45_ri.md
  /-- `lui rd imm20`: rd := (imm20 << 12) (R211). -/
  | lui (rd : Reg) (imm : Imm20)
  /-- `lif rd imm20`: rd := (imm20 s-ext) converted to float (R212). -/
  | lif (rd : Reg) (imm : Imm20)
  /-- `jal rd imm20`: rd := pc + 1; pc = (imm20 z-ext) (R213). -/
  | jal (rd : Reg) (imm : Imm20)
  deriving DecidableEq, Repr

end Sys2Proof
end

