-- ==== Sys2Proof/WellFormed.lean ====
section
/-! DEFINITION. Which instructions are legal encodings. The field types already bound every register number and
immediate; what is left is the one restriction by value, 30_encoding.md R81. -/

namespace Sys2Proof

/-- A legal instruction: `divi` and `remi` exclude the immediate 0 (30_encoding.md R81, 42_immediate_arithmetic.md
R142); no other instruction restricts the value of a used field. -/
def Instr.wf : Instr → Bool
  | .divi _ _ imm => imm != 0
  | .remi _ _ imm => imm != 0
  | .brk | .eret | .ecall _ => true
  | .sw .. | .sh .. | .sb .. | .lw .. | .lh .. | .lb .. | .lhu .. | .lbu .. => true
  | .addi .. | .subi .. | .andi .. | .xori .. | .ori .. | .slli .. | .srli .. | .srai .. | .muli .. => true
  | .icf .. | .fci .. | .roundf .. | .ceilf .. | .floorf .. => true
  | .add .. | .sub .. | .and .. | .xor .. | .or .. | .sll .. | .srl .. | .sra .. | .mul .. | .div .. | .rem .. => true
  | .addf .. | .subf .. | .mulf .. | .divf .. | .sqrtf .. => true
  | .jalr .. | .beq .. | .bne .. | .blt .. | .bge .. | .bltu .. | .bgeu .. | .bltf .. | .bgef .. => true
  | .lui .. | .lif .. | .jal .. => true

end Sys2Proof
end

