-- ==== Sys2Proof/Decode.lean ====
section
/-! DEFINITION. The decoder, total on all 2^32 words (30_encoding.md R83), and after it the encoder, both written
from the formats R71 to R74 and the opcode map R78. -/

namespace Sys2Proof

/-! ## Fields (30_encoding.md R71 to R74) -/

/-- `opf = word[3:0]` (R71). -/
def opfOf (w : Word) : BitVec 4 := w.extractLsb' 0 4
/-- `opc = word[6:4]` (R71; 90_conflicts.md C1). -/
def opcOf (w : Word) : BitVec 3 := w.extractLsb' 4 3
/-- `rd = word[11:7]`, in all formats (R75). -/
def rdOf (w : Word) : Reg := w.extractLsb' 7 5
/-- `rs1 = word[16:12]`, in RRR and RRI (R75). -/
def rs1Of (w : Word) : Reg := w.extractLsb' 12 5
/-- `rs2 = word[21:17]`, in RRR (R72). -/
def rs2Of (w : Word) : Reg := w.extractLsb' 17 5
/-- `imm10 = word[31:22]`, in RRR (R72). -/
def imm10Of (w : Word) : BitVec 10 := w.extractLsb' 22 10
/-- `imm15 = word[31:17]`, in RRI (R73). -/
def imm15Of (w : Word) : Imm15 := w.extractLsb' 17 15
/-- `imm20 = word[31:12]`, in RI (R74). -/
def imm20Of (w : Word) : Imm20 := w.extractLsb' 12 20

/-- The instruction `i` if the must-be-zero condition of 30_encoding.md R80 (or the value restriction of R81) holds. -/
def legalIf (ok : Bool) (i : Instr) : Option Instr := if ok then some i else none

/-! ## The opcode map, one table a function (30_encoding.md R78) -/

/-- opc 0, System: the unused fields must be zero (40_system.md R100). -/
def decodeSystem (w : Word) : Option Instr :=
  match opfOf w with
  | 0x0#4 => legalIf (imm15Of w == 0 && rs1Of w == 0 && rdOf w == 0) .brk
  | 0x1#4 => legalIf (imm15Of w == 0 && rs1Of w == 0 && rdOf w == 0) .eret
  | 0x2#4 => legalIf (rs1Of w == 0 && rdOf w == 0) (.ecall (imm15Of w))
  | _ => none

/-- opc 1, Memory: 0, 4 and 8 are "Reserved", B to F unlisted (41_memory_ops.md R120). -/
def decodeMemory (w : Word) : Option Instr :=
  match opfOf w with
  | 0x1#4 => some (.sw (rdOf w) (rs1Of w) (imm15Of w))
  | 0x2#4 => some (.sh (rdOf w) (rs1Of w) (imm15Of w))
  | 0x3#4 => some (.sb (rdOf w) (rs1Of w) (imm15Of w))
  | 0x5#4 => some (.lw (rdOf w) (rs1Of w) (imm15Of w))
  | 0x6#4 => some (.lh (rdOf w) (rs1Of w) (imm15Of w))
  | 0x7#4 => some (.lb (rdOf w) (rs1Of w) (imm15Of w))
  | 0x9#4 => some (.lhu (rdOf w) (rs1Of w) (imm15Of w))
  | 0xA#4 => some (.lbu (rdOf w) (rs1Of w) (imm15Of w))
  | _ => none

/-- opc 2, immediate arithmetic: all sixteen slots are listed. -/
def decodeImmArith (w : Word) : Option Instr :=
  match opfOf w with
  | 0x0#4 => some (.addi (rdOf w) (rs1Of w) (imm15Of w))
  | 0x1#4 => some (.subi (rdOf w) (rs1Of w) (imm15Of w))
  | 0x2#4 => some (.andi (rdOf w) (rs1Of w) (imm15Of w))
  | 0x3#4 => some (.xori (rdOf w) (rs1Of w) (imm15Of w))
  | 0x4#4 => some (.ori (rdOf w) (rs1Of w) (imm15Of w))
  | 0x5#4 => some (.slli (rdOf w) (rs1Of w) (imm15Of w))
  | 0x6#4 => some (.srli (rdOf w) (rs1Of w) (imm15Of w))
  | 0x7#4 => some (.srai (rdOf w) (rs1Of w) (imm15Of w))
  | 0x8#4 => some (.muli (rdOf w) (rs1Of w) (imm15Of w))
  | 0x9#4 => legalIf (imm15Of w != 0) (.divi (rdOf w) (rs1Of w) (imm15Of w))
  | 0xA#4 => legalIf (imm15Of w != 0) (.remi (rdOf w) (rs1Of w) (imm15Of w))
  | 0xB#4 => legalIf (imm15Of w == 0) (.icf (rdOf w) (rs1Of w))
  | 0xC#4 => legalIf (imm15Of w == 0) (.fci (rdOf w) (rs1Of w))
  | 0xD#4 => legalIf (imm15Of w == 0) (.roundf (rdOf w) (rs1Of w))
  | 0xE#4 => legalIf (imm15Of w == 0) (.ceilf (rdOf w) (rs1Of w))
  | 0xF#4 => legalIf (imm15Of w == 0) (.floorf (rdOf w) (rs1Of w))
  | _ => none -- no other 4-bit value

/-- opc 3, register arithmetic: `imm10` must be zero, and `rs2` for `sqrtf` (43_register_arithmetic.md R160). -/
def decodeRegArith (w : Word) : Option Instr :=
  match opfOf w with
  | 0x0#4 => legalIf (imm10Of w == 0) (.add (rdOf w) (rs1Of w) (rs2Of w))
  | 0x1#4 => legalIf (imm10Of w == 0) (.sub (rdOf w) (rs1Of w) (rs2Of w))
  | 0x2#4 => legalIf (imm10Of w == 0) (.and (rdOf w) (rs1Of w) (rs2Of w))
  | 0x3#4 => legalIf (imm10Of w == 0) (.xor (rdOf w) (rs1Of w) (rs2Of w))
  | 0x4#4 => legalIf (imm10Of w == 0) (.or (rdOf w) (rs1Of w) (rs2Of w))
  | 0x5#4 => legalIf (imm10Of w == 0) (.sll (rdOf w) (rs1Of w) (rs2Of w))
  | 0x6#4 => legalIf (imm10Of w == 0) (.srl (rdOf w) (rs1Of w) (rs2Of w))
  | 0x7#4 => legalIf (imm10Of w == 0) (.sra (rdOf w) (rs1Of w) (rs2Of w))
  | 0x8#4 => legalIf (imm10Of w == 0) (.mul (rdOf w) (rs1Of w) (rs2Of w))
  | 0x9#4 => legalIf (imm10Of w == 0) (.div (rdOf w) (rs1Of w) (rs2Of w))
  | 0xA#4 => legalIf (imm10Of w == 0) (.rem (rdOf w) (rs1Of w) (rs2Of w))
  | 0xB#4 => legalIf (imm10Of w == 0) (.addf (rdOf w) (rs1Of w) (rs2Of w))
  | 0xC#4 => legalIf (imm10Of w == 0) (.subf (rdOf w) (rs1Of w) (rs2Of w))
  | 0xD#4 => legalIf (imm10Of w == 0) (.mulf (rdOf w) (rs1Of w) (rs2Of w))
  | 0xE#4 => legalIf (imm10Of w == 0) (.divf (rdOf w) (rs1Of w) (rs2Of w))
  | 0xF#4 => legalIf (imm10Of w == 0 && rs2Of w == 0) (.sqrtf (rdOf w) (rs1Of w))
  | _ => none -- no other 4-bit value

/-- opc 4, `jalr` and the branches, whose second source is the field at bits 11:7 (30_encoding.md R77, C2). -/
def decodeBranch (w : Word) : Option Instr :=
  match opfOf w with
  | 0x0#4 => some (.jalr (rdOf w) (rs1Of w) (imm15Of w))
  | 0x1#4 => some (.beq (rs1Of w) (rdOf w) (imm15Of w))
  | 0x2#4 => some (.bne (rs1Of w) (rdOf w) (imm15Of w))
  | 0x3#4 => some (.blt (rs1Of w) (rdOf w) (imm15Of w))
  | 0x4#4 => some (.bge (rs1Of w) (rdOf w) (imm15Of w))
  | 0x5#4 => some (.bltu (rs1Of w) (rdOf w) (imm15Of w))
  | 0x6#4 => some (.bgeu (rs1Of w) (rdOf w) (imm15Of w))
  | 0x7#4 => some (.bltf (rs1Of w) (rdOf w) (imm15Of w))
  | 0x8#4 => some (.bgef (rs1Of w) (rdOf w) (imm15Of w))
  | _ => none

/-- opc 5, RI (45_ri.md R210). -/
def decodeRi (w : Word) : Option Instr :=
  match opfOf w with
  | 0x0#4 => some (.lui (rdOf w) (imm20Of w))
  | 0x1#4 => some (.lif (rdOf w) (imm20Of w))
  | 0x2#4 => some (.jal (rdOf w) (imm20Of w))
  | _ => none

/-- The decoder of 30_encoding.md R83; `none` is its `Invalid`, for any of the four causes of 60_exceptions.md R261. -/
def decode (w : Word) : Option Instr :=
  match opcOf w with
  | 0#3 => decodeSystem w
  | 1#3 => decodeMemory w
  | 2#3 => decodeImmArith w
  | 3#3 => decodeRegArith w
  | 4#3 => decodeBranch w
  | 5#3 => decodeRi w
  | _ => none -- 6 and 7 have no table (R75)

/-- The instruction the decoder reads from a table row's bits. Every instruction is one 32-bit word, whose bit 0 is the
least significant (30_encoding.md R70, 00_scope.md R9); the instruction space holds words (20_memory.md R42), so there
is no byte order between the table's numbering and the decoder's. -/
def decodeTableWord (nbits w : Nat) : Option Instr := decode (BitVec.ofNat 32 (w % 2 ^ nbits))

/-! ## Encoding (30_encoding.md R72 to R74) -/

/-- RRR (R72). -/
def encRrr (opf : BitVec 4) (rd rs1 rs2 : Reg) : Word := 0#10 ++ rs2 ++ rs1 ++ rd ++ 3#3 ++ opf
/-- RRI (R73). -/
def encRri (opc : BitVec 3) (opf : BitVec 4) (rd rs1 : Reg) (imm : Imm15) : Word := imm ++ rs1 ++ rd ++ opc ++ opf
/-- RI (R74). -/
def encRi (opf : BitVec 4) (rd : Reg) (imm : Imm20) : Word := imm ++ rd ++ 5#3 ++ opf

/-- The word of an instruction (30_encoding.md R83: each legal instruction has exactly one). -/
def encode : Instr → Word
  | .brk => encRri 0 0x0 0 0 0
  | .eret => encRri 0 0x1 0 0 0
  | .ecall imm => encRri 0 0x2 0 0 imm
  | .sw rd rs1 imm => encRri 1 0x1 rd rs1 imm
  | .sh rd rs1 imm => encRri 1 0x2 rd rs1 imm
  | .sb rd rs1 imm => encRri 1 0x3 rd rs1 imm
  | .lw rd rs1 imm => encRri 1 0x5 rd rs1 imm
  | .lh rd rs1 imm => encRri 1 0x6 rd rs1 imm
  | .lb rd rs1 imm => encRri 1 0x7 rd rs1 imm
  | .lhu rd rs1 imm => encRri 1 0x9 rd rs1 imm
  | .lbu rd rs1 imm => encRri 1 0xA rd rs1 imm
  | .addi rd rs1 imm => encRri 2 0x0 rd rs1 imm
  | .subi rd rs1 imm => encRri 2 0x1 rd rs1 imm
  | .andi rd rs1 imm => encRri 2 0x2 rd rs1 imm
  | .xori rd rs1 imm => encRri 2 0x3 rd rs1 imm
  | .ori rd rs1 imm => encRri 2 0x4 rd rs1 imm
  | .slli rd rs1 imm => encRri 2 0x5 rd rs1 imm
  | .srli rd rs1 imm => encRri 2 0x6 rd rs1 imm
  | .srai rd rs1 imm => encRri 2 0x7 rd rs1 imm
  | .muli rd rs1 imm => encRri 2 0x8 rd rs1 imm
  | .divi rd rs1 imm => encRri 2 0x9 rd rs1 imm
  | .remi rd rs1 imm => encRri 2 0xA rd rs1 imm
  | .icf rd rs1 => encRri 2 0xB rd rs1 0
  | .fci rd rs1 => encRri 2 0xC rd rs1 0
  | .roundf rd rs1 => encRri 2 0xD rd rs1 0
  | .ceilf rd rs1 => encRri 2 0xE rd rs1 0
  | .floorf rd rs1 => encRri 2 0xF rd rs1 0
  | .add rd rs1 rs2 => encRrr 0x0 rd rs1 rs2
  | .sub rd rs1 rs2 => encRrr 0x1 rd rs1 rs2
  | .and rd rs1 rs2 => encRrr 0x2 rd rs1 rs2
  | .xor rd rs1 rs2 => encRrr 0x3 rd rs1 rs2
  | .or rd rs1 rs2 => encRrr 0x4 rd rs1 rs2
  | .sll rd rs1 rs2 => encRrr 0x5 rd rs1 rs2
  | .srl rd rs1 rs2 => encRrr 0x6 rd rs1 rs2
  | .sra rd rs1 rs2 => encRrr 0x7 rd rs1 rs2
  | .mul rd rs1 rs2 => encRrr 0x8 rd rs1 rs2
  | .div rd rs1 rs2 => encRrr 0x9 rd rs1 rs2
  | .rem rd rs1 rs2 => encRrr 0xA rd rs1 rs2
  | .addf rd rs1 rs2 => encRrr 0xB rd rs1 rs2
  | .subf rd rs1 rs2 => encRrr 0xC rd rs1 rs2
  | .mulf rd rs1 rs2 => encRrr 0xD rd rs1 rs2
  | .divf rd rs1 rs2 => encRrr 0xE rd rs1 rs2
  | .sqrtf rd rs1 => encRrr 0xF rd rs1 0
  | .jalr rd rs1 imm => encRri 4 0x0 rd rs1 imm
  | .beq rs1 rs2 imm => encRri 4 0x1 rs2 rs1 imm
  | .bne rs1 rs2 imm => encRri 4 0x2 rs2 rs1 imm
  | .blt rs1 rs2 imm => encRri 4 0x3 rs2 rs1 imm
  | .bge rs1 rs2 imm => encRri 4 0x4 rs2 rs1 imm
  | .bltu rs1 rs2 imm => encRri 4 0x5 rs2 rs1 imm
  | .bgeu rs1 rs2 imm => encRri 4 0x6 rs2 rs1 imm
  | .bltf rs1 rs2 imm => encRri 4 0x7 rs2 rs1 imm
  | .bgef rs1 rs2 imm => encRri 4 0x8 rs2 rs1 imm
  | .lui rd imm => encRi 0x0 rd imm
  | .lif rd imm => encRi 0x1 rd imm
  | .jal rd imm => encRi 0x2 rd imm

end Sys2Proof
end

