-- ==== Sys2Proof/Config.lean ====
section
/-! DEFINITION. What an implementation fixes (the parameters of 00_scope.md R8) and the free values. The parameters
are plain data, held in State, so that a statement about every state holds for every choice of them (log entry 8).
A free value is an opaque constant: nothing in Lean can evaluate it (log entries 3 to 6). -/

namespace Sys2Proof

/-- `MEM_IMM_EXT` (00_scope.md R8, 41_memory_ops.md R110, D3). -/
inductive MemImmExt where
  /-- The offset is zero-extended: the default. -/
  | zext
  /-- The offset is sign-extended. -/
  | sext
  deriving DecidableEq, Repr, Inhabited

/-- `SHIFT_POLICY`: amounts of 32 and more (00_scope.md R8, 42_immediate_arithmetic.md R136, D10). -/
inductive ShiftPolicy where
  /-- The shift as arithmetic on the exact amount: the default. -/
  | mathematical
  /-- The amount modulo 32. -/
  | mask5
  /-- The result is a draw. -/
  | unspecified
  deriving DecidableEq, Repr, Inhabited

/-- `DIV_ZERO`: `div` and `rem` by zero (00_scope.md R8, 43_register_arithmetic.md R170, D8). -/
inductive DivZero where
  /-- `DivideByZero` is raised: the default. -/
  | fault
  /-- The result is a draw. -/
  | unspecified
  deriving DecidableEq, Repr, Inhabited

/-- `DIV_OVERFLOW`: -2^31 divided by -1 (00_scope.md R8, 42_immediate_arithmetic.md R141, D9). -/
inductive DivOverflow where
  /-- The exact result modulo 2^32: the default. -/
  | wrap
  /-- An exception, which the spec does not name (log entry 14). -/
  | fault
  /-- The result is a draw. -/
  | unspecified
  deriving DecidableEq, Repr, Inhabited

/-- `NAN_RESULT` (00_scope.md R8, 47_float_numerics.md R243, D20). -/
inductive NanResult where
  /-- Any NaN pattern: the default. -/
  | draw
  /-- The pattern 0x7FC00000 for every NaN result. -/
  | canonical
  deriving DecidableEq, Repr, Inhabited

/-- `ICF_INVALID` (00_scope.md R8, 47_float_numerics.md R248, D21). -/
inductive IcfInvalid where
  /-- Any 32-bit value: the default. -/
  | draw
  /-- NaN gives 0, too large 0x7FFFFFFF, too small 0x80000000. -/
  | saturate
  deriving DecidableEq, Repr, Inhabited

/-- The parameters the source leaves to the implementation (00_scope.md R8); the field defaults are the spec's.
`FLOAT_FORMAT` is fixed to binary32 (log entry 15), `INIT_REGS` and `INIT_SP` are arguments of `startUp`. -/
structure Params where
  /-- `UNALIGNED_SUPPORT` (20_memory.md R43, D13). -/
  unalignedSupport : Bool := false
  /-- `MEM_IMM_EXT` (41_memory_ops.md R110, D3). -/
  memImmExt : MemImmExt := .zext
  /-- `SHIFT_POLICY` (42_immediate_arithmetic.md R136, D10). -/
  shiftPolicy : ShiftPolicy := .mathematical
  /-- `DIV_ZERO` (43_register_arithmetic.md R170, D8). -/
  divZero : DivZero := .fault
  /-- `DIV_OVERFLOW` (42_immediate_arithmetic.md R141, D9). -/
  divOverflow : DivOverflow := .wrap
  /-- `NAN_RESULT` (47_float_numerics.md R243, D20). -/
  nanResult : NanResult := .draw
  /-- `BGEF_NAN`: whether `bgef` is taken on a NaN operand (44_jalr_branches.md R199, D20). -/
  bgefNan : Bool := false
  /-- `ICF_INVALID` (47_float_numerics.md R248, D21). -/
  icfInvalid : IcfInvalid := .draw
  /-- "A model with no host" (60_exceptions.md R275): every `ecall` then ends with `HostFault(n)`. -/
  noHost : Bool := false
  /-- `BREAK_RESUME`: whether the host resumes after `break` (40_system.md R101, D18; OPEN, log entry 26). -/
  breakResume : Bool := false
  deriving DecidableEq, Repr, Inhabited

/-- The instructions whose result can be a free value (70_reset_and_hazards.md R294): a free value may differ from
instruction to instruction. -/
inductive DrawSite where
  | slli | srli | srai | sll | srl | sra
  | divi | remi | div | rem
  | icf | roundf | ceilf | floorf
  | addf | subf | mulf | divf | sqrtf
  deriving DecidableEq, Repr, Inhabited

/-- A NaN pattern (47_float_numerics.md R241, R243): any sign, exponent 255, any fraction but 0. `payload` is the
fraction less one, so that every value of this type is a NaN and every NaN is a value of it. -/
structure NanPattern where
  sign : Bool
  payload : Fin 8388607
  deriving DecidableEq, Repr, Inhabited

/-- How a host function ends, if it does (40_system.md R103, 60_exceptions.md R275). -/
inductive HostOutcome where
  /-- The function returns: execution goes on after the `ecall`. -/
  | returned
  /-- The host rejects the call or fails: `HostFault(n)`. -/
  | stop
  /-- The host never returns (R103, R275: `HOST` need not be total): the run is not ended and does not go on. -/
  | never
  deriving DecidableEq, Repr, Inhabited

/-- What a host function leaves behind (60_exceptions.md R275), before the laws of R275 are applied to it: the
registers it proposes, the bytes it writes to the data space, in order, and how it ends. -/
structure HostReply where
  regs : Vector Word 32
  writes : List (Word × Byte)
  outcome : HostOutcome
  deriving DecidableEq, Repr, Inhabited

/-- Free value (log entry 4): which NaN an instruction returns (47_float_numerics.md R243). It may depend on the
draw, the instruction and its operands. -/
opaque Config.nanResult : Nat → DrawSite → Word → Word → NanPattern

/-- Free value (log entry 5): a result the spec leaves unspecified (R136, R141, R170 under `unspecified`; R248). It
may depend on the draw, the instruction and its operands. -/
opaque Config.freeWord : Nat → DrawSite → Word → Word → Word

/-- Free value (log entry 6): what the host does with `ecall n`, the `HOST` relation of
60_exceptions.md R275. It may depend on the draw (and so on anything outside the VM), the function number, the
registers and the data space. -/
opaque Config.host : Nat → Imm15 → Vector Word 32 → List Host.Cell → HostReply

end Sys2Proof
end

