-- ==== Sys2Proof/Machine/State.lean ====
section
/-! DEFINITION. The state of the VM as plain data: 10_state.md R20 (registers, pc, data space, run status), the fixed
inputs of a run (00_scope.md R7, R8) and the model's own draw counter. -/

namespace Sys2Proof.Machine

/-- The exceptions of 60_exceptions.md R260, with the value each carries. -/
inductive Exc where
  /-- The fetch address is not inside the text (R265). -/
  | fetchFault (a : Word)
  /-- The word is not a legal instruction (R261). -/
  | invalidInstruction (w : Word)
  /-- The effective address is not a multiple of the access size (R267). -/
  | misalignedAccess (a : Word)
  /-- The access is not wholly inside the data space (R266). -/
  | memoryFault (a : Word)
  /-- `div` or `rem` by zero (R268). -/
  | divideByZero
  /-- `break` was executed (R269). -/
  | breakpoint
  /-- The host rejected function `n` or failed (R269). -/
  | hostFault (n : Imm15)
  /-- -2^31 divided by -1 under `DIV_OVERFLOW = fault` only; the spec gives this event no name (DESIGN CHOICE, log
  entry 14). -/
  | divideOverflow
  deriving DecidableEq, Repr

/-- The run status (10_state.md R32). -/
inductive Status where
  /-- The VM executes the instruction at `pc`. -/
  | running
  /-- An `eret` was executed. -/
  | halted
  /-- An `ecall n` is being served; the next step is the host's. -/
  | inHost (n : Imm15)
  /-- Exception `e` was taken. -/
  | stopped (e : Exc)
  deriving DecidableEq, Repr

/-- The data space's contents: address and byte pairs in canonical form (`Memory.wf`), a byte that is not listed
reading as `Memory.unlisted`. -/
structure Memory where
  cells : List Host.Cell
  deriving DecidableEq, Repr

/-- A header symbol (20_memory.md R53): the word address a host call starts at, and the 60 name bytes, opaque. -/
structure Symbol where
  offset : Word
  name : List Byte
  deriving DecidableEq, Repr

/-- What a loaded file fixes for a run (00_scope.md R7, 20_memory.md R52, R54). `text_count` is the length of `text` and
`sym_count` the length of `syms`. -/
structure Image where
  dataLen : Word
  bssLen : Word
  resetVector : Word
  syms : List Symbol
  text : List Word
  deriving DecidableEq, Repr

/-- The state of the VM (10_state.md R20), with the fixed inputs of the run. -/
structure State where
  /-- `x[0]` to `x[31]` (10_state.md R21, R22). -/
  regs : Vector Word 32
  /-- The word address of the instruction being executed (10_state.md R24). -/
  pc : Word
  /-- The data space (10_state.md R31). -/
  data : Memory
  /-- The run status (10_state.md R32). -/
  status : Status
  /-- The loaded file: fixed, no step changes it (20_memory.md R59). -/
  image : Image
  /-- The parameters of 00_scope.md R8: fixed, no step changes them. -/
  params : Params
  /-- How many free values have been drawn: the model's own (log entry 3). -/
  draws : Nat
  deriving DecidableEq, Repr

/-- Why the machine takes no step. Both are raised by `step` alone, in a state that no instruction leaves (10_state.md
R32: only a VM in status `Running` fetches and executes). -/
inductive Fault where
  /-- Raised by `step` in status `Halted`: the run has ended normally (60_exceptions.md R276). Safe: the VM takes no
  step until the host starts it again. -/
  | halted
  /-- Raised by `step` in status `Stopped(e)`: the run has ended with `e` (60_exceptions.md R262, R263). Safe: the VM
  takes no further step of its own. -/
  | stopped (e : Exc)
  deriving DecidableEq, Repr

/-- Why an instruction has no meaning in the model. -/
inductive Refusal where
  /-- Raised by an arm of `exec` for an instruction not modelled yet. Safe: nothing can be proved about it. -/
  | notModelled (mnemonic : String)
  deriving DecidableEq, Repr

/-- A step's outcome. -/
abbrev StepResult := Host.Outcome State Fault Refusal

/-- The machine right after reset with no file loaded (10_state.md R34, 70_reset_and_hazards.md R290): pc at the
reset vector, status `Running`, nothing in either memory. No file: DESIGN CHOICE, log entry 1; registers 1 to 31:
DESIGN CHOICE, log entry 2; the parameters are the defaults of 00_scope.md R8. A program comes from outside:
`PlgFile.startUp`, `State.withFetchWord`. -/
def State.reset : State where
  regs := Vector.replicate 32 0
  pc := 0
  data := ⟨[]⟩
  status := .running
  image := { dataLen := 0, bssLen := 0, resetVector := 0, syms := [], text := [] }
  params := {}
  draws := 0

end Sys2Proof.Machine
end

