-- ==== Sys2Proof/Machine/Ops.lean ====
section
/-! DEFINITION. The named operations over registers, memory and status that every meaning is built from:
00_scope.md R13, R14, 10_state.md R21, 20_memory.md R44, R45, R49, 60_exceptions.md R262. -/

namespace Sys2Proof.Machine

/-! ## Registers and pc -/

/-- `x[i]`: register 0 always reads as 0 (10_state.md R21). -/
def State.getReg (s : State) (r : Reg) : Word := if r = 0 then 0 else s.regs[r.toFin]

/-- `x[i] <- v`: a write to register 0 is ignored (10_state.md R21). -/
def State.setReg (s : State) (r : Reg) (v : Word) : State :=
  if r = 0 then s else { s with regs := s.regs.set r.toFin v }

/-- `pc <- t` (00_scope.md R13). -/
def State.jump (s : State) (t : Word) : State := { s with pc := t }

/-- `pc <- trunc_32(pc + 1)` (00_scope.md R14, 10_state.md R26). -/
def State.advance (s : State) : State := s.jump (s.pc + 1)

/-- An instruction that writes one register and goes on: step 5 of 00_scope.md R14. -/
def State.writeNext (s : State) (rd : Reg) (v : Word) : State := (s.setReg rd v).advance

/-! ## Exceptions -/

/-- Taking an exception (60_exceptions.md R262): the status becomes `Stopped(e)`; registers, data and pc keep their
values, since nothing the faulting instruction would write is written. There is no handler, no cause register, no saved
pc (R264). -/
def State.raise (s : State) (e : Exc) : State := { s with status := .stopped e }

/-- Resumption after `break`, the one stop that can be resumed (60_exceptions.md R263, 40_system.md R101): at
`trunc_32(pc + 1)`. No instruction returns from an exception (R278). -/
def State.resumeBreak (s : State) : State := { s.advance with status := .running }

/-! ## Fetch -/

/-- `Fetch(pc)` (20_memory.md R49): `none` where `unsigned(pc) >= text_count`. -/
def State.fetch (s : State) : Option Word := s.image.text[s.pc.toNat]?

/-- The text with word `w` at index `i`, zero words up to it where the text is shorter (log entry 31). -/
def placeWord (text : List Word) (i : Nat) (w : Word) : List Word :=
  (text ++ List.replicate (i + 1 - text.length) 0).set i w

/-! ## The data space (20_memory.md R44, R45, R47, R48) -/

/-- `DATA_SIZE = data_len + bss_len`, an exact number (20_memory.md R48). -/
def Image.dataSize (im : Image) : Nat := im.dataLen.toNat + im.bssLen.toNat

/-- What a data byte that is not listed reads as: 0, the start-up contents of the bss (20_memory.md R54, D12; log
entry 24). -/
def Memory.unlisted : Byte := 0

/-- Addresses rise strictly from `lo` on and no entry equals the unlisted byte. -/
def wfCells : Nat → List Host.Cell → Bool
  | _, [] => true
  | lo, (a, b) :: rest => decide (lo ≤ a) && b != Memory.unlisted && wfCells (a + 1) rest

/-- The canonical form of the data space. -/
def Memory.wf (m : Memory) : Bool := wfCells 0 m.cells

/-- The byte listed at address `a`, or the unlisted byte. -/
def lookupCell : List Host.Cell → Nat → Byte
  | [], _ => Memory.unlisted
  | (k, b) :: rest, a => if a = k then b else lookupCell rest a

/-- The list with byte `b` at address `a`, in canonical form. -/
def insertCell : List Host.Cell → Nat → Byte → List Host.Cell
  | [], a, b => if b = Memory.unlisted then [] else [(a, b)]
  | (k, c) :: rest, a, b =>
    if a < k then (if b = Memory.unlisted then (k, c) :: rest else (a, b) :: (k, c) :: rest)
    else if a = k then (if b = Memory.unlisted then rest else (a, b) :: rest)
    else (k, c) :: insertCell rest a b

/-- `data[a]`. -/
def Memory.readByte (m : Memory) (a : Nat) : Byte := lookupCell m.cells a

/-- `data[a] <- b`. -/
def Memory.writeByte (m : Memory) (a : Nat) (b : Byte) : Memory := ⟨insertCell m.cells a b⟩

/-- The `n` bytes from `a` on as an unsigned number, least significant first (20_memory.md R40, R44). -/
def Memory.readLE (m : Memory) (a : Nat) : Nat → Nat
  | 0 => 0
  | n + 1 => (m.readByte a).toNat + 256 * m.readLE (a + 1) n

/-- The `n` low bytes of `v` stored from `a` on, least significant first (20_memory.md R40, R45). -/
def Memory.writeLE (m : Memory) (a : Nat) : Nat → Nat → Memory
  | 0, _ => m
  | n + 1, v => (m.writeByte a (BitVec.ofNat 8 v)).writeLE (a + 1) n (v / 256)

/-- The access widths of 20_memory.md R46. -/
inductive Width where
  | byte | short | word
  deriving DecidableEq, Repr

/-- `n` in 1, 2, 4. -/
def Width.bytes : Width → Nat
  | .byte => 1
  | .short => 2
  | .word => 4

/-- The checks of `MemRead` and `MemWrite` in their order (20_memory.md R44, R45; 60_exceptions.md R270): alignment,
unless unaligned accesses are supported, then range, the sum an exact integer. -/
def State.checkAccess (s : State) (a : Word) (n : Width) : Option Exc :=
  if a.toNat % n.bytes ≠ 0 ∧ s.params.unalignedSupport = false then some (.misalignedAccess a)
  else if s.image.dataSize < a.toNat + n.bytes then some (.memoryFault a)
  else none

/-- `MemRead(a, n)` (20_memory.md R44). -/
def State.memRead (s : State) (a : Word) (n : Width) : Except Exc Nat :=
  match s.checkAccess a n with
  | some e => .error e
  | none => .ok (s.data.readLE a.toNat n.bytes)

/-- `MemWrite(a, n, v)` (20_memory.md R45): only the low `8n` bits of `v` count. -/
def State.memWrite (s : State) (a : Word) (n : Width) (v : Word) : Except Exc State :=
  match s.checkAccess a n with
  | some e => .error e
  | none => .ok { s with data := s.data.writeLE a.toNat n.bytes v.toNat }

/-- A load (41_memory_ops.md R111): the access, then `x[rd] <- ext v`, then the pc; or the exception. -/
def State.load (s : State) (rd : Reg) (a : Word) (n : Width) (ext : Nat → Word) : State :=
  match s.memRead a n with
  | .error e => s.raise e
  | .ok v => s.writeNext rd (ext v)

/-- A store (41_memory_ops.md R111): the access, then the pc; or the exception. -/
def State.store (s : State) (a : Word) (n : Width) (v : Word) : State :=
  match s.memWrite a n v with
  | .error e => s.raise e
  | .ok t => t.advance

/-! ## Results that can be free values -/

/-- The result of an operation: a value, a NaN of no fixed pattern (47_float_numerics.md R243), or a value the spec
leaves unspecified. -/
inductive Value where
  | known (v : Word)
  | nan
  | free
  deriving DecidableEq, Repr

/-- The 32 bits of a NaN pattern (47_float_numerics.md R241). -/
def nanBits (p : NanPattern) : Word := BitVec.ofBool p.sign ++ 255#8 ++ BitVec.ofNat 23 (p.payload.val + 1)

/-- The word a result stands for: a free value is drawn for this instruction and its operands (log entries 3 to 5). -/
def State.settle (s : State) (site : DrawSite) (a b : Word) : Value → Word
  | .known v => v
  | .nan =>
    match s.params.nanResult with
    | .canonical => 0x7FC00000
    | .draw => nanBits (Config.nanResult s.draws site a b)
  | .free => Config.freeWord s.draws site a b

/-- A result written to `x[rd]`, the draw counter advanced where the result is not a known value, and the pc. -/
def State.writeValue (s : State) (site : DrawSite) (a b : Word) (rd : Reg) (v : Value) : State :=
  let t := s.writeNext rd (s.settle site a b v)
  match v with
  | .known _ => t
  | _ => { t with draws := s.draws + 1 }

/-- A result that may also be an exception (integer division). -/
def State.writeOrRaise (s : State) (site : DrawSite) (a b : Word) (rd : Reg) : Except Exc Value → State
  | .error e => s.raise e
  | .ok v => s.writeValue site a b rd v

end Sys2Proof.Machine
end

