-- ==== Sys2Proof/Machine/Float.lean ====
section
/-! DEFINITION. IEEE 754 binary32 on 32-bit patterns (47_float_numerics.md R240 to R251). The format and its rounding
are PRESUMED: the source says only `float`, 4 bytes (D19, log entry 15). Every finite float is a whole number of
units of 2^-149, so all arithmetic here is exact arithmetic on such numbers, rounded once at the end. -/

namespace Sys2Proof.Machine

/-- The value of a pattern (R241). `finite neg mag` is `(-1)^neg * mag * 2^-149`. -/
inductive FloatVal where
  | nan
  | inf (neg : Bool)
  | finite (neg : Bool) (mag : Nat)
  deriving DecidableEq, Repr

/-- Bit 31 (R240). -/
def signOf (v : Word) : Bool := v.msb
/-- Bits 30:23, the biased exponent (R240). -/
def expOf (v : Word) : Nat := (v.extractLsb' 23 8).toNat
/-- Bits 22:0, the fraction (R240). -/
def fracOf (v : Word) : Nat := (v.extractLsb' 0 23).toNat

/-- The table of R241: with exponent `e` 1 to 254 the value is `(2^23 + m) * 2^(e - 150)`, that is
`(2^23 + m) * 2^(e - 1)` units. -/
def unpack (v : Word) : FloatVal :=
  if expOf v = 255 then (if fracOf v = 0 then .inf (signOf v) else .nan)
  else if expOf v = 0 then .finite (signOf v) (fracOf v)
  else .finite (signOf v) ((2 ^ 23 + fracOf v) * 2 ^ (expOf v - 1))

/-- A pattern with a sign and bits 30:0. -/
def packBits (neg : Bool) (mag : Nat) : Word := BitVec.ofBool neg ++ BitVec.ofNat 31 mag

/-- The zero of a sign (R241). -/
def zeroOf (neg : Bool) : Word := packBits neg 0
/-- The infinity of a sign (R241). -/
def infOf (neg : Bool) : Word := packBits neg 0x7F800000

/-- `num / den` rounded to the nearest whole number, a tie to the even one (R242). -/
def divNearestEven (num den : Nat) : Nat :=
  let q := num / den
  let r := num % den
  if den < 2 * r ∨ (2 * r = den ∧ q % 2 = 1) then q + 1 else q

/-- Bits 30:0 of the float nearest to `num / den` units, before the overflow to infinity. The float's last place is
`2^sh` units: 1 unit in the subnormal range and the first binade, more above; `q` counts last places, and counting it
on from `sh` binades gives the pattern, a carry into the next binade included. -/
def roundMag (num den : Nat) : Nat :=
  let whole := num / den
  let sh := if whole < 2 ^ 24 then 0 else whole.log2 - 23
  sh * 2 ^ 23 + divNearestEven num (den * 2 ^ sh)

/-- `round_f32` (R242) of the number `num / den` units with a sign: nearest, ties to even; at or above
`(2^24 - 1/2) * 2^104` infinity; gradual underflow; a magnitude that rounds to zero keeps its sign. -/
def roundF32 (neg : Bool) (num den : Nat) : Word := packBits neg (min (roundMag num den) 0x7F800000)

/-- The signed number of units of a finite value. -/
def signedUnits (neg : Bool) (mag : Nat) : Int := if neg then -(mag : Int) else mag

/-- Number of units in 1.0. -/
def one : Nat := 2 ^ 149

/-- An exact sum of two finite values, rounded (R244 5): an exact zero is `+0` unless both terms are zeros of the
same negative sign. -/
def addFinite (na : Bool) (ma : Nat) (nb : Bool) (mb : Nat) : Word :=
  let r := signedUnits na ma + signedUnits nb mb
  if r = 0 then zeroOf (ma == 0 && mb == 0 && na && nb) else roundF32 (r < 0) r.natAbs 1

/-- `f32_add` (R244). -/
def f32Add (a b : Word) : Value :=
  match unpack a, unpack b with
  | .nan, _ => .nan
  | _, .nan => .nan
  | .inf na, .inf nb => if na = nb then .known (infOf na) else .nan
  | .inf na, .finite .. => .known (infOf na)
  | .finite .., .inf nb => .known (infOf nb)
  | .finite na ma, .finite nb mb => .known (addFinite na ma nb mb)

/-- A pattern with bit 31 flipped. -/
def flipSign (v : Word) : Word := v ^^^ 0x80000000

/-- `f32_sub` (R244): `b`'s sign is flipped first; a NaN stays a NaN. -/
def f32Sub (a b : Word) : Value := f32Add a (flipSign b)

/-- `f32_mul` (R244). -/
def f32Mul (a b : Word) : Value :=
  match unpack a, unpack b with
  | .nan, _ => .nan
  | _, .nan => .nan
  | .inf na, .inf nb => .known (infOf (na ^^ nb))
  | .inf na, .finite nb mb => if mb = 0 then .nan else .known (infOf (na ^^ nb))
  | .finite na ma, .inf nb => if ma = 0 then .nan else .known (infOf (na ^^ nb))
  | .finite na ma, .finite nb mb =>
    .known (if ma * mb = 0 then zeroOf (na ^^ nb) else roundF32 (na ^^ nb) (ma * mb) one)

/-- `f32_div` (R244). -/
def f32Div (a b : Word) : Value :=
  match unpack a, unpack b with
  | .nan, _ => .nan
  | _, .nan => .nan
  | .inf _, .inf _ => .nan
  | .inf na, .finite nb _ => .known (infOf (na ^^ nb))
  | .finite na _, .inf nb => .known (zeroOf (na ^^ nb))
  | .finite na ma, .finite nb mb =>
    if mb = 0 then (if ma = 0 then .nan else .known (infOf (na ^^ nb)))
    else .known (if ma = 0 then zeroOf (na ^^ nb) else roundF32 (na ^^ nb) (ma * one) mb)

/-- The whole square root of `n`, bit `k - 1` and below still to be decided, given the bits found so far. -/
def isqrtFrom (n : Nat) : Nat → Nat → Nat
  | 0, root => root
  | k + 1, root => isqrtFrom n k (if (root + 2 ^ k) * (root + 2 ^ k) ≤ n then root + 2 ^ k else root)

/-- The whole square root of a number below `2^426`. -/
def isqrt (n : Nat) : Nat := isqrtFrom n 213 0

/-- The rounded square root of `m` units (R245), `m` not 0. It is `sqrt(m * 2^149)` units, at least `2^74`, so a
rounding boundary is a whole number of units: where the root lies strictly between two whole numbers, the half between
them rounds as the root does. -/
def sqrtFinite (m : Nat) : Word :=
  let n := m * one
  let r := isqrt n
  roundF32 false (if r * r = n then 2 * r else 2 * r + 1) 2

/-- `f32_sqrt` (R245). -/
def f32Sqrt (a : Word) : Value :=
  match unpack a with
  | .nan => .nan
  | .inf neg => if neg then .nan else .known (infOf false)
  | .finite neg m => if m = 0 then .known (zeroOf neg) else if neg then .nan else .known (sqrtFinite m)

/-- `value(a) < value(b)` as extended reals, -0 equal to +0; false on a NaN (R246). -/
def f32Lt (a b : Word) : Bool :=
  match unpack a, unpack b with
  | .nan, _ => false
  | _, .nan => false
  | .inf na, .inf nb => na && !nb
  | .inf na, .finite .. => na
  | .finite .., .inf nb => !nb
  | .finite na ma, .finite nb mb => decide (signedUnits na ma < signedUnits nb mb)

/-- Whether a pattern is a NaN (R241). -/
def isNan (v : Word) : Bool := unpack v == .nan

/-- `value(a) >= value(b)`; on a NaN operand the parameter `BGEF_NAN` (R246, 44_jalr_branches.md R199). -/
def f32Ge (bgefNan : Bool) (a b : Word) : Bool := if isNan a || isNan b then bgefNan else !f32Lt a b

/-- `i32_to_f32` (R247), the integer read as signed (D23). -/
def i32ToF32 (v : Word) : Word :=
  if v = 0 then 0 else roundF32 v.msb (v.toInt.natAbs * one) 1

/-- `f32_to_i32_trunc` (R248). Where the value is no 32-bit integer the result is a free value, or saturates. -/
def f32ToI32 (p : IcfInvalid) (a : Word) : Value :=
  match unpack a with
  | .nan => match p with
    | .draw => .free
    | .saturate => .known 0
  | .inf neg => match p with
    | .draw => .free
    | .saturate => .known (if neg then 0x80000000 else 0x7FFFFFFF)
  | .finite neg m =>
    let t := signedUnits neg (m / one)
    if -2 ^ 31 ≤ t ∧ t ≤ 2 ^ 31 - 1 then .known (BitVec.ofInt 32 t)
    else match p with
      | .draw => .free
      | .saturate => .known (if neg then 0x80000000 else 0x7FFFFFFF)

/-- The directions of the three instructions that round to an integral float (R249). -/
inductive Direction where
  | nearestAway | up | down
  deriving DecidableEq, Repr

/-- The magnitude of the integer that `m` units with a sign round to (R249; halves away from zero, D22). -/
def integralMag (d : Direction) (neg : Bool) (m : Nat) : Nat :=
  let whole := m / one
  let part := m % one
  let outward : Bool := match d with
    | .nearestAway => decide (one ≤ 2 * part)
    | .up => !neg && part != 0
    | .down => neg && part != 0
  if outward then whole + 1 else whole

/-- `f32_round`, `f32_ceil`, `f32_floor` (R249): infinities, zeros and patterns with exponent 150 or more give
themselves; a zero result keeps the operand's sign. -/
def f32Integral (d : Direction) (a : Word) : Value :=
  match unpack a with
  | .nan => .nan
  | .inf _ => .known a
  | .finite neg m =>
    if m = 0 ∨ 150 ≤ expOf a then .known a
    else
      let k := integralMag d neg m
      .known (if k = 0 then zeroOf neg else roundF32 neg (k * one) 1)

end Sys2Proof.Machine
end

