-- ==== Sys2Proof/Machine/Flags.lean ====
section
/-! DEFINITION. The VM has no flags and no condition codes (10_state.md R28): no instruction computes one, and there is
nothing to hold here but the conditions of the eight branches, which compare two registers directly
(44_jalr_branches.md R192 to R199). -/

namespace Sys2Proof.Machine

/-- `==` on the bit patterns (R192). -/
def condEq (a b : Word) : Bool := a == b
/-- `!=` on the bit patterns (R193). -/
def condNe (a b : Word) : Bool := a != b
/-- `<s` (R194). -/
def condLt (a b : Word) : Bool := decide (a.toInt < b.toInt)
/-- `>=s` (R195). -/
def condGe (a b : Word) : Bool := decide (b.toInt ≤ a.toInt)
/-- `<u` (R196). -/
def condLtu (a b : Word) : Bool := decide (a.toNat < b.toNat)
/-- `>=u` (R197). -/
def condGeu (a b : Word) : Bool := decide (b.toNat ≤ a.toNat)
/-- `<f` (R198). -/
def condLtf (a b : Word) : Bool := f32Lt a b
/-- `>=f` (R199), with `BGEF_NAN`. -/
def condGef (bgefNan : Bool) (a b : Word) : Bool := f32Ge bgefNan a b

end Sys2Proof.Machine
end

