-- ==== Sys2Proof/Machine/Operands.lean ====
section
/-! DEFINITION. The operand forms: immediates and their extension (30_encoding.md R76), the one addressing mode
(41_memory_ops.md R110), jump and branch targets (10_state.md R26), shift amounts (42_immediate_arithmetic.md R136),
loaded values (41_memory_ops.md R115 to R119). -/

namespace Sys2Proof.Machine

/-- `zext_32(imm15)` (00_scope.md R10). -/
def zext15 (imm : Imm15) : Word := imm.zeroExtend 32
/-- `sext_32(imm15)` (00_scope.md R10). -/
def sext15 (imm : Imm15) : Word := imm.signExtend 32
/-- `zext_32(imm20)` (00_scope.md R10). -/
def zext20 (imm : Imm20) : Word := imm.zeroExtend 32
/-- `sext_32(imm20)` (00_scope.md R10). -/
def sext20 (imm : Imm20) : Word := imm.signExtend 32

/-- A loaded `8n`-bit number, zero-extended (41_memory_ops.md R118, R119); for a word, unchanged (R115, C5). -/
def zextLoaded (v : Nat) : Word := BitVec.ofNat 32 v
/-- A loaded short, sign-extended (41_memory_ops.md R116). -/
def sextShort (v : Nat) : Word := (BitVec.ofNat 16 v).signExtend 32
/-- A loaded byte, sign-extended (41_memory_ops.md R117). -/
def sextByte (v : Nat) : Word := (BitVec.ofNat 8 v).signExtend 32

/-- The offset of a load or store, extended as `MEM_IMM_EXT` says (41_memory_ops.md R110, D3). -/
def memOffset (p : MemImmExt) (imm : Imm15) : Word :=
  match p with
  | .zext => zext15 imm
  | .sext => sext15 imm

/-- `EA = trunc_32(x[rs1] + imm15)` (41_memory_ops.md R110). -/
def State.effAddr (s : State) (rs1 : Reg) (imm : Imm15) : Word := s.getReg rs1 + memOffset s.params.memImmExt imm

/-- A taken branch's target, `trunc_32(pc + sext_32(imm15))` with the branch's own pc (44_jalr_branches.md R190, D2). -/
def State.branchTarget (s : State) (imm : Imm15) : Word := s.pc + sext15 imm

/-- The amount of an immediate shift, 0 to 32767 (42_immediate_arithmetic.md R136). -/
def immAmount (imm : Imm15) : Nat := imm.toNat

/-- The amount of a register shift: the whole register, unsigned (42_immediate_arithmetic.md R136). -/
def State.regAmount (s : State) (r : Reg) : Nat := (s.getReg r).toNat

/-- A conditional branch (44_jalr_branches.md R190): the target where the condition holds, else the next word. -/
def State.branch (s : State) (taken : Bool) (imm : Imm15) : State :=
  if taken then s.jump (s.branchTarget imm) else s.advance

/-- A jump that leaves the next word's address in `x[rd]` (44_jalr_branches.md R191, 45_ri.md R213): `target` was
computed from the state before (00_scope.md R14, D4). -/
def State.link (s : State) (rd : Reg) (target : Word) : State := (s.setReg rd (s.pc + 1)).jump target

end Sys2Proof.Machine
end

