-- ==== Sys2Proof/Machine/Branches.lean ====
section
/-! DEFINITION. The meanings of `jalr` and the branches (44_jalr_branches.md R190 to R199). -/

namespace Sys2Proof.Machine

/-- `jalr` (R191): the target is computed from the old `x[rs1]` (D4). -/
def execJalr (rd rs1 : Reg) (imm : Imm15) (s : State) : StepResult :=
  .next (s.link rd (s.getReg rs1 + zext15 imm))

/-- `beq` (R192, R190). -/
def execBeq (rs1 rs2 : Reg) (imm : Imm15) (s : State) : StepResult :=
  .next (s.branch (condEq (s.getReg rs1) (s.getReg rs2)) imm)

/-- `bne` (R193, R190). -/
def execBne (rs1 rs2 : Reg) (imm : Imm15) (s : State) : StepResult :=
  .next (s.branch (condNe (s.getReg rs1) (s.getReg rs2)) imm)

/-- `blt` (R194, R190). -/
def execBlt (rs1 rs2 : Reg) (imm : Imm15) (s : State) : StepResult :=
  .next (s.branch (condLt (s.getReg rs1) (s.getReg rs2)) imm)

/-- `bge` (R195, R190). -/
def execBge (rs1 rs2 : Reg) (imm : Imm15) (s : State) : StepResult :=
  .next (s.branch (condGe (s.getReg rs1) (s.getReg rs2)) imm)

/-- `bltu` (R196, R190). -/
def execBltu (rs1 rs2 : Reg) (imm : Imm15) (s : State) : StepResult :=
  .next (s.branch (condLtu (s.getReg rs1) (s.getReg rs2)) imm)

/-- `bgeu` (R197, R190). -/
def execBgeu (rs1 rs2 : Reg) (imm : Imm15) (s : State) : StepResult :=
  .next (s.branch (condGeu (s.getReg rs1) (s.getReg rs2)) imm)

/-- `bltf` (R198, R190). -/
def execBltf (rs1 rs2 : Reg) (imm : Imm15) (s : State) : StepResult :=
  .next (s.branch (condLtf (s.getReg rs1) (s.getReg rs2)) imm)

/-- `bgef` (R199, R190). -/
def execBgef (rs1 rs2 : Reg) (imm : Imm15) (s : State) : StepResult :=
  .next (s.branch (condGef s.params.bgefNan (s.getReg rs1) (s.getReg rs2)) imm)

end Sys2Proof.Machine
end

