-- ==== Sys2Proof/Machine/Integer.lean ====
section
/-! DEFINITION. Integer laws shared by the immediate and the register forms: shifts (42_immediate_arithmetic.md R136),
truncating division (R141), zero divisors (43_register_arithmetic.md R170). -/

namespace Sys2Proof.Machine

/-- A shift by `n` under `SHIFT_POLICY` (R136): `f` is the shift for amounts 0 to 31, on which every policy agrees, and
`big` the mathematical result for larger amounts. -/
def shiftBy (p : ShiftPolicy) (f : Nat → Word) (big : Word) (n : Nat) : Value :=
  if n < 32 then .known (f n)
  else match p with
    | .mathematical => .known big
    | .mask5 => .known (f (n % 32))
    | .unspecified => .free

/-- `shl(a, n)` (R136). -/
def shl (p : ShiftPolicy) (a : Word) (n : Nat) : Value := shiftBy p (fun k => a <<< k) 0 n

/-- `shrl(a, n)` (R136). -/
def shrl (p : ShiftPolicy) (a : Word) (n : Nat) : Value := shiftBy p (fun k => a >>> k) 0 n

/-- `shra(a, n)` (R136): for large amounts, copies of bit 31. -/
def shra (p : ShiftPolicy) (a : Word) (n : Nat) : Value :=
  shiftBy p (fun k => a.sshiftRight k) (if a.msb then 0xFFFFFFFF else 0) n

/-- `tdiv(a, b)`: the quotient rounded toward zero (R141). -/
def tdiv (a b : Int) : Int := a.tdiv b

/-- `trem(a, b) = a - tdiv(a, b) * b` (R141). -/
def trem (a b : Int) : Int := a - tdiv a b * b

/-- The one case whose quotient does not fit 32 bits (R141, D9). -/
def divOverflows (a b : Word) : Bool := a == 0x80000000 && b == 0xFFFFFFFF

/-- A truncating operation `f` on two signed words (R141), the overflow case as `DIV_OVERFLOW` says. -/
def truncating (p : DivOverflow) (f : Int → Int → Int) (a b : Word) : Except Exc Value :=
  if divOverflows a b then
    match p with
    | .wrap => .ok (.known (BitVec.ofInt 32 (f a.toInt b.toInt)))
    | .fault => .error .divideOverflow
    | .unspecified => .ok .free
  else .ok (.known (BitVec.ofInt 32 (f a.toInt b.toInt)))

/-- A truncating operation whose divisor is a register (43_register_arithmetic.md R170): a zero divisor as `DIV_ZERO`
says. -/
def truncatingReg (p : Params) (f : Int → Int → Int) (a b : Word) : Except Exc Value :=
  if b = 0 then
    match p.divZero with
    | .fault => .error .divideByZero
    | .unspecified => .ok .free
  else truncating p.divOverflow f a b

/-- `trunc_32(signed(a) * signed(b))`: the low 32 bits of the product, the same for unsigned operands (R140,
43_register_arithmetic.md R169). -/
def mulLow (a b : Word) : Word := a * b

end Sys2Proof.Machine
end

