-- ==== Sys2Proof/Machine/ImmArith.lean ====
section
/-! DEFINITION. The meanings of the immediate arithmetic instructions (42_immediate_arithmetic.md R130 to R149). -/

namespace Sys2Proof.Machine

/-! ## Add, subtract, logic -/

/-- `addi` (R131: the immediate is zero-extended). -/
def execAddi (rd rs1 : Reg) (imm : Imm15) (s : State) : StepResult := .next (s.writeNext rd (s.getReg rs1 + zext15 imm))

/-- `subi` (R132: the immediate is zero-extended). -/
def execSubi (rd rs1 : Reg) (imm : Imm15) (s : State) : StepResult := .next (s.writeNext rd (s.getReg rs1 - zext15 imm))

/-- `andi` (R133: the immediate is sign-extended). -/
def execAndi (rd rs1 : Reg) (imm : Imm15) (s : State) : StepResult := .next (s.writeNext rd (s.getReg rs1 &&& sext15 imm))

/-- `xori` (R134: the immediate is sign-extended). -/
def execXori (rd rs1 : Reg) (imm : Imm15) (s : State) : StepResult := .next (s.writeNext rd (s.getReg rs1 ^^^ sext15 imm))

/-- `ori` (R135: the immediate is sign-extended). -/
def execOri (rd rs1 : Reg) (imm : Imm15) (s : State) : StepResult := .next (s.writeNext rd (s.getReg rs1 ||| sext15 imm))

/-! ## Shifts -/

/-- `slli` (R137, R136). -/
def execSlli (rd rs1 : Reg) (imm : Imm15) (s : State) : StepResult :=
  .next (s.writeValue .slli (s.getReg rs1) (zext15 imm) rd (shl s.params.shiftPolicy (s.getReg rs1) (immAmount imm)))

/-- `srli` (R138, R136). -/
def execSrli (rd rs1 : Reg) (imm : Imm15) (s : State) : StepResult :=
  .next (s.writeValue .srli (s.getReg rs1) (zext15 imm) rd (shrl s.params.shiftPolicy (s.getReg rs1) (immAmount imm)))

/-- `srai` (R139, R136). -/
def execSrai (rd rs1 : Reg) (imm : Imm15) (s : State) : StepResult :=
  .next (s.writeValue .srai (s.getReg rs1) (zext15 imm) rd (shra s.params.shiftPolicy (s.getReg rs1) (immAmount imm)))

/-! ## Multiply, divide, remainder -/

/-- `muli` (R140): the immediate is sign-extended. -/
def execMuli (rd rs1 : Reg) (imm : Imm15) (s : State) : StepResult :=
  .next (s.writeNext rd (mulLow (s.getReg rs1) (sext15 imm)))

/-- `divi` (R143): the immediate 0 is an invalid instruction (R142), which the decoder already refuses. -/
def execDivi (rd rs1 : Reg) (imm : Imm15) (s : State) : StepResult :=
  .next <|
    if imm = 0 then s.raise (.invalidInstruction (encode (.divi rd rs1 imm)))
    else
      s.writeOrRaise .divi (s.getReg rs1) (sext15 imm) rd
        (truncating s.params.divOverflow tdiv (s.getReg rs1) (sext15 imm))

/-- `remi` (R144): the immediate 0 is an invalid instruction (R142), which the decoder already refuses. -/
def execRemi (rd rs1 : Reg) (imm : Imm15) (s : State) : StepResult :=
  .next <|
    if imm = 0 then s.raise (.invalidInstruction (encode (.remi rd rs1 imm)))
    else
      s.writeOrRaise .remi (s.getReg rs1) (sext15 imm) rd
        (truncating s.params.divOverflow trem (s.getReg rs1) (sext15 imm))

/-! ## Unary floating-point operations -/

/-- `icf` (R145): float to integer, toward zero. -/
def execIcf (rd rs1 : Reg) (s : State) : StepResult :=
  .next (s.writeValue .icf (s.getReg rs1) 0 rd (f32ToI32 s.params.icfInvalid (s.getReg rs1)))

/-- `fci` (R146): signed integer to float. -/
def execFci (rd rs1 : Reg) (s : State) : StepResult := .next (s.writeNext rd (i32ToF32 (s.getReg rs1)))

/-- `roundf` (R147). -/
def execRoundf (rd rs1 : Reg) (s : State) : StepResult :=
  .next (s.writeValue .roundf (s.getReg rs1) 0 rd (f32Integral .nearestAway (s.getReg rs1)))

/-- `ceilf` (R148). -/
def execCeilf (rd rs1 : Reg) (s : State) : StepResult :=
  .next (s.writeValue .ceilf (s.getReg rs1) 0 rd (f32Integral .up (s.getReg rs1)))

/-- `floorf` (R149). -/
def execFloorf (rd rs1 : Reg) (s : State) : StepResult :=
  .next (s.writeValue .floorf (s.getReg rs1) 0 rd (f32Integral .down (s.getReg rs1)))

end Sys2Proof.Machine
end

