-- ==== Sys2Proof/Machine/MemoryFamily.lean ====
section
/-! DEFINITION. The meanings of the memory instructions (41_memory_ops.md R110 to R119). -/

namespace Sys2Proof.Machine

/-- `sw` (R112). -/
def execSw (rd rs1 : Reg) (imm : Imm15) (s : State) : StepResult :=
  .next (s.store (s.effAddr rs1 imm) .word (s.getReg rd))

/-- `sh` (R113): the low 16 bits. -/
def execSh (rd rs1 : Reg) (imm : Imm15) (s : State) : StepResult :=
  .next (s.store (s.effAddr rs1 imm) .short (s.getReg rd))

/-- `sb` (R114): the low 8 bits. -/
def execSb (rd rs1 : Reg) (imm : Imm15) (s : State) : StepResult :=
  .next (s.store (s.effAddr rs1 imm) .byte (s.getReg rd))

/-- `lw` (R115). -/
def execLw (rd rs1 : Reg) (imm : Imm15) (s : State) : StepResult :=
  .next (s.load rd (s.effAddr rs1 imm) .word zextLoaded)

/-- `lh` (R116). -/
def execLh (rd rs1 : Reg) (imm : Imm15) (s : State) : StepResult :=
  .next (s.load rd (s.effAddr rs1 imm) .short sextShort)

/-- `lb` (R117). -/
def execLb (rd rs1 : Reg) (imm : Imm15) (s : State) : StepResult :=
  .next (s.load rd (s.effAddr rs1 imm) .byte sextByte)

/-- `lhu` (R118). -/
def execLhu (rd rs1 : Reg) (imm : Imm15) (s : State) : StepResult :=
  .next (s.load rd (s.effAddr rs1 imm) .short zextLoaded)

/-- `lbu` (R119). -/
def execLbu (rd rs1 : Reg) (imm : Imm15) (s : State) : StepResult :=
  .next (s.load rd (s.effAddr rs1 imm) .byte zextLoaded)

end Sys2Proof.Machine
end

