-- ==== Sys2Proof/Machine/RegArith.lean ====
section
/-! DEFINITION. The meanings of the register arithmetic instructions (43_register_arithmetic.md R160 to R178). -/

namespace Sys2Proof.Machine

/-! ## Add, subtract, logic -/

/-- `add` (R161). -/
def execAdd (rd rs1 rs2 : Reg) (s : State) : StepResult := .next (s.writeNext rd (s.getReg rs1 + s.getReg rs2))

/-- `sub` (R162). -/
def execSub (rd rs1 rs2 : Reg) (s : State) : StepResult := .next (s.writeNext rd (s.getReg rs1 - s.getReg rs2))

/-- `and` (R163). -/
def execAnd (rd rs1 rs2 : Reg) (s : State) : StepResult := .next (s.writeNext rd (s.getReg rs1 &&& s.getReg rs2))

/-- `xor` (R164). -/
def execXor (rd rs1 rs2 : Reg) (s : State) : StepResult := .next (s.writeNext rd (s.getReg rs1 ^^^ s.getReg rs2))

/-- `or` (R165). -/
def execOr (rd rs1 rs2 : Reg) (s : State) : StepResult := .next (s.writeNext rd (s.getReg rs1 ||| s.getReg rs2))

/-! ## Shifts -/

/-- `sll` (R166, 42_immediate_arithmetic.md R136). -/
def execSll (rd rs1 rs2 : Reg) (s : State) : StepResult :=
  .next (s.writeValue .sll (s.getReg rs1) (s.getReg rs2) rd
    (shl s.params.shiftPolicy (s.getReg rs1) (s.regAmount rs2)))

/-- `srl` (R167, 42_immediate_arithmetic.md R136). -/
def execSrl (rd rs1 rs2 : Reg) (s : State) : StepResult :=
  .next (s.writeValue .srl (s.getReg rs1) (s.getReg rs2) rd
    (shrl s.params.shiftPolicy (s.getReg rs1) (s.regAmount rs2)))

/-- `sra` (R168, 42_immediate_arithmetic.md R136). -/
def execSra (rd rs1 rs2 : Reg) (s : State) : StepResult :=
  .next (s.writeValue .sra (s.getReg rs1) (s.getReg rs2) rd
    (shra s.params.shiftPolicy (s.getReg rs1) (s.regAmount rs2)))

/-! ## Multiply, divide, remainder -/

/-- `mul` (R169). -/
def execMul (rd rs1 rs2 : Reg) (s : State) : StepResult := .next (s.writeNext rd (mulLow (s.getReg rs1) (s.getReg rs2)))

/-- `div` (R171, R170). -/
def execDiv (rd rs1 rs2 : Reg) (s : State) : StepResult :=
  .next (s.writeOrRaise .div (s.getReg rs1) (s.getReg rs2) rd
    (truncatingReg s.params tdiv (s.getReg rs1) (s.getReg rs2)))

/-- `rem` (R172, R170). -/
def execRem (rd rs1 rs2 : Reg) (s : State) : StepResult :=
  .next (s.writeOrRaise .rem (s.getReg rs1) (s.getReg rs2) rd
    (truncatingReg s.params trem (s.getReg rs1) (s.getReg rs2)))

/-! ## Floating point -/

/-- `addf` (R174). -/
def execAddf (rd rs1 rs2 : Reg) (s : State) : StepResult :=
  .next (s.writeValue .addf (s.getReg rs1) (s.getReg rs2) rd (f32Add (s.getReg rs1) (s.getReg rs2)))

/-- `subf` (R175). -/
def execSubf (rd rs1 rs2 : Reg) (s : State) : StepResult :=
  .next (s.writeValue .subf (s.getReg rs1) (s.getReg rs2) rd (f32Sub (s.getReg rs1) (s.getReg rs2)))

/-- `mulf` (R176). -/
def execMulf (rd rs1 rs2 : Reg) (s : State) : StepResult :=
  .next (s.writeValue .mulf (s.getReg rs1) (s.getReg rs2) rd (f32Mul (s.getReg rs1) (s.getReg rs2)))

/-- `divf` (R177). -/
def execDivf (rd rs1 rs2 : Reg) (s : State) : StepResult :=
  .next (s.writeValue .divf (s.getReg rs1) (s.getReg rs2) rd (f32Div (s.getReg rs1) (s.getReg rs2)))

/-- `sqrtf` (R178). -/
def execSqrtf (rd rs1 : Reg) (s : State) : StepResult :=
  .next (s.writeValue .sqrtf (s.getReg rs1) 0 rd (f32Sqrt (s.getReg rs1)))

end Sys2Proof.Machine
end

