-- ==== Sys2Proof/Machine/Ri.lean ====
section
/-! DEFINITION. The meanings of the RI instructions (45_ri.md R210 to R213). -/

namespace Sys2Proof.Machine

/-- `lui` (R211): the immediate in bits 31:12, zeros below. -/
def execLui (rd : Reg) (imm : Imm20) (s : State) : StepResult := .next (s.writeNext rd (imm ++ 0#12))

/-- `lif` (R212): the sign-extended immediate converted to float. -/
def execLif (rd : Reg) (imm : Imm20) (s : State) : StepResult := .next (s.writeNext rd (i32ToF32 (sext20 imm)))

/-- `jal` (R213): an absolute word address. -/
def execJal (rd : Reg) (imm : Imm20) (s : State) : StepResult := .next (s.link rd (zext20 imm))

end Sys2Proof.Machine
end

