-- ==== Sys2Proof/Machine/System.lean ====
section
/-! DEFINITION. The meanings of the System instructions (40_system.md). -/

namespace Sys2Proof.Machine

/-- `break` (R101): the stop `Breakpoint`; no register, no memory and no pc changes. -/
def execBreak (s : State) : StepResult := .next (s.raise .breakpoint)

/-- `eret` (R102): halt and return to the host; the pc stays at the `eret`. -/
def execEret (s : State) : StepResult := .next { s with status := .halted }

/-- `ecall n` (R103): the hand-over to the host. The host's own step follows (`State.hostStep`, 60_exceptions.md
R284). -/
def execEcall (n : Imm15) (s : State) : StepResult := .next { s with status := .inHost n }

end Sys2Proof.Machine
end

