-- ==== Sys2Proof/Machine/Dispatch.lean ====
section
/-! DEFINITION. One arm per instruction (30_encoding.md R78): each is one call of that instruction's meaning. -/

namespace Sys2Proof.Machine

def exec (i : Instr) (s : State) : Host.Outcome State Fault Refusal :=
  match i with
  | .brk => Sys2Proof.Machine.execBreak s
  | .eret => Sys2Proof.Machine.execEret s
  | .ecall imm => Sys2Proof.Machine.execEcall imm s
  | .sw rd rs1 imm => Sys2Proof.Machine.execSw rd rs1 imm s
  | .sh rd rs1 imm => Sys2Proof.Machine.execSh rd rs1 imm s
  | .sb rd rs1 imm => Sys2Proof.Machine.execSb rd rs1 imm s
  | .lw rd rs1 imm => Sys2Proof.Machine.execLw rd rs1 imm s
  | .lh rd rs1 imm => Sys2Proof.Machine.execLh rd rs1 imm s
  | .lb rd rs1 imm => Sys2Proof.Machine.execLb rd rs1 imm s
  | .lhu rd rs1 imm => Sys2Proof.Machine.execLhu rd rs1 imm s
  | .lbu rd rs1 imm => Sys2Proof.Machine.execLbu rd rs1 imm s
  | .addi rd rs1 imm => Sys2Proof.Machine.execAddi rd rs1 imm s
  | .subi rd rs1 imm => Sys2Proof.Machine.execSubi rd rs1 imm s
  | .andi rd rs1 imm => Sys2Proof.Machine.execAndi rd rs1 imm s
  | .xori rd rs1 imm => Sys2Proof.Machine.execXori rd rs1 imm s
  | .ori rd rs1 imm => Sys2Proof.Machine.execOri rd rs1 imm s
  | .slli rd rs1 imm => Sys2Proof.Machine.execSlli rd rs1 imm s
  | .srli rd rs1 imm => Sys2Proof.Machine.execSrli rd rs1 imm s
  | .srai rd rs1 imm => Sys2Proof.Machine.execSrai rd rs1 imm s
  | .muli rd rs1 imm => Sys2Proof.Machine.execMuli rd rs1 imm s
  | .divi rd rs1 imm => Sys2Proof.Machine.execDivi rd rs1 imm s
  | .remi rd rs1 imm => Sys2Proof.Machine.execRemi rd rs1 imm s
  | .icf rd rs1 => Sys2Proof.Machine.execIcf rd rs1 s
  | .fci rd rs1 => Sys2Proof.Machine.execFci rd rs1 s
  | .roundf rd rs1 => Sys2Proof.Machine.execRoundf rd rs1 s
  | .ceilf rd rs1 => Sys2Proof.Machine.execCeilf rd rs1 s
  | .floorf rd rs1 => Sys2Proof.Machine.execFloorf rd rs1 s
  | .add rd rs1 rs2 => Sys2Proof.Machine.execAdd rd rs1 rs2 s
  | .sub rd rs1 rs2 => Sys2Proof.Machine.execSub rd rs1 rs2 s
  | .and rd rs1 rs2 => Sys2Proof.Machine.execAnd rd rs1 rs2 s
  | .xor rd rs1 rs2 => Sys2Proof.Machine.execXor rd rs1 rs2 s
  | .or rd rs1 rs2 => Sys2Proof.Machine.execOr rd rs1 rs2 s
  | .sll rd rs1 rs2 => Sys2Proof.Machine.execSll rd rs1 rs2 s
  | .srl rd rs1 rs2 => Sys2Proof.Machine.execSrl rd rs1 rs2 s
  | .sra rd rs1 rs2 => Sys2Proof.Machine.execSra rd rs1 rs2 s
  | .mul rd rs1 rs2 => Sys2Proof.Machine.execMul rd rs1 rs2 s
  | .div rd rs1 rs2 => Sys2Proof.Machine.execDiv rd rs1 rs2 s
  | .rem rd rs1 rs2 => Sys2Proof.Machine.execRem rd rs1 rs2 s
  | .addf rd rs1 rs2 => Sys2Proof.Machine.execAddf rd rs1 rs2 s
  | .subf rd rs1 rs2 => Sys2Proof.Machine.execSubf rd rs1 rs2 s
  | .mulf rd rs1 rs2 => Sys2Proof.Machine.execMulf rd rs1 rs2 s
  | .divf rd rs1 rs2 => Sys2Proof.Machine.execDivf rd rs1 rs2 s
  | .sqrtf rd rs1 => Sys2Proof.Machine.execSqrtf rd rs1 s
  | .jalr rd rs1 imm => Sys2Proof.Machine.execJalr rd rs1 imm s
  | .beq rs1 rs2 imm => Sys2Proof.Machine.execBeq rs1 rs2 imm s
  | .bne rs1 rs2 imm => Sys2Proof.Machine.execBne rs1 rs2 imm s
  | .blt rs1 rs2 imm => Sys2Proof.Machine.execBlt rs1 rs2 imm s
  | .bge rs1 rs2 imm => Sys2Proof.Machine.execBge rs1 rs2 imm s
  | .bltu rs1 rs2 imm => Sys2Proof.Machine.execBltu rs1 rs2 imm s
  | .bgeu rs1 rs2 imm => Sys2Proof.Machine.execBgeu rs1 rs2 imm s
  | .bltf rs1 rs2 imm => Sys2Proof.Machine.execBltf rs1 rs2 imm s
  | .bgef rs1 rs2 imm => Sys2Proof.Machine.execBgef rs1 rs2 imm s
  | .lui rd imm => Sys2Proof.Machine.execLui rd imm s
  | .lif rd imm => Sys2Proof.Machine.execLif rd imm s
  | .jal rd imm => Sys2Proof.Machine.execJal rd imm s

end Sys2Proof.Machine
end

