-- ==== Sys2Proof/Machine/HostInterface.lean ====
section
/-! DEFINITION. The host's side (60_exceptions.md R273): its step while it serves `ecall` (40_system.md R103,
R275), and what it may do while the VM does not execute (46_abi.md R227, 60_exceptions.md R263, 20_memory.md R61). -/

namespace Sys2Proof.Machine

/-! ## Serving `ecall` -/

/-- The registers a host function preserves: `sp`, `fp`, `s0` to `s9`, that is 2, 3 and 22 to 31 (46_abi.md R221,
R228), and `zero`. -/
def hostPreserves (r : Nat) : Bool := r == 0 || r == 2 || r == 3 || decide (22 ≤ r)

/-- The registers after a host function: the host's where it may change one, the old ones elsewhere (R275). -/
def hostRegs (old new : Vector Word 32) : Vector Word 32 :=
  Vector.ofFn fun i => if hostPreserves i.val then old[i] else new[i]

/-- The host's writes to the data space, in order; one outside it has no byte to write, since the size stays
`DATA_SIZE` (R275). -/
def hostWrites (size : Nat) : List (Word × Byte) → Memory → Memory
  | [], m => m
  | (a, b) :: rest, m => hostWrites size rest (if a.toNat < size then m.writeByte a.toNat b else m)

/-- What a host function that has ended leaves: its registers and bytes within the laws of R275. Each answer is a draw of
its own (log entry 3). -/
def State.hostEffect (s : State) (r : HostReply) : State :=
  { s with regs := hostRegs s.regs r.regs, data := hostWrites s.image.dataSize r.writes s.data, draws := s.draws + 1 }

/-- The host's step of 40_system.md R103 for a reply `r` to `ecall n`: on return execution goes on at `pc + 1`; on a
stop the status is `Stopped(HostFault(n))` with the registers and bytes as the host left them and the pc at the `ecall`
(60_exceptions.md R269; log entry 7). A host that never returns leaves the very same state, so that the VM never
continues: an answered call is one step (70_reset_and_hazards.md R295), the other no end. -/
def State.applyReply (s : State) (n : Imm15) (r : HostReply) : State :=
  match r.outcome with
  | .returned => { (s.hostEffect r).advance with status := .running }
  | .stop => (s.hostEffect r).raise (.hostFault n)
  | .never => s

/-- The host's reply: the free value `Config.host`, or, in a model with no host, a stop that changes nothing
(60_exceptions.md R275). -/
def State.hostReply (s : State) (n : Imm15) : HostReply :=
  if s.params.noHost then { regs := s.regs, writes := [], outcome := .stop }
  else Config.host s.draws n s.regs s.data.cells

/-- `host_step` (60_exceptions.md R284). -/
def State.hostStep (s : State) (n : Imm15) : State := s.applyReply n (s.hostReply n)

/-! ## While the VM does not execute -/

/-- The statuses in which the host may act on its own: after `eret` and after a stop (20_memory.md R61, 60_exceptions.md
R263). Before start-up there is no status yet: `Loaded.setReg` and `Loaded.setByte` are its acts then. -/
def State.hostHasControl (s : State) : Bool :=
  match s.status with
  | .halted => true
  | .stopped _ => true
  | .running => false
  | .inHost _ => false

/-- The arguments of a host call in `a0`, `a1`, …: registers 4 on (46_abi.md R223, R227). -/
def State.passArgs (s : State) : Nat → List Word → State
  | _, [] => s
  | k, v :: rest => (s.setReg (BitVec.ofNat 5 (4 + k)) v).passArgs (k + 1) rest

/-- `host_call` (46_abi.md R227, 70_reset_and_hazards.md R293) of the symbol with index `sym`: at most eight arguments
in `a0` to `a7`, `ra` of the host's choosing, the pc at the symbol's offset, status `Running`. `none` where the host
has no control, the symbol does not exist or there are too many arguments. That the host names the function by its index
in `syms`, not by its name, is DESIGN CHOICE (91_not_in_source.md N12 leaves it open; log entry 41). -/
def State.hostCall (s : State) (sym : Nat) (args : List Word) (ra : Word) : Option State :=
  if s.hostHasControl && decide (args.length ≤ 8) then
    (s.image.syms[sym]?).map fun y =>
      { (((s.passArgs 0 args).setReg 1 ra).jump y.offset) with status := .running }
  else none

/-- The host's resumption after `break`, under `BREAK_RESUME` (40_system.md R101, 60_exceptions.md R263); no other stop can
be resumed, and none where the parameter says that the host does not resume. -/
def State.hostResume (s : State) : Option State :=
  if s.status = .stopped .breakpoint ∧ s.params.breakResume = true then some s.resumeBreak else none

/-- The host writes a register between runs (20_memory.md R61); register 0 stays 0. -/
def State.hostSetReg (s : State) (r : Reg) (v : Word) : Option State :=
  if s.hostHasControl then some (s.setReg r v) else none

/-- The host writes a byte of the data space between runs (20_memory.md R61); there is no byte outside it. -/
def State.hostSetByte (s : State) (a : Word) (b : Byte) : Option State :=
  if s.hostHasControl && decide (a.toNat < s.image.dataSize) then
    some { s with data := s.data.writeByte a.toNat b }
  else none

end Sys2Proof.Machine
end

