-- ==== Sys2Proof/Machine/Step.lean ====
section
/-! DEFINITION. One step of the machine (60_exceptions.md R284), and where it fetches its next instruction. -/

namespace Sys2Proof.Machine

/-- `step(s)` of R284: fetch, decode, execute, in the order of 60_exceptions.md R270. -/
def vmStep (s : State) : StepResult :=
  match s.fetch with
  | none => .next (s.raise (.fetchFault s.pc))
  | some w =>
    match decode w with
    | none => .next (s.raise (.invalidInstruction w))
    | some i => exec i s

/-- One step: the VM's in status `Running`, the host's in status `InHost(n)` (R284). After `eret` and after a stop there
is none (10_state.md R32), but for the resumption after `break` under `BREAK_RESUME` (40_system.md R101). -/
def step (s : State) : Host.Outcome State Fault Refusal :=
  match s.status with
  | .running => vmStep s
  | .inHost n => .next (s.hostStep n)
  | .halted => .fault .halted
  | .stopped e =>
    match s.hostResume with
    | some t => .next t
    | none => .fault (.stopped e)

/-- `s` with a table row's word where `step` fetches its next instruction: at index `pc` of the text, and the status
`Running`, without which nothing is fetched. It stands for the load of a program (log entry 1). -/
def State.withFetchWord (s : State) (nbits w : Nat) : State :=
  { s with
    status := .running
    image := { s.image with text := placeWord s.image.text s.pc.toNat (BitVec.ofNat 32 (w % 2 ^ nbits)) } }

end Sys2Proof.Machine
end

