-- ==== Sys2Proof/Machine/Loader.lean ====
section
/-! DEFINITION. The Plg file format, its validity, loading, the host's acts before start-up, and start-up (20_memory.md R52
to R55, R61, 70_reset_and_hazards.md R290, R291). -/

namespace Sys2Proof.Machine

/-- Why the loader refuses a file (20_memory.md R55, D27): no VM state comes into being. -/
inductive LoadError where
  /-- Shorter than the length R52 gives. -/
  | tooShort
  | badMagic
  | dataLenNotMultipleOf16
  | bssLenNotMultipleOf16
  /-- `data_len + bss_len > 2^32`. -/
  | dataSpaceTooLarge
  /-- `reset_vector = 0` and `text_count = 0`. -/
  | noWordZero
  | symbolOffsetZero
  /-- `reset_vector = 0` and `text[0]` is not `eret`. -/
  | wordZeroNotEret
  deriving DecidableEq, Repr

/-- A file, field by field (20_memory.md R52); `text_count` and `sym_count` are the lengths of `text` and `syms`.
Bytes after the end R52 gives are no part of it (log entry 29). -/
structure PlgFile where
  dataLen : Word
  bssLen : Word
  resetVector : Word
  userdata : List Byte
  syms : List Symbol
  data : List Byte
  text : List Word
  deriving DecidableEq, Repr

/-- The byte at a file offset. -/
def fileByte (bs : List Byte) (off : Nat) : Byte := bs[off]?.getD 0

/-- A `uint32` at a file offset, least significant byte first (20_memory.md R40). -/
def fileWord (bs : List Byte) (off : Nat) : Word :=
  fileByte bs (off + 3) ++ fileByte bs (off + 2) ++ fileByte bs (off + 1) ++ fileByte bs off

/-- `n` bytes from a file offset on. -/
def fileBytes (bs : List Byte) (off n : Nat) : List Byte := (List.range n).map fun i => fileByte bs (off + i)

/-- `n` words from a file offset on (20_memory.md R54). -/
def fileWords (bs : List Byte) (off n : Nat) : List Word := (List.range n).map fun i => fileWord bs (off + 4 * i)

/-- `n` symbols from a file offset on, 64 bytes each (20_memory.md R53). -/
def fileSyms (bs : List Byte) (off n : Nat) : List Symbol :=
  (List.range n).map fun i => { offset := fileWord bs (off + 64 * i), name := fileBytes bs (off + 64 * i + 4) 60 }

/-- `"Plg\x00"` (20_memory.md R52). -/
def magic : List Byte := [0x50, 0x6C, 0x67, 0x00]

/-- The length a header asks for (20_memory.md R52). -/
def fileLength (bs : List Byte) : Nat :=
  64 + 64 * (fileWord bs 16).toNat + (fileWord bs 4).toNat + 4 * (fileWord bs 12).toNat

/-- The fields of a file that is long enough (20_memory.md R52). -/
def fileFields (bs : List Byte) : PlgFile :=
  let dataLen := fileWord bs 4
  let nsyms := (fileWord bs 16).toNat
  let dataOff := 64 + 64 * nsyms
  { dataLen := dataLen
    bssLen := fileWord bs 8
    resetVector := fileWord bs 20
    userdata := fileBytes bs 24 40
    syms := fileSyms bs 64 nsyms
    data := fileBytes bs dataOff dataLen.toNat
    text := fileWords bs (dataOff + dataLen.toNat) (fileWord bs 12).toNat }

/-- The requirements of 20_memory.md R55 on the fields; which of several broken ones is named is the model's choice
(log entry 29). -/
def PlgFile.error (f : PlgFile) : Option LoadError :=
  if f.dataLen.toNat % 16 ≠ 0 then some .dataLenNotMultipleOf16
  else if f.bssLen.toNat % 16 ≠ 0 then some .bssLenNotMultipleOf16
  else if 2 ^ 32 < f.dataLen.toNat + f.bssLen.toNat then some .dataSpaceTooLarge
  else if f.syms.any fun y => y.offset == 0 then some .symbolOffsetZero
  else if f.resetVector ≠ 0 then none
  else match f.text with
    | [] => some .noWordZero
    | w :: _ => if w = encode .eret then none else some .wordZeroNotEret

/-- The loader (20_memory.md R54, R55): the file's fields, or the refusal. -/
def parseFile (bs : List Byte) : Except LoadError PlgFile :=
  if bs.length < 64 then .error .tooShort
  else if fileBytes bs 0 4 ≠ magic then .error .badMagic
  else if bs.length < fileLength bs then .error .tooShort
  else match (fileFields bs).error with
    | some e => .error e
    | none => .ok (fileFields bs)

/-- Bytes from address `a` on as a data space in canonical form. -/
def cellsOf : Nat → List Byte → List Host.Cell
  | _, [] => []
  | a, b :: rest => if b = Memory.unlisted then cellsOf (a + 1) rest else (a, b) :: cellsOf (a + 1) rest

/-- What loading fixes (20_memory.md R54). -/
def PlgFile.image (f : PlgFile) : Image where
  dataLen := f.dataLen
  bssLen := f.bssLen
  resetVector := f.resetVector
  syms := f.syms
  text := f.text

/-- A plugin after loading and before start-up (20_memory.md R61, 60_exceptions.md R273): both memories are there, and
registers that the host may choose, but the VM has neither a pc nor a run status until it is started. -/
structure Loaded where
  regs : Vector Word 32
  data : Memory
  image : Image
  params : Params
  deriving DecidableEq, Repr

/-- Loading (20_memory.md R54): the file's data from address 0 on and zero bytes after it, and the file's text.
`INIT_REGS` (the registers, `INIT_SP` among them) and the parameters are arguments; register 0 holds 0. -/
def PlgFile.load (f : PlgFile) (initRegs : Vector Word 32) (params : Params) : Loaded where
  regs := initRegs.set 0 0
  data := ⟨cellsOf 0 f.data⟩
  image := f.image
  params := params

/-- The host writes a register before start-up (20_memory.md R61); register 0 stays 0. -/
def Loaded.setReg (l : Loaded) (r : Reg) (v : Word) : Loaded :=
  if r = 0 then l else { l with regs := l.regs.set r.toFin v }

/-- The host writes a byte of the data space before start-up (20_memory.md R61); there is no byte outside it. -/
def Loaded.setByte (l : Loaded) (a : Word) (b : Byte) : Option Loaded :=
  if a.toNat < l.image.dataSize then some { l with data := l.data.writeByte a.toNat b } else none

/-- Start-up (70_reset_and_hazards.md R290): pc at `reset_vector`, status `Running`, the rest as loading and the host left
it. The draw counter, the model's own, is an argument. -/
def Loaded.start (l : Loaded) (draws : Nat) : State where
  regs := l.regs
  pc := l.image.resetVector
  data := l.data
  status := .running
  image := l.image
  params := l.params
  draws := draws

/-- Start-up right after loading, the host having written nothing in between (70_reset_and_hazards.md R290). -/
def PlgFile.startUp (f : PlgFile) (initRegs : Vector Word 32) (params : Params) (draws : Nat) : State :=
  (f.load initRegs params).start draws

end Sys2Proof.Machine
end

