-- ==== Sys2Proof/Safety.lean ====
section
/-! DEFINITION. The terms statements about the machine are written in: the run's ends and events (60_exceptions.md R273,
R284), the invariant of every step, what an instruction writes (10_state.md R35), and the shapes of its result. -/

namespace Sys2Proof.Machine

/-! ## Ends and events -/

/-- The normal end of a run (60_exceptions.md R276, R284). -/
def State.normalEnd (s : State) : Bool := s.status == .halted

/-- An end that is not normal: an exception or a breakpoint (60_exceptions.md R284). -/
def State.abnormalEnd (s : State) : Bool :=
  match s.status with
  | .stopped _ => true
  | _ => false

/-- The results a host reads after `eret`: `a0` to `a7` (60_exceptions.md R276, 46_abi.md R227). -/
def State.results (s : State) : List Word := (List.range 8).map fun k => s.getReg (BitVec.ofNat 5 (4 + k))

/-- One event of the observable trace (60_exceptions.md R273): the function number, `a0` to `a7` and the data space at
the call. -/
structure EcallEvent where
  number : Imm15
  args : List Word
  data : Memory
  deriving DecidableEq, Repr

/-- The event a state shows to the host: there is one exactly while an `ecall` is being served. -/
def State.ecallEvent (s : State) : Option EcallEvent :=
  match s.status with
  | .inHost n => some { number := n, args := s.results, data := s.data }
  | _ => none

/-- The instruction at the pc, if the fetch gives one (60_exceptions.md R284). -/
def State.current (s : State) : Option Instr := s.fetch.bind decode

/-- `run(s, fuel)` of 60_exceptions.md R284: at most `fuel` steps, while the VM is running or the host is serving a call.
A state in status `Running` or `InHost` at the end means that the fuel was exhausted, which is neither end. -/
def run : Nat → State → State
  | 0, s => s
  | fuel + 1, s =>
    match s.status with
    | .running | .inHost _ =>
      match step s with
      | .next t => run fuel t
      | _ => s
    | .halted | .stopped _ => s

/-- The `ecall` events of a run of at most `fuel` steps, in order (60_exceptions.md R273): one for each `ecall` the VM
executes, taken from the state it hands over, whatever the host then does. -/
def events : Nat → State → List EcallEvent
  | 0, _ => []
  | fuel + 1, s =>
    match s.status with
    | .running =>
      match step s with
      | .next t => t.ecallEvent.toList ++ events fuel t
      | _ => []
    | .inHost _ =>
      match step s with
      | .next t => events fuel t
      | _ => []
    | .halted | .stopped _ => []

/-- The observable trace of a run (60_exceptions.md R273): the sequence of `ecall` events and the final state. -/
structure Trace where
  events : List EcallEvent
  final : State
  deriving DecidableEq, Repr

/-- The trace of the run of at most `fuel` steps from `s`, which begins with status `Running` (60_exceptions.md R274). -/
def trace (fuel : Nat) (s : State) : Trace := { events := events fuel s, final := run fuel s }

/-! ## What an instruction reads and writes (10_state.md R35) -/

/-- The register an instruction's `rd` names as a destination: none for stores, branches and the System instructions. -/
def destOf : Instr → Option Reg
  | .lw rd _ _ | .lh rd _ _ | .lb rd _ _ | .lhu rd _ _ | .lbu rd _ _ => some rd
  | .addi rd _ _ | .subi rd _ _ | .andi rd _ _ | .xori rd _ _ | .ori rd _ _ => some rd
  | .slli rd _ _ | .srli rd _ _ | .srai rd _ _ | .muli rd _ _ | .divi rd _ _ | .remi rd _ _ => some rd
  | .icf rd _ | .fci rd _ | .roundf rd _ | .ceilf rd _ | .floorf rd _ => some rd
  | .add rd _ _ | .sub rd _ _ | .and rd _ _ | .xor rd _ _ | .or rd _ _ => some rd
  | .sll rd _ _ | .srl rd _ _ | .sra rd _ _ | .mul rd _ _ | .div rd _ _ | .rem rd _ _ => some rd
  | .addf rd _ _ | .subf rd _ _ | .mulf rd _ _ | .divf rd _ _ | .sqrtf rd _ => some rd
  | .jalr rd _ _ | .lui rd _ | .lif rd _ | .jal rd _ => some rd
  | .brk | .eret | .ecall _ => none
  | .sw .. | .sh .. | .sb .. => none
  | .beq .. | .bne .. | .blt .. | .bge .. | .bltu .. | .bgeu .. | .bltf .. | .bgef .. => none

/-- The base, offset and width of a memory instruction's access (41_memory_ops.md R110, 20_memory.md R46). -/
def accessOf : Instr → Option (Reg × Imm15 × Width)
  | .sw _ rs1 imm | .lw _ rs1 imm => some (rs1, imm, .word)
  | .sh _ rs1 imm | .lh _ rs1 imm | .lhu _ rs1 imm => some (rs1, imm, .short)
  | .sb _ rs1 imm | .lb _ rs1 imm | .lbu _ rs1 imm => some (rs1, imm, .byte)
  | _ => none

/-- The instructions that write the data space. -/
def isStore : Instr → Bool
  | .sw .. | .sh .. | .sb .. => true
  | _ => false

/-- The instructions that write the pc themselves (10_state.md R26). -/
def isJump : Instr → Bool
  | .jal .. | .jalr .. => true
  | .beq .. | .bne .. | .blt .. | .bge .. | .bltu .. | .bgeu .. | .bltf .. | .bgef .. => true
  | _ => false

/-! ## The invariant -/

/-- What a status says about the word at the pc: a stop or a hand-over names its own cause truly (40_system.md R101 to
R103, 60_exceptions.md R261, R264 to R269). -/
def State.statusHonest (s : State) : Bool :=
  match s.status with
  | .running => true
  | .halted => s.current == some .eret
  | .inHost n => s.current == some (.ecall n)
  | .stopped .breakpoint => s.current == some .brk
  | .stopped (.hostFault n) => s.current == some (.ecall n)
  | .stopped (.fetchFault a) => a == s.pc && s.fetch == none
  | .stopped (.invalidInstruction w) => s.fetch == some w && decode w == none
  | .stopped (.misalignedAccess a) =>
    !s.params.unalignedSupport &&
      (match s.current.bind accessOf with
        | some (_, _, n) => a.toNat % n.bytes != 0
        | none => false)
  | .stopped (.memoryFault a) =>
    match s.current.bind accessOf with
    | some (_, _, n) => decide (s.image.dataSize < a.toNat + n.bytes)
    | none => false
  | .stopped .divideByZero =>
    s.params.divZero == .fault &&
      (match s.current with
        | some (.div ..) => true
        | some (.rem ..) => true
        | _ => false)
  | .stopped .divideOverflow =>
    s.params.divOverflow == .fault &&
      (match s.current with
        | some (.div ..) => true
        | some (.rem ..) => true
        | some (.divi ..) => true
        | some (.remi ..) => true
        | _ => false)

/-- The invariant every step keeps: register 0 holds 0 (10_state.md R21); the data space is in canonical form and lies
inside DATA_SIZE (20_memory.md R48); the sizes are those of a loadable file (R55); the text has a `uint32` number of
words (10_state.md R27); the status is true of the word at the pc. -/
abbrev State.Inv (s : State) : Prop :=
  s.regs[0] = 0 ∧ s.data.wf = true ∧ (∀ c ∈ s.data.cells, c.1 < s.image.dataSize) ∧
    s.image.dataLen.toNat % 16 = 0 ∧ s.image.bssLen.toNat % 16 = 0 ∧ s.image.dataSize ≤ 2 ^ 32 ∧
    s.image.text.length < 2 ^ 32 ∧ s.statusHonest = true

/-- The same for a plugin that is loaded and not yet started (20_memory.md R61). -/
abbrev Loaded.Inv (l : Loaded) : Prop :=
  l.regs[0] = 0 ∧ l.data.wf = true ∧ (∀ c ∈ l.data.cells, c.1 < l.image.dataSize) ∧
    l.image.dataLen.toNat % 16 = 0 ∧ l.image.bssLen.toNat % 16 = 0 ∧ l.image.dataSize ≤ 2 ^ 32 ∧
    l.image.text.length < 2 ^ 32

/-! ## The shapes of a result -/

/-- `t` is `s` after an instruction that only wrote `v` to `x[rd]` and went on, having drawn `d` free values: register
`rd` holds `v` unless it is register 0; every other register, every byte of the data space, the status, the file and the
parameters are as before; the pc is the next word's (00_scope.md R14). -/
def WroteRegister (s t : State) (rd : Reg) (v : Word) (d : Nat) : Prop :=
  (∀ r, t.getReg r = if r = rd ∧ r ≠ 0 then v else s.getReg r) ∧ t.pc = s.pc + 1 ∧ t.data = s.data ∧
    t.status = s.status ∧ t.image = s.image ∧ t.params = s.params ∧ t.draws = s.draws + d

/-- The instruction answers a next state in which it has only written `v` to `x[rd]` and gone on. -/
def Completes (i : Instr) (s : State) (rd : Reg) (v : Word) : Prop :=
  ∃ t, exec i s = .next t ∧ WroteRegister s t rd v 0

/-- The same with a free value: some word is written, of which the property `p` is known. -/
def CompletesFree (i : Instr) (s : State) (rd : Reg) (p : Word → Prop) : Prop :=
  ∃ t v d, exec i s = .next t ∧ WroteRegister s t rd v d ∧ p v

/-- `t` is `s` after an instruction that only stored `bytes` from address `a` on and went on: those bytes, lowest address
first, read as stored; every other byte, every register, the status, the file and the parameters are as before. -/
def WroteBytes (s t : State) (a : Nat) (bytes : List Byte) : Prop :=
  (∀ k b, bytes[k]? = some b → t.data.readByte (a + k) = b) ∧
    (∀ x, x < a ∨ a + bytes.length ≤ x → t.data.readByte x = s.data.readByte x) ∧ t.data.wf = true ∧
    t.regs = s.regs ∧ t.pc = s.pc + 1 ∧ t.status = s.status ∧ t.image = s.image ∧ t.params = s.params ∧ t.draws = s.draws

/-- The instruction answers a next state in which `x[rd]` holds the next word's address (unless `rd` is 0), the pc is
`target`, and everything else is as before. -/
def Links (i : Instr) (s : State) (rd : Reg) (target : Word) : Prop :=
  ∃ t, exec i s = .next t ∧ (∀ r, t.getReg r = if r = rd ∧ r ≠ 0 then s.pc + 1 else s.getReg r) ∧ t.pc = target ∧
    t.data = s.data ∧ t.status = s.status ∧ t.image = s.image ∧ t.params = s.params ∧ t.draws = s.draws

/-- The instruction answers `s` with the pc alone changed: to `pc + imm`, the offset signed and the sum modulo 2^32,
where `c` holds, and to `pc + 1` where it does not (44_jalr_branches.md R190). -/
def BranchesWhen (i : Instr) (s : State) (imm : Imm15) (c : Prop) : Prop :=
  (c → exec i s = .next { s with pc := BitVec.ofInt 32 ((s.pc.toNat : Int) + imm.toInt) }) ∧
    (¬c → exec i s = .next { s with pc := BitVec.ofNat 32 (s.pc.toNat + 1) })

/-- The result of a shift by `n` (42_immediate_arithmetic.md R136), `f k` being the exact formula for amount `k`. -/
def ShiftResult (i : Instr) (s : State) (rd : Reg) (f : Nat → Word) (n : Nat) : Prop :=
  (n < 32 ∨ s.params.shiftPolicy = .mathematical → Completes i s rd (f n)) ∧
    (s.params.shiftPolicy = .mask5 → Completes i s rd (f (n % 32))) ∧
    (32 ≤ n → s.params.shiftPolicy = .unspecified → CompletesFree i s rd fun _ => True)

/-- `i` and `j` complete with the quotient and the remainder of one division of `a` by `b` (42_immediate_arithmetic.md
R141): the remainder is smaller than the divisor and has the dividend's sign, which fixes both. -/
def DivisionResult (i j : Instr) (s : State) (rd : Reg) (a b : Int) : Prop :=
  ∃ q r : Int, a = q * b + r ∧ |r| < |b| ∧ 0 ≤ r * a ∧
    Completes i s rd (BitVec.ofInt 32 q) ∧ Completes j s rd (BitVec.ofInt 32 r)

/-- `w` is the one word of instruction `i` (30_encoding.md R83). -/
abbrev IsWord (w : Word) (i : Instr) : Prop := encode i = w ∧ decode w = some i

/-- The words of 60_exceptions.md R261, by their numbers: `opc * 16 + opf` is the number modulo 128 (30_encoding.md R78),
`word[31:k]` the number divided by `2^k`. -/
abbrev IllegalWord (w : Word) : Prop :=
  let slot := w.toNat % 128
  -- cause 1: the three slots listed as "Reserved"
  (slot = 0x10 ∨ slot = 0x14 ∨ slot = 0x18) ∨
  -- cause 2: the slots of no table
  ((0x03 ≤ slot ∧ slot ≤ 0x0F) ∨ (0x1B ≤ slot ∧ slot ≤ 0x1F) ∨ (0x49 ≤ slot ∧ slot ≤ 0x4F) ∨ 0x53 ≤ slot) ∨
  -- cause 3: a field the instruction does not use is not zero (30_encoding.md R80)
  (((slot = 0x00 ∨ slot = 0x01) ∧ w.toNat / 2 ^ 7 ≠ 0) ∨ (slot = 0x02 ∧ w.toNat / 2 ^ 7 % 2 ^ 10 ≠ 0) ∨
    ((0x2B ≤ slot ∧ slot ≤ 0x2F) ∧ w.toNat / 2 ^ 17 ≠ 0) ∨ ((0x30 ≤ slot ∧ slot ≤ 0x3E) ∧ w.toNat / 2 ^ 22 ≠ 0) ∨
    (slot = 0x3F ∧ w.toNat / 2 ^ 17 ≠ 0)) ∨
  -- cause 4: `divi` or `remi` with immediate 0
  ((slot = 0x29 ∨ slot = 0x2A) ∧ w.toNat / 2 ^ 17 = 0)

/-- A NaN pattern by its fields: exponent 255, fraction not 0 (47_float_numerics.md R241). -/
abbrev NanWord (w : Word) : Prop := w.toNat / 2 ^ 23 % 256 = 255 ∧ w.toNat % 2 ^ 23 ≠ 0
/-- An infinity by its bits 30:0 (R241). -/
abbrev InfWord (w : Word) : Prop := w.toNat % 2 ^ 31 = 0x7F800000
/-- A zero by its bits 30:0 (R241). -/
abbrev ZeroWord (w : Word) : Prop := w.toNat % 2 ^ 31 = 0
/-- A finite pattern by its exponent (R241). -/
abbrev FiniteWord (w : Word) : Prop := w.toNat / 2 ^ 23 % 256 ≠ 255

/-- A NaN result (47_float_numerics.md R243): some NaN pattern, the canonical one where `NAN_RESULT` says so. -/
abbrev NanResultOf (s : State) (v : Word) : Prop := NanWord v ∧ (s.params.nanResult = .canonical → v = 0x7FC00000)

/-- The integer recipe for comparing patterns (47_float_numerics.md R246). -/
def orderKey (w : Word) : Int := if w.msb then -((w.toNat % 2 ^ 31 : Nat) : Int) else ((w.toNat % 2 ^ 31 : Nat) : Int)

/-- `w` is the float nearest to the positive number `num / den` units of 2^-149, with sign `neg`, ties to the even
pattern, infinity from `(2^24 - 1/2) * 2^104` on (47_float_numerics.md R242): no float of another magnitude `n` lies
nearer, which is said by comparing with the midpoint of the two magnitudes. -/
def NearestFloat (neg : Bool) (num den : Nat) (w : Word) : Prop :=
  (unpack w = .inf neg ∧ (2 ^ 25 - 1) * 2 ^ 252 * den ≤ num) ∨
  ∃ m, unpack w = .finite neg m ∧ num < (2 ^ 25 - 1) * 2 ^ 252 * den ∧
    ∀ f g n, unpack f = .finite g n →
      (n < m → (n + m) * den ≤ 2 * num) ∧ (m < n → 2 * num ≤ (n + m) * den) ∧
      (n ≠ m → (n + m) * den = 2 * num → w.getLsbD 0 = false)

/-- `w` is the float nearest to the square root of `m` units of 2^-149 (47_float_numerics.md R245), which is the square
root of `m * 2^149` in units: the same comparison with midpoints, on the squares. -/
def NearestSqrt (m : Nat) (w : Word) : Prop :=
  ∃ k, unpack w = .finite false k ∧
    ∀ f g n, unpack f = .finite g n →
      (n < k → (n + k) ^ 2 ≤ 4 * (m * 2 ^ 149)) ∧ (k < n → 4 * (m * 2 ^ 149) ≤ (n + k) ^ 2)

end Sys2Proof.Machine
end

