-- ==== Sys2Proof/Certificates/Slice0/Obligations.lean ====
section
/-! DEFINITION. The statements for the provers, from the numbered rules of spec/. -/

open Sys2Proof Sys2Proof.Machine

/-! ## Encoding -/

/-- 30_encoding.md R83: decoding the word of a legal instruction gives the instruction back, whatever its operands. -/
def Obligations.DecodeOfEncodeIsTheInstruction : Prop := ∀ i : Instr, i.wf = true → decode (encode i) = some i

/-- 30_encoding.md R83: a word that decodes is the one word of a legal instruction, so two words never decode alike. -/
def Obligations.EncodeOfDecodeIsTheWord : Prop := ∀ (w : Word) (i : Instr), decode w = some i → encode i = w ∧ i.wf = true

/-- 60_exceptions.md R261: the decoder refuses a word for one of the four causes and for no other. -/
def Obligations.DecoderRefusesExactlyTheIllegalWords : Prop := ∀ w : Word, decode w = none ↔ IllegalWord w

/-- 30_encoding.md R82: one word is `break`, one is `eret`, the words of `ecall` are those with its low 17 bits, and the
all-ones word is no instruction. -/
def Obligations.SpecialWords : Prop :=
  (∀ w : Word, decode w = some .brk ↔ w = 0) ∧ (∀ w : Word, decode w = some .eret ↔ w = 1) ∧
    (∀ (w : Word) (n : Imm15), decode w = some (.ecall n) ↔ w = n ++ 0x00002#17) ∧ decode 0xFFFFFFFF = none

/-- Words of the spec's own examples decode to the instructions they stand for (95_test_vectors.md, 41_memory_ops.md
R112, 44_jalr_branches.md R192, 45_ri.md R212). -/
def Obligations.ExampleWordsDecode : Prop :=
  decode 0x000A0002 = some (.ecall 5) ∧ decode 0x00102611 = some (.sw 12 2 8) ∧
    decode 0xFFFE5223 = some (.xori 4 5 0x7FFF) ∧ decode 0x000C5230 = some (.add 4 5 6) ∧
    decode 0xFFFC42C1 = some (.beq 4 5 0x7FFE) ∧ decode 0x80000251 = some (.lif 4 0x80000)

/-! ## One step -/

/-- 60_exceptions.md R284: where the word at the pc decodes to `i`, a step of the running VM is `i` executed. -/
def Obligations.StepExecutesTheDecodedInstruction : Prop :=
  ∀ (s : State) (w : Word) (i : Instr), s.status = .running → s.image.text[s.pc.toNat]? = some w → decode w = some i →
    step s = exec i s

/-- 60_exceptions.md R265, 20_memory.md R49: a running VM whose pc is not below `text_count` raises `FetchFault(pc)`,
changing nothing but the status. -/
def Obligations.FetchOutsideTheTextStops : Prop :=
  ∀ s : State, s.status = .running → s.image.text.length ≤ s.pc.toNat →
    step s = .next { s with status := .stopped (.fetchFault s.pc) }

/-- 30_encoding.md R79, R80, R81: an illegal word is executed as `InvalidInstruction(word)`, changing nothing but the
status. -/
def Obligations.IllegalWordStops : Prop :=
  ∀ (s : State) (w : Word), s.status = .running → s.image.text[s.pc.toNat]? = some w → IllegalWord w →
    step s = .next { s with status := .stopped (.invalidInstruction w) }

/-- 60_exceptions.md R284, R262: a step of a running VM always answers a next state: it never faults, never refuses. -/
def Obligations.RunningMachineAlwaysSteps : Prop := ∀ s : State, s.status = .running → ∃ t, step s = .next t

/-- 10_state.md R32: after `eret` and after a stop that is not resumed the machine takes no step (which the model says by
a named fault, log entry 27). -/
def Obligations.EndedRunTakesNoStep : Prop :=
  (∀ s : State, s.status = .halted → step s = .fault .halted) ∧
    ∀ (s : State) (e : Exc), s.status = .stopped e → (e ≠ .breakpoint ∨ s.params.breakResume = false) →
      step s = .fault (.stopped e)

/-- 40_system.md R101, 60_exceptions.md R263: only a breakpoint can be resumed, and only under `BREAK_RESUME`: at `pc + 1`,
nothing else changed; the step then does so (that the step does it at once is the model's choice, log entry 26). -/
def Obligations.BreakpointIsTheOneResumableStop : Prop :=
  (∀ s : State, s.status = .stopped .breakpoint → s.params.breakResume = true →
    s.hostResume = some { s with pc := BitVec.ofNat 32 (s.pc.toNat + 1), status := .running } ∧
      step s = .next { s with pc := BitVec.ofNat 32 (s.pc.toNat + 1), status := .running }) ∧
    ∀ s : State, s.status ≠ .stopped .breakpoint ∨ s.params.breakResume = false → s.hostResume = none

/-- The model's own (log entries 1, 31): a word placed for the fetch is what the very next step executes. Nothing but the
status and the text has changed; the status is `Running`, and the text has the word at the pc, zero words before it where
it was too short to reach the pc, and is otherwise as before. -/
def Obligations.PlacedWordIsExecutedNext : Prop :=
  ∀ (s : State) (w : Word) (i : Instr), decode w = some i →
    ∃ text : List Word,
      s.withFetchWord 32 w.toNat = { s with status := .running, image := { s.image with text := text } } ∧
      step (s.withFetchWord 32 w.toNat) = exec i (s.withFetchWord 32 w.toNat) ∧
      text.length = max s.image.text.length (s.pc.toNat + 1) ∧ text[s.pc.toNat]? = some w ∧
      (∀ k < s.image.text.length, k ≠ s.pc.toNat → text[k]? = s.image.text[k]?) ∧
      ∀ k, s.image.text.length ≤ k → k < s.pc.toNat → text[k]? = some 0

/-! ## The machine as a whole -/

/-- The invariant (register 0 holds 0, the data space canonical and inside DATA_SIZE, the sizes those of a loadable file,
the status true of the word at the pc) is kept by every step, the host's included (10_state.md R21, 20_memory.md R48, R55,
R59, 60_exceptions.md R262, R269). -/
def Obligations.StepKeepsInvariant : Prop := ∀ s t : State, s.Inv → step s = .next t → t.Inv

/-- 10_state.md R34: the state after reset satisfies the invariant. Which state that is rests on choices of the model: no
file loaded (log entry 1), registers 1 to 31 zero (log entry 2). -/
def Obligations.ResetSatisfiesInvariant : Prop := State.reset.Inv

/-- A loaded file satisfies the invariant of a plugin before start-up, whatever the host put into the registers; the
host's writes keep it; and a started one satisfies the machine's (20_memory.md R54, R55, R61, 70_reset_and_hazards.md
R290). -/
def Obligations.StartedFileSatisfiesInvariant : Prop :=
  (∀ (bs : List Byte) (f : PlgFile) (x : Vector Word 32) (p : Params) (d : Nat), parseFile bs = .ok f →
    (f.load x p).Inv ∧ (f.startUp x p d).Inv) ∧
  ∀ l : Loaded, l.Inv → (∀ r v, (l.setReg r v).Inv) ∧ (∀ a b m, l.setByte a b = some m → m.Inv) ∧ ∀ d, (l.start d).Inv

/-- What the host may do between runs keeps the invariant (20_memory.md R61, 46_abi.md R227, 60_exceptions.md R263). -/
def Obligations.HostActionsKeepInvariant : Prop :=
  ∀ s t : State, s.Inv →
    (∃ k args ra, s.hostCall k args ra = some t) ∨ s.hostResume = some t ∨ (∃ r v, s.hostSetReg r v = some t) ∨
      (∃ a b, s.hostSetByte a b = some t) → t.Inv

/-- 20_memory.md R59, 10_state.md R20, R29, R30: no step changes the text or the rest of the loaded file, nor the parameters
of 00_scope.md R8, which are held in State by the model's choice (log entry 8). -/
def Obligations.LoadedFileNeverChanges : Prop :=
  ∀ s t : State, step s = .next t → t.image = s.image ∧ t.params = s.params

/-- 60_exceptions.md R276: a step that ends a run normally executed the word `eret`, and changed nothing but the
status. -/
def Obligations.OnlyEretEndsARunNormally : Prop :=
  ∀ s t : State, step s = .next t → t.status = .halted →
    s.status = .running ∧ s.image.text[s.pc.toNat]? = some 0x00000001 ∧ t = { s with status := .halted }

/-- 60_exceptions.md R262: a VM step that takes an exception changes nothing but the status: registers, data and pc are
those before the faulting instruction. -/
def Obligations.ExceptionsArePrecise : Prop :=
  ∀ (s t : State) (e : Exc), s.status = .running → step s = .next t → t.status = .stopped e →
    t = { s with status := .stopped e }

/-- 40_system.md R103: the VM hands over to the host only by the word of an `ecall`, whose number the status holds. -/
def Obligations.OnlyEcallCallsTheHost : Prop :=
  ∀ (s t : State) (n : Imm15), s.status = .running → step s = .next t → t.status = .inHost n →
    s.image.text[s.pc.toNat]? = some (n ++ 0x00002#17) ∧ t = { s with status := .inHost n }

/-- 10_state.md R35, R22: an instruction changes no register but the one its `rd` names as a destination (a store, a
branch and a System instruction name none), and register 0 reads 0 after every instruction. -/
def Obligations.RegisterFrameOfEveryInstruction : Prop :=
  ∀ (i : Instr) (s t : State), exec i s = .next t →
    (∀ r, destOf i ≠ some r → t.getReg r = s.getReg r) ∧ t.getReg 0 = 0

/-- 10_state.md R35, 20_memory.md R45, R47: an instruction that is no store changes no byte of the data space; a store
changes no byte outside those at its effective address. -/
def Obligations.MemoryFrameOfEveryInstruction : Prop :=
  ∀ (i : Instr) (s t : State), exec i s = .next t →
    (isStore i = false → t.data = s.data) ∧
      ∀ rs1 imm n, accessOf i = some (rs1, imm, n) →
        ∀ x, x < (s.effAddr rs1 imm).toNat ∨ (s.effAddr rs1 imm).toNat + n.bytes ≤ x →
          t.data.readByte x = s.data.readByte x

/-- 10_state.md R26: how an instruction other than a jump or branch leaves the pc: at the next word while the VM keeps
running, where it was when the instruction stopped it, halted it or called the host. -/
def Obligations.PcOfEveryOtherInstruction : Prop :=
  ∀ (i : Instr) (s t : State), s.status = .running → exec i s = .next t → isJump i = false →
    (t.status = .running → t.pc = BitVec.ofNat 32 (s.pc.toNat + 1)) ∧ (t.status ≠ .running → t.pc = s.pc)

/-- 10_state.md R30: no instruction obtains the bits of an instruction word: with another text in place the instruction
does the same to everything else. Both runs draw the same free values, which is the model's choice (log entry 3). -/
def Obligations.InstructionWordsAreNotData : Prop :=
  ∀ (i : Instr) (s t : State) (text : List Word), exec i s = .next t →
    exec i { s with image := { s.image with text := text } } = .next { t with image := { t.image with text := text } }

/-! ## System instructions -/

/-- 40_system.md R101, R102 and the first line of R103: `break` and `eret` change the status alone, and so does `ecall n`
until the host acts. Each is one word, or one word for each `n` (R100). -/
def Obligations.SystemInstructions : Prop :=
  ∀ (s : State) (n : Imm15),
    (IsWord 0x00000000 .brk ∧ exec .brk s = .next { s with status := .stopped .breakpoint }) ∧
      (IsWord 0x00000001 .eret ∧ exec .eret s = .next { s with status := .halted }) ∧
      (IsWord (n ++ 0x00002#17) (.ecall n) ∧ exec (.ecall n) s = .next { s with status := .inHost n })

/-- 60_exceptions.md R275, 40_system.md R103, 46_abi.md R228: while the host serves `ecall n`, a step keeps register 0,
`sp`, `fp`, `s0` to `s9`, the file and the size of the data space, and either returns to `pc + 1`, or stops with
`HostFault(n)` at the `ecall`, or never continues, the state the very same (log entries 3, 6, 7). An answered call is one
step (70_reset_and_hazards.md R295). -/
def Obligations.HostStepObeysTheCallLaws : Prop :=
  ∀ (s : State) (n : Imm15), s.status = .inHost n → ∃ t, step s = .next t ∧
    (∀ r : Reg, r = 0 ∨ r = 2 ∨ r = 3 ∨ 22 ≤ r.toNat → t.getReg r = s.getReg r) ∧ t.image = s.image ∧
    t.params = s.params ∧
    ((∀ c ∈ s.data.cells, c.1 < s.image.dataSize) → ∀ c ∈ t.data.cells, c.1 < s.image.dataSize) ∧
    ((t.status = .running ∧ t.pc = BitVec.ofNat 32 (s.pc.toNat + 1)) ∨
      (t.status = .stopped (.hostFault n) ∧ t.pc = s.pc) ∨ t = s) ∧
    (s.params.noHost = true →
      t = { s with status := .stopped (.hostFault n), draws := s.draws + 1 })

/-- 60_exceptions.md R275: nothing else is assumed of the host: it can return with any values in the registers it may
change and any byte at every address of the data space. -/
def Obligations.HostMayLeaveAnythingElse : Prop :=
  ∀ (s : State) (n : Imm15) (x : Vector Word 32) (f : Nat → Byte), s.data.wf = true → s.image.dataSize ≤ 2 ^ 32 →
    ∃ r : HostReply, (s.applyReply n r).status = .running ∧
      (∀ q : Reg, q.toNat = 1 ∨ (4 ≤ q.toNat ∧ q.toNat < 22) → (s.applyReply n r).getReg q = x[q.toFin]) ∧
      ∀ a < s.image.dataSize, (s.applyReply n r).data.readByte a = f a

/-- 46_abi.md R227, 70_reset_and_hazards.md R293, 60_exceptions.md R263: a host call after `eret` or, by R263 (b), after a
stop (an operation beside the step, log entry 28), of a symbol named by its index (log entry 41), passes up to eight
arguments from `a0` on, gives `ra` and the pc, starts the VM, and leaves every other register, the data space and the file
as the previous run left them. -/
def Obligations.HostCallEntersTheSymbol : Prop :=
  ∀ (s : State) (k : Nat) (y : Symbol) (args : List Word) (ra : Word), s.hostHasControl = true →
    s.image.syms[k]? = some y → args.length ≤ 8 → ∃ t, s.hostCall k args ra = some t ∧ t.pc = y.offset ∧
      t.status = .running ∧ t.getReg 1 = ra ∧ (∀ j v, args[j]? = some v → t.getReg (BitVec.ofNat 5 (4 + j)) = v) ∧
      (∀ r : Reg, r ≠ 1 → r.toNat < 4 ∨ 4 + args.length ≤ r.toNat → t.getReg r = s.getReg r) ∧
      t.data = s.data ∧ t.image = s.image ∧ t.params = s.params ∧ t.draws = s.draws

/-! ## Memory instructions -/

/-- 41_memory_ops.md R110: the effective address: the base plus the zero-extended offset modulo 2^32 under the default;
with a sign-extended offset the same whenever bit 14 of the offset is 0, and 2^15 less otherwise. -/
def Obligations.EffectiveAddress : Prop :=
  ∀ (s : State) (rs1 : Reg) (imm : Imm15),
    (s.params.memImmExt = .zext → s.effAddr rs1 imm = BitVec.ofNat 32 ((s.getReg rs1).toNat + imm.toNat)) ∧
      (s.params.memImmExt = .sext → imm.toNat < 2 ^ 14 →
        s.effAddr rs1 imm = BitVec.ofNat 32 ((s.getReg rs1).toNat + imm.toNat)) ∧
      (s.params.memImmExt = .sext → 2 ^ 14 ≤ imm.toNat →
        s.effAddr rs1 imm = BitVec.ofInt 32 ((s.getReg rs1).toNat + imm.toNat - 2 ^ 15))

/-- 41_memory_ops.md R112, R113, R114: `sw`, `sh` and `sb` store the low four, two or one bytes of `x[rd]`, least
significant first, where the access is aligned (or unaligned accesses are supported) and wholly inside the data space; no
other byte and no register changes. -/
def Obligations.Stores : Prop :=
  ∀ (s : State) (rd rs1 : Reg) (imm : Imm15),
    let a := (s.effAddr rs1 imm).toNat
    let b := fun k => (s.getReg rd).extractLsb' (8 * k) 8
    IsWord (imm ++ rs1 ++ rd ++ 0x11#7) (.sw rd rs1 imm) ∧ IsWord (imm ++ rs1 ++ rd ++ 0x12#7) (.sh rd rs1 imm) ∧
    IsWord (imm ++ rs1 ++ rd ++ 0x13#7) (.sb rd rs1 imm) ∧
    (s.data.wf = true →
      (a % 4 = 0 ∨ s.params.unalignedSupport = true → a + 4 ≤ s.image.dataSize →
        ∃ t, exec (.sw rd rs1 imm) s = .next t ∧ WroteBytes s t a [b 0, b 1, b 2, b 3]) ∧
      (a % 2 = 0 ∨ s.params.unalignedSupport = true → a + 2 ≤ s.image.dataSize →
        ∃ t, exec (.sh rd rs1 imm) s = .next t ∧ WroteBytes s t a [b 0, b 1]) ∧
      (a + 1 ≤ s.image.dataSize → ∃ t, exec (.sb rd rs1 imm) s = .next t ∧ WroteBytes s t a [b 0]))

/-- 41_memory_ops.md R115 to R119: the loads write the bytes at the effective address, least significant first, extended
as each says, where the access is aligned (or unaligned accesses are supported; a byte always is) and wholly inside the
data space; nothing else changes. -/
def Obligations.Loads : Prop :=
  ∀ (s : State) (rd rs1 : Reg) (imm : Imm15),
    let a := (s.effAddr rs1 imm).toNat
    let b := fun k => s.data.readByte (a + k)
    (IsWord (imm ++ rs1 ++ rd ++ 0x15#7) (.lw rd rs1 imm) ∧ IsWord (imm ++ rs1 ++ rd ++ 0x16#7) (.lh rd rs1 imm) ∧
      IsWord (imm ++ rs1 ++ rd ++ 0x17#7) (.lb rd rs1 imm) ∧ IsWord (imm ++ rs1 ++ rd ++ 0x19#7) (.lhu rd rs1 imm) ∧
      IsWord (imm ++ rs1 ++ rd ++ 0x1A#7) (.lbu rd rs1 imm)) ∧
    (a % 4 = 0 ∨ s.params.unalignedSupport = true → a + 4 ≤ s.image.dataSize →
      Completes (.lw rd rs1 imm) s rd (b 3 ++ b 2 ++ b 1 ++ b 0)) ∧
    (a % 2 = 0 ∨ s.params.unalignedSupport = true → a + 2 ≤ s.image.dataSize →
      Completes (.lh rd rs1 imm) s rd ((b 1 ++ b 0).signExtend 32) ∧
      Completes (.lhu rd rs1 imm) s rd (0#16 ++ b 1 ++ b 0)) ∧
    (a + 1 ≤ s.image.dataSize →
      Completes (.lb rd rs1 imm) s rd ((b 0).signExtend 32) ∧ Completes (.lbu rd rs1 imm) s rd (0#24 ++ b 0))

/-- 60_exceptions.md R266, R267, R270: a memory instruction whose access is misaligned (and unaligned accesses are not
supported) raises `MisalignedAccess(EA)`; otherwise one not wholly inside the data space raises `MemoryFault(EA)`; each
changes nothing but the status. -/
def Obligations.BadAccessStops : Prop :=
  ∀ (s : State) (rd rs1 : Reg) (imm : Imm15),
    ∀ p ∈ [(Instr.sw rd rs1 imm, 4), (.sh rd rs1 imm, 2), (.sb rd rs1 imm, 1), (.lw rd rs1 imm, 4),
      (.lh rd rs1 imm, 2), (.lb rd rs1 imm, 1), (.lhu rd rs1 imm, 2), (.lbu rd rs1 imm, 1)],
      ((s.effAddr rs1 imm).toNat % p.2 ≠ 0 → s.params.unalignedSupport = false →
        exec p.1 s = .next { s with status := .stopped (.misalignedAccess (s.effAddr rs1 imm)) }) ∧
      ((s.effAddr rs1 imm).toNat % p.2 = 0 ∨ s.params.unalignedSupport = true →
        s.image.dataSize < (s.effAddr rs1 imm).toNat + p.2 →
        exec p.1 s = .next { s with status := .stopped (.memoryFault (s.effAddr rs1 imm)) })

/-- 20_memory.md R41: after a 32-bit store of `v` at `a` the bytes and shorts there are those of `v`, least significant
first; and four stored bytes read as one word. -/
def Obligations.MixedWidthAccess : Prop :=
  (∀ (m : Memory) (a : Nat) (v : Word), m.wf = true →
    let t := m.writeLE a 4 v.toNat
    t.readByte a = v.extractLsb' 0 8 ∧ t.readByte (a + 1) = v.extractLsb' 8 8 ∧
      t.readByte (a + 2) = v.extractLsb' 16 8 ∧ t.readByte (a + 3) = v.extractLsb' 24 8 ∧
      t.readLE a 2 = (v.extractLsb' 0 16).toNat ∧ t.readLE (a + 2) 2 = (v.extractLsb' 16 16).toNat) ∧
    ∀ (m : Memory) (a : Nat) (b0 b1 b2 b3 : Byte), m.wf = true →
      ((((m.writeByte a b0).writeByte (a + 1) b1).writeByte (a + 2) b2).writeByte (a + 3) b3).readLE a 4 =
        (b3 ++ b2 ++ b1 ++ b0).toNat

/-! ## Integer instructions -/

/-- 42_immediate_arithmetic.md R131, R132, 43_register_arithmetic.md R161, R162: `add`, `sub`, `addi` and `subi` add and
subtract modulo 2^32, the immediate zero-extended. -/
def Obligations.AddAndSubtract : Prop :=
  ∀ (s : State) (rd rs1 rs2 : Reg) (imm : Imm15),
    (IsWord (0#10 ++ rs2 ++ rs1 ++ rd ++ 0x30#7) (.add rd rs1 rs2) ∧
      Completes (.add rd rs1 rs2) s rd (BitVec.ofNat 32 ((s.getReg rs1).toNat + (s.getReg rs2).toNat))) ∧
    (IsWord (0#10 ++ rs2 ++ rs1 ++ rd ++ 0x31#7) (.sub rd rs1 rs2) ∧
      Completes (.sub rd rs1 rs2) s rd (BitVec.ofInt 32 ((s.getReg rs1).toNat - (s.getReg rs2).toNat))) ∧
    (IsWord (imm ++ rs1 ++ rd ++ 0x20#7) (.addi rd rs1 imm) ∧
      Completes (.addi rd rs1 imm) s rd (BitVec.ofNat 32 ((s.getReg rs1).toNat + imm.toNat))) ∧
    (IsWord (imm ++ rs1 ++ rd ++ 0x21#7) (.subi rd rs1 imm) ∧
      Completes (.subi rd rs1 imm) s rd (BitVec.ofInt 32 ((s.getReg rs1).toNat - imm.toNat)))

/-- 42_immediate_arithmetic.md R133 to R135, 43_register_arithmetic.md R163 to R165: `and`, `xor` and `or` combine two
registers bit by bit; `andi`, `xori` and `ori` a register and the sign-extended immediate, whose bits from 14 on are
bit 14. -/
def Obligations.BitwiseLogic : Prop :=
  ∀ (s : State) (rd rs1 rs2 : Reg) (imm : Imm15),
    (IsWord (0#10 ++ rs2 ++ rs1 ++ rd ++ 0x32#7) (.and rd rs1 rs2) ∧
      IsWord (0#10 ++ rs2 ++ rs1 ++ rd ++ 0x33#7) (.xor rd rs1 rs2) ∧
      IsWord (0#10 ++ rs2 ++ rs1 ++ rd ++ 0x34#7) (.or rd rs1 rs2) ∧
      IsWord (imm ++ rs1 ++ rd ++ 0x22#7) (.andi rd rs1 imm) ∧
      IsWord (imm ++ rs1 ++ rd ++ 0x23#7) (.xori rd rs1 imm) ∧
      IsWord (imm ++ rs1 ++ rd ++ 0x24#7) (.ori rd rs1 imm)) ∧
    ∀ p ∈ [(Instr.and rd rs1 rs2, Instr.xor rd rs1 rs2, Instr.or rd rs1 rs2, fun k => (s.getReg rs2).getLsbD k),
      (.andi rd rs1 imm, .xori rd rs1 imm, .ori rd rs1 imm, fun k => imm.getLsbD (min k 14))],
      ∃ a x o : Word, (Completes p.1 s rd a ∧ Completes p.2.1 s rd x ∧ Completes p.2.2.1 s rd o) ∧
        ∀ k < 32, a.getLsbD k = ((s.getReg rs1).getLsbD k && p.2.2.2 k) ∧
          x.getLsbD k = ((s.getReg rs1).getLsbD k ^^ p.2.2.2 k) ∧
          o.getLsbD k = ((s.getReg rs1).getLsbD k || p.2.2.2 k)

/-- 42_immediate_arithmetic.md R136 to R139, 43_register_arithmetic.md R166 to R168: the six shifts under every
`SHIFT_POLICY`, by the exact formulas; the amount is the unsigned immediate or the whole second register. -/
def Obligations.Shifts : Prop :=
  ∀ (s : State) (rd rs1 rs2 : Reg) (imm : Imm15),
    let left := fun n => BitVec.ofNat 32 ((s.getReg rs1).toNat * 2 ^ n)
    let right := fun n => BitVec.ofNat 32 ((s.getReg rs1).toNat / 2 ^ n)
    let arith := fun n => BitVec.ofInt 32 ((s.getReg rs1).toInt / 2 ^ n)
    (IsWord (imm ++ rs1 ++ rd ++ 0x25#7) (.slli rd rs1 imm) ∧ ShiftResult (.slli rd rs1 imm) s rd left imm.toNat) ∧
    (IsWord (imm ++ rs1 ++ rd ++ 0x26#7) (.srli rd rs1 imm) ∧ ShiftResult (.srli rd rs1 imm) s rd right imm.toNat) ∧
    (IsWord (imm ++ rs1 ++ rd ++ 0x27#7) (.srai rd rs1 imm) ∧ ShiftResult (.srai rd rs1 imm) s rd arith imm.toNat) ∧
    (IsWord (0#10 ++ rs2 ++ rs1 ++ rd ++ 0x35#7) (.sll rd rs1 rs2) ∧
      ShiftResult (.sll rd rs1 rs2) s rd left (s.getReg rs2).toNat) ∧
    (IsWord (0#10 ++ rs2 ++ rs1 ++ rd ++ 0x36#7) (.srl rd rs1 rs2) ∧
      ShiftResult (.srl rd rs1 rs2) s rd right (s.getReg rs2).toNat) ∧
    (IsWord (0#10 ++ rs2 ++ rs1 ++ rd ++ 0x37#7) (.sra rd rs1 rs2) ∧
      ShiftResult (.sra rd rs1 rs2) s rd arith (s.getReg rs2).toNat)

/-- 42_immediate_arithmetic.md R140, 43_register_arithmetic.md R169: `muli` and `mul` write the low 32 bits of the exact
product, whether the operands are read as signed or as unsigned. -/
def Obligations.Multiply : Prop :=
  ∀ (s : State) (rd rs1 rs2 : Reg) (imm : Imm15),
    (IsWord (imm ++ rs1 ++ rd ++ 0x28#7) (.muli rd rs1 imm) ∧
      Completes (.muli rd rs1 imm) s rd (BitVec.ofInt 32 ((s.getReg rs1).toInt * imm.toInt)) ∧
      Completes (.muli rd rs1 imm) s rd (BitVec.ofInt 32 ((s.getReg rs1).toNat * imm.toInt))) ∧
    (IsWord (0#10 ++ rs2 ++ rs1 ++ rd ++ 0x38#7) (.mul rd rs1 rs2) ∧
      Completes (.mul rd rs1 rs2) s rd (BitVec.ofNat 32 ((s.getReg rs1).toNat * (s.getReg rs2).toNat)) ∧
      Completes (.mul rd rs1 rs2) s rd (BitVec.ofInt 32 ((s.getReg rs1).toInt * (s.getReg rs2).toInt)))

/-- 42_immediate_arithmetic.md R141, R143, R144: `divi` and `remi` by an immediate that is not 0 write the quotient
rounded toward zero and its remainder, both modulo 2^32 (-2^31 by -1 included where `DIV_OVERFLOW` is wrap). -/
def Obligations.DivideImmediate : Prop :=
  ∀ (s : State) (rd rs1 : Reg) (imm : Imm15), imm ≠ 0 →
    (IsWord (imm ++ rs1 ++ rd ++ 0x29#7) (.divi rd rs1 imm) ∧ IsWord (imm ++ rs1 ++ rd ++ 0x2A#7) (.remi rd rs1 imm)) ∧
    (s.params.divOverflow = .wrap ∨ ¬((s.getReg rs1).toInt = -2 ^ 31 ∧ imm.toInt = -1) →
      DivisionResult (.divi rd rs1 imm) (.remi rd rs1 imm) s rd (s.getReg rs1).toInt imm.toInt)

/-- 43_register_arithmetic.md R171, R172, 42_immediate_arithmetic.md R141: `div` and `rem` by a register that is not 0 write
the quotient rounded toward zero and its remainder, both modulo 2^32 (-2^31 by -1 included where `DIV_OVERFLOW` is wrap). -/
def Obligations.DivideRegister : Prop :=
  ∀ (s : State) (rd rs1 rs2 : Reg),
    (IsWord (0#10 ++ rs2 ++ rs1 ++ rd ++ 0x39#7) (.div rd rs1 rs2) ∧
      IsWord (0#10 ++ rs2 ++ rs1 ++ rd ++ 0x3A#7) (.rem rd rs1 rs2)) ∧
    (s.getReg rs2 ≠ 0 →
      (s.params.divOverflow = .wrap ∨ ¬((s.getReg rs1).toInt = -2 ^ 31 ∧ (s.getReg rs2).toInt = -1)) →
      DivisionResult (.div rd rs1 rs2) (.rem rd rs1 rs2) s rd (s.getReg rs1).toInt (s.getReg rs2).toInt)

/-- 43_register_arithmetic.md R170, 60_exceptions.md R268: `div` and `rem` by 0 raise `DivideByZero`, whatever the other
operands, with nothing written; under `DIV_ZERO = unspecified` they write some value and go on. -/
def Obligations.DivideByZero : Prop :=
  ∀ (s : State) (rd rs1 rs2 : Reg), s.getReg rs2 = 0 → ∀ i ∈ [Instr.div rd rs1 rs2, .rem rd rs1 rs2],
    (s.params.divZero = .fault → exec i s = .next { s with status := .stopped .divideByZero }) ∧
      (s.params.divZero = .unspecified → CompletesFree i s rd fun _ => True)

/-- 42_immediate_arithmetic.md R141, D9: -2^31 by -1 where `DIV_OVERFLOW` is not wrap: some value under `unspecified`; an
exception under `fault`, whose name `divideOverflow` is the model's choice (log entry 14). -/
def Obligations.DivideOverflow : Prop :=
  ∀ (s : State) (rd rs1 rs2 : Reg), (s.getReg rs1).toInt = -2 ^ 31 →
    ∀ i : Instr, ((i = .div rd rs1 rs2 ∨ i = .rem rd rs1 rs2) ∧ (s.getReg rs2).toInt = -1) ∨
      i = .divi rd rs1 (-1) ∨ i = .remi rd rs1 (-1) →
      (s.params.divOverflow = .fault → exec i s = .next { s with status := .stopped .divideOverflow }) ∧
        (s.params.divOverflow = .unspecified → CompletesFree i s rd fun _ => True)

/-- 45_ri.md R211: `lui` writes the immediate times 2^12. -/
def Obligations.LoadUpperImmediate : Prop :=
  ∀ (s : State) (rd : Reg) (imm : Imm20), IsWord (imm ++ rd ++ 0x50#7) (.lui rd imm) ∧
    Completes (.lui rd imm) s rd (BitVec.ofNat 32 (imm.toNat * 2 ^ 12))

/-! ## Jumps and branches -/

/-- 45_ri.md R213, 44_jalr_branches.md R191: `jal` goes to an absolute word address, `jalr` to the old `x[rs1]` plus the
zero-extended immediate modulo 2^32, also where `rd` is `rs1`; both leave `pc + 1` in `x[rd]`. -/
def Obligations.JumpAndLink : Prop :=
  (∀ (s : State) (rd : Reg) (imm : Imm20), IsWord (imm ++ rd ++ 0x52#7) (.jal rd imm) ∧
    Links (.jal rd imm) s rd (BitVec.ofNat 32 imm.toNat)) ∧
  ∀ (s : State) (rd rs1 : Reg) (imm : Imm15), IsWord (imm ++ rs1 ++ rd ++ 0x40#7) (.jalr rd rs1 imm) ∧
    Links (.jalr rd rs1 imm) s rd (BitVec.ofNat 32 ((s.getReg rs1).toNat + imm.toNat))

/-- 44_jalr_branches.md R190, R192 to R197: the integer branches: each compares `x[rs1]` with `x[rs2]`, the field at bits
11:7, and changes the pc alone. -/
def Obligations.IntegerBranches : Prop :=
  ∀ (s : State) (rs1 rs2 : Reg) (imm : Imm15),
    (IsWord (imm ++ rs1 ++ rs2 ++ 0x41#7) (.beq rs1 rs2 imm) ∧
      BranchesWhen (.beq rs1 rs2 imm) s imm (s.getReg rs1 = s.getReg rs2)) ∧
    (IsWord (imm ++ rs1 ++ rs2 ++ 0x42#7) (.bne rs1 rs2 imm) ∧
      BranchesWhen (.bne rs1 rs2 imm) s imm (s.getReg rs1 ≠ s.getReg rs2)) ∧
    (IsWord (imm ++ rs1 ++ rs2 ++ 0x43#7) (.blt rs1 rs2 imm) ∧
      BranchesWhen (.blt rs1 rs2 imm) s imm ((s.getReg rs1).toInt < (s.getReg rs2).toInt)) ∧
    (IsWord (imm ++ rs1 ++ rs2 ++ 0x44#7) (.bge rs1 rs2 imm) ∧
      BranchesWhen (.bge rs1 rs2 imm) s imm ((s.getReg rs1).toInt ≥ (s.getReg rs2).toInt)) ∧
    (IsWord (imm ++ rs1 ++ rs2 ++ 0x45#7) (.bltu rs1 rs2 imm) ∧
      BranchesWhen (.bltu rs1 rs2 imm) s imm ((s.getReg rs1).toNat < (s.getReg rs2).toNat)) ∧
    (IsWord (imm ++ rs1 ++ rs2 ++ 0x46#7) (.bgeu rs1 rs2 imm) ∧
      BranchesWhen (.bgeu rs1 rs2 imm) s imm ((s.getReg rs1).toNat ≥ (s.getReg rs2).toNat))

/-- 44_jalr_branches.md R198, R199, 47_float_numerics.md R246: the float branches order patterns that are no NaN by the
integer recipe; with a NaN operand `bltf` is not taken and `bgef` is taken exactly where `BGEF_NAN` says so. -/
def Obligations.FloatBranches : Prop :=
  ∀ (s : State) (rs1 rs2 : Reg) (imm : Imm15),
    (IsWord (imm ++ rs1 ++ rs2 ++ 0x47#7) (.bltf rs1 rs2 imm) ∧
      BranchesWhen (.bltf rs1 rs2 imm) s imm
        (¬NanWord (s.getReg rs1) ∧ ¬NanWord (s.getReg rs2) ∧ orderKey (s.getReg rs1) < orderKey (s.getReg rs2))) ∧
    (IsWord (imm ++ rs1 ++ rs2 ++ 0x48#7) (.bgef rs1 rs2 imm) ∧
      BranchesWhen (.bgef rs1 rs2 imm) s imm
        (if NanWord (s.getReg rs1) ∨ NanWord (s.getReg rs2) then s.params.bgefNan = true
          else orderKey (s.getReg rs1) ≥ orderKey (s.getReg rs2)))

/-! ## Floating point -/

/-- 47_float_numerics.md R241: the value the model reads from a pattern, by its fields; a finite value is a number of
units of 2^-149. -/
def Obligations.ValueOfAPattern : Prop :=
  ∀ w : Word,
    let e := w.toNat / 2 ^ 23 % 256
    let m := w.toNat % 2 ^ 23
    let neg := decide (2 ^ 31 ≤ w.toNat)
    (e = 0 → unpack w = .finite neg m) ∧ (1 ≤ e ∧ e ≤ 254 → unpack w = .finite neg ((2 ^ 23 + m) * 2 ^ (e - 1))) ∧
      (e = 255 → m = 0 → unpack w = .inf neg) ∧ (e = 255 → m ≠ 0 → unpack w = .nan)

/-- 47_float_numerics.md R242: rounding a positive number of units gives the nearest float, a tie the even one, infinity
from (2^24 - 1/2) * 2^104 on; it never gives a NaN. -/
def Obligations.RoundingIsToNearestEven : Prop :=
  ∀ (neg : Bool) (num den : Nat), 0 < num → 0 < den → NearestFloat neg num den (roundF32 neg num den)

/-- 43_register_arithmetic.md R174, R175, 47_float_numerics.md R244: on finite operands `addf` and `subf` write the exact
sum or difference rounded to nearest; an exact zero is +0 unless both terms are -0. -/
def Obligations.AddAndSubtractFloats : Prop :=
  ∀ (s : State) (rd rs1 rs2 : Reg),
    (IsWord (0#10 ++ rs2 ++ rs1 ++ rd ++ 0x3B#7) (.addf rd rs1 rs2) ∧
      IsWord (0#10 ++ rs2 ++ rs1 ++ rd ++ 0x3C#7) (.subf rd rs1 rs2)) ∧
    ∀ (na nb : Bool) (ma mb : Nat), unpack (s.getReg rs1) = .finite na ma → unpack (s.getReg rs2) = .finite nb mb →
    ∀ p ∈ [(Instr.addf rd rs1 rs2, nb), (.subf rd rs1 rs2, !nb)],
      let r := signedUnits na ma + signedUnits p.2 mb
      (r = 0 → Completes p.1 s rd (if ma = 0 ∧ mb = 0 ∧ na = true ∧ p.2 = true then 0x80000000 else 0)) ∧
        (r ≠ 0 → ∃ w, Completes p.1 s rd w ∧ NearestFloat (decide (r < 0)) r.natAbs 1 w)

/-- 43_register_arithmetic.md R176, R177, 47_float_numerics.md R244: on finite operands `mulf` writes the exact product,
and `divf` by a divisor that is not zero the exact quotient, rounded to nearest, the sign the exclusive or of the signs,
also of a zero. -/
def Obligations.MultiplyAndDivideFloats : Prop :=
  ∀ (s : State) (rd rs1 rs2 : Reg),
    (IsWord (0#10 ++ rs2 ++ rs1 ++ rd ++ 0x3D#7) (.mulf rd rs1 rs2) ∧
      IsWord (0#10 ++ rs2 ++ rs1 ++ rd ++ 0x3E#7) (.divf rd rs1 rs2)) ∧
    ∀ (na nb : Bool) (ma mb : Nat), unpack (s.getReg rs1) = .finite na ma → unpack (s.getReg rs2) = .finite nb mb →
    (ma * mb = 0 → Completes (.mulf rd rs1 rs2) s rd (if na ^^ nb then 0x80000000 else 0)) ∧
    (ma * mb ≠ 0 → ∃ w, Completes (.mulf rd rs1 rs2) s rd w ∧ NearestFloat (na ^^ nb) (ma * mb) (2 ^ 149) w) ∧
    (ma = 0 → mb ≠ 0 → Completes (.divf rd rs1 rs2) s rd (if na ^^ nb then 0x80000000 else 0)) ∧
    (ma ≠ 0 → mb ≠ 0 → ∃ w, Completes (.divf rd rs1 rs2) s rd w ∧ NearestFloat (na ^^ nb) (ma * 2 ^ 149) mb w)

/-- 43_register_arithmetic.md R178, 47_float_numerics.md R245: `sqrtf` of a zero is that zero, of a positive finite float
the root rounded to nearest, of +infinity +infinity, of a NaN or of any other negative float some NaN. -/
def Obligations.SquareRoot : Prop :=
  ∀ (s : State) (rd rs1 : Reg), IsWord (0#15 ++ rs1 ++ rd ++ 0x3F#7) (.sqrtf rd rs1) ∧
    (ZeroWord (s.getReg rs1) → Completes (.sqrtf rd rs1) s rd (s.getReg rs1)) ∧
    (∀ m, unpack (s.getReg rs1) = .finite false m → m ≠ 0 →
      ∃ w, Completes (.sqrtf rd rs1) s rd w ∧ NearestSqrt m w) ∧
    (s.getReg rs1 = 0x7F800000 → Completes (.sqrtf rd rs1) s rd 0x7F800000) ∧
    (NanWord (s.getReg rs1) ∨ (2 ^ 31 ≤ (s.getReg rs1).toNat ∧ ¬ZeroWord (s.getReg rs1)) →
      CompletesFree (.sqrtf rd rs1) s rd (NanResultOf s))

/-- 47_float_numerics.md R243, R244 items 1 and 2: with a NaN operand, or for an invalid operation, `addf`, `subf`,
`mulf` and `divf` write some NaN and go on; no exception is raised. -/
def Obligations.NanResultsOfArithmetic : Prop :=
  ∀ (s : State) (rd rs1 rs2 : Reg),
    let a := s.getReg rs1
    let b := s.getReg rs2
    (NanWord a ∨ NanWord b ∨ (InfWord a ∧ InfWord b ∧ a ≠ b) →
      CompletesFree (.addf rd rs1 rs2) s rd (NanResultOf s)) ∧
    (NanWord a ∨ NanWord b ∨ (InfWord a ∧ InfWord b ∧ a = b) →
      CompletesFree (.subf rd rs1 rs2) s rd (NanResultOf s)) ∧
    (NanWord a ∨ NanWord b ∨ (ZeroWord a ∧ InfWord b) ∨ (InfWord a ∧ ZeroWord b) →
      CompletesFree (.mulf rd rs1 rs2) s rd (NanResultOf s)) ∧
    (NanWord a ∨ NanWord b ∨ (ZeroWord a ∧ ZeroWord b) ∨ (InfWord a ∧ InfWord b) →
      CompletesFree (.divf rd rs1 rs2) s rd (NanResultOf s))

/-- 47_float_numerics.md R244 items 3 and 4: infinite operands that are no invalid operation, and a division of a finite
number that is not zero by a zero, give an infinity or a zero of the sign the rule names. -/
def Obligations.InfinitiesInArithmetic : Prop :=
  ∀ (s : State) (rd rs1 rs2 : Reg),
    let a := s.getReg rs1
    let b := s.getReg rs2
    let sign := (a ^^^ b) &&& 0x80000000
    (InfWord a → FiniteWord b ∨ b = a → Completes (.addf rd rs1 rs2) s rd a) ∧
    (FiniteWord a → InfWord b → Completes (.addf rd rs1 rs2) s rd b) ∧
    (InfWord a → FiniteWord b ∨ (InfWord b ∧ b ≠ a) → Completes (.subf rd rs1 rs2) s rd a) ∧
    (FiniteWord a → InfWord b → Completes (.subf rd rs1 rs2) s rd (b ^^^ 0x80000000)) ∧
    ((InfWord a ∧ (InfWord b ∨ (FiniteWord b ∧ ¬ZeroWord b))) ∨ (FiniteWord a ∧ ¬ZeroWord a ∧ InfWord b) →
      Completes (.mulf rd rs1 rs2) s rd (0x7F800000 ||| sign)) ∧
    ((InfWord a ∧ FiniteWord b) ∨ (FiniteWord a ∧ ¬ZeroWord a ∧ ZeroWord b) →
      Completes (.divf rd rs1 rs2) s rd (0x7F800000 ||| sign)) ∧
    (FiniteWord a → InfWord b → Completes (.divf rd rs1 rs2) s rd sign)

/-- 42_immediate_arithmetic.md R146, 47_float_numerics.md R247: `fci` writes the float nearest to the signed integer,
exactly that integer up to magnitude 2^24, and +0.0 for 0. -/
def Obligations.IntegerToFloat : Prop :=
  ∀ (s : State) (rd rs1 : Reg), IsWord (0#15 ++ rs1 ++ rd ++ 0x2C#7) (.fci rd rs1) ∧
    ∃ w, Completes (.fci rd rs1) s rd w ∧ (s.getReg rs1 = 0 → w = 0) ∧
      ((s.getReg rs1).toInt ≠ 0 →
        NearestFloat (decide ((s.getReg rs1).toInt < 0)) ((s.getReg rs1).toInt.natAbs * 2 ^ 149) 1 w) ∧
      ((s.getReg rs1).toInt.natAbs ≤ 2 ^ 24 →
        unpack w = .finite (decide ((s.getReg rs1).toInt < 0)) ((s.getReg rs1).toInt.natAbs * 2 ^ 149))

/-- 45_ri.md R212: `lif` writes exactly the float of the signed immediate; 0 gives +0.0. -/
def Obligations.LoadImmediateFloat : Prop :=
  ∀ (s : State) (rd : Reg) (imm : Imm20), IsWord (imm ++ rd ++ 0x51#7) (.lif rd imm) ∧
    ∃ w, Completes (.lif rd imm) s rd w ∧ (imm = 0 → w = 0) ∧
      unpack w = .finite (decide (imm.toInt < 0)) (imm.toInt.natAbs * 2 ^ 149)

/-- 42_immediate_arithmetic.md R145, 47_float_numerics.md R248: `icf` writes a finite float truncated toward zero where
that is a signed 32-bit number; for a NaN, an infinity or a number outside that range it writes some value, or the
saturated one where `ICF_INVALID` says so, and goes on. -/
def Obligations.FloatToInteger : Prop :=
  ∀ (s : State) (rd rs1 : Reg), IsWord (0#15 ++ rs1 ++ rd ++ 0x2B#7) (.icf rd rs1) ∧
    (∀ neg m, unpack (s.getReg rs1) = .finite neg m →
      let t := (signedUnits neg m).tdiv (2 ^ 149)
      (-2 ^ 31 ≤ t ∧ t ≤ 2 ^ 31 - 1 → Completes (.icf rd rs1) s rd (BitVec.ofInt 32 t)) ∧
      (t < -2 ^ 31 ∨ 2 ^ 31 - 1 < t →
        (s.params.icfInvalid = .draw → CompletesFree (.icf rd rs1) s rd fun _ => True) ∧
        (s.params.icfInvalid = .saturate →
          Completes (.icf rd rs1) s rd (if t < 0 then 0x80000000 else 0x7FFFFFFF)))) ∧
    (∀ neg, unpack (s.getReg rs1) = .inf neg →
      (s.params.icfInvalid = .draw → CompletesFree (.icf rd rs1) s rd fun _ => True) ∧
      (s.params.icfInvalid = .saturate → Completes (.icf rd rs1) s rd (if neg then 0x80000000 else 0x7FFFFFFF))) ∧
    (NanWord (s.getReg rs1) →
      (s.params.icfInvalid = .draw → CompletesFree (.icf rd rs1) s rd fun _ => True) ∧
      (s.params.icfInvalid = .saturate → Completes (.icf rd rs1) s rd 0))

/-- 42_immediate_arithmetic.md R147 to R149, 47_float_numerics.md R249: `roundf`, `ceilf` and `floorf` write a float of
integral value with the operand's sign: the nearest integer (a half away from zero), the smallest not below, the largest
not above; an infinity and a float whose exponent is 150 or more give themselves, a NaN some NaN. -/
def Obligations.RoundToIntegral : Prop :=
  ∀ (s : State) (rd rs1 : Reg),
    (IsWord (0#15 ++ rs1 ++ rd ++ 0x2D#7) (.roundf rd rs1) ∧ IsWord (0#15 ++ rs1 ++ rd ++ 0x2E#7) (.ceilf rd rs1) ∧
      IsWord (0#15 ++ rs1 ++ rd ++ 0x2F#7) (.floorf rd rs1)) ∧
    (∀ neg m, unpack (s.getReg rs1) = .finite neg m →
      let v := signedUnits neg m
      (∃ w k, Completes (.roundf rd rs1) s rd w ∧ unpack w = .finite neg (k * 2 ^ 149) ∧
        2 * |v - signedUnits neg (k * 2 ^ 149)| ≤ 2 ^ 149 ∧
        (2 * |v - signedUnits neg (k * 2 ^ 149)| = 2 ^ 149 → m < k * 2 ^ 149)) ∧
      (∃ w k, Completes (.ceilf rd rs1) s rd w ∧ unpack w = .finite neg (k * 2 ^ 149) ∧
        signedUnits neg (k * 2 ^ 149) - 2 ^ 149 < v ∧ v ≤ signedUnits neg (k * 2 ^ 149)) ∧
      (∃ w k, Completes (.floorf rd rs1) s rd w ∧ unpack w = .finite neg (k * 2 ^ 149) ∧
        signedUnits neg (k * 2 ^ 149) ≤ v ∧ v < signedUnits neg (k * 2 ^ 149) + 2 ^ 149)) ∧
    ∀ i ∈ [Instr.roundf rd rs1, .ceilf rd rs1, .floorf rd rs1],
      (InfWord (s.getReg rs1) ∨ ZeroWord (s.getReg rs1) ∨
        (150 ≤ (s.getReg rs1).toNat / 2 ^ 23 % 256 ∧ FiniteWord (s.getReg rs1)) →
        Completes i s rd (s.getReg rs1)) ∧
      (NanWord (s.getReg rs1) → CompletesFree i s rd (NanResultOf s))

/-! ## Loading and start-up -/

/-- 20_memory.md R55: the loader accepts a file exactly where its magic, its length, its sizes, its symbols and its word 0
are as the rule asks. That one longer than 20_memory.md R52 says is accepted is the model's choice (log entry 29). -/
def Obligations.LoaderAcceptsExactlyTheValidFiles : Prop :=
  ∀ bs : List Byte, (∃ f, parseFile bs = .ok f) ↔
    64 ≤ bs.length ∧ fileLength bs ≤ bs.length ∧ bs.take 4 = [0x50, 0x6C, 0x67, 0x00] ∧
      (fileWord bs 4).toNat % 16 = 0 ∧ (fileWord bs 8).toNat % 16 = 0 ∧
      (fileWord bs 4).toNat + (fileWord bs 8).toNat ≤ 2 ^ 32 ∧ (∀ y ∈ (fileFields bs).syms, y.offset ≠ 0) ∧
      (fileWord bs 20 = 0 → (fileFields bs).text[0]? = some 0x00000001)

/-- 20_memory.md R52, R53, R40: where the fields of an accepted file lie, and that a word is four bytes, least significant
first. -/
def Obligations.FieldsOfAFile : Prop :=
  (∀ (bs : List Byte) (off : Nat), (fileWord bs off).toNat = (fileByte bs off).toNat + 2 ^ 8 * (fileByte bs (off + 1)).toNat
    + 2 ^ 16 * (fileByte bs (off + 2)).toNat + 2 ^ 24 * (fileByte bs (off + 3)).toNat) ∧
  ∀ (bs : List Byte) (f : PlgFile), parseFile bs = .ok f →
    let nd := (fileWord bs 4).toNat
    let nt := (fileWord bs 12).toNat
    let ns := (fileWord bs 16).toNat
    f.dataLen = fileWord bs 4 ∧ f.bssLen = fileWord bs 8 ∧ f.resetVector = fileWord bs 20 ∧
      f.userdata = (bs.drop 24).take 40 ∧ f.syms.length = ns ∧
      (∀ i < ns, f.syms[i]? = some { offset := fileWord bs (64 + 64 * i), name := (bs.drop (68 + 64 * i)).take 60 }) ∧
      f.data = (bs.drop (64 + 64 * ns)).take nd ∧ f.text.length = nt ∧
      ∀ i < nt, f.text[i]? = some (fileWord bs (64 + 64 * ns + nd + 4 * i))

/-- 70_reset_and_hazards.md R290, 20_memory.md R48, R54, R61: start-up of an accepted file: the pc at the reset vector,
register 0 zero, the other registers as the host chose them, the file's data from address 0 on, zero bytes after it, a data
space of `data_len + bss_len` bytes, the file's header words, symbols and text, and status `Running`. Between load and
start-up the host may write any register but 0 and any byte of the data space, and nothing else changes by it. -/
def Obligations.StartUp : Prop :=
  (∀ (bs : List Byte) (f : PlgFile) (x : Vector Word 32) (p : Params) (d : Nat), parseFile bs = .ok f →
    (f.startUp x p d).pc = f.resetVector ∧ (f.startUp x p d).getReg 0 = 0 ∧
      (∀ r : Reg, r ≠ 0 → (f.startUp x p d).getReg r = x[r.toFin]) ∧
      (∀ i b, f.data[i]? = some b → (f.startUp x p d).data.readByte i = b) ∧
      (∀ i, f.data.length ≤ i → (f.startUp x p d).data.readByte i = 0) ∧ f.data.length = f.dataLen.toNat ∧
      (f.startUp x p d).image = { dataLen := f.dataLen, bssLen := f.bssLen, resetVector := f.resetVector, syms := f.syms,
                                  text := f.text } ∧
      (f.startUp x p d).image.dataSize = f.dataLen.toNat + f.bssLen.toNat ∧ (f.startUp x p d).status = .running ∧
      (f.startUp x p d).params = p ∧ (f.startUp x p d).draws = d ∧ f.startUp x p d = (f.load x p).start d) ∧
  (∀ (l : Loaded) (r : Reg) (v : Word) (d : Nat),
    (l.setReg r v).start d = { l.start d with regs := ((l.setReg r v).start d).regs } ∧
      ∀ q, ((l.setReg r v).start d).getReg q = if q = r ∧ q ≠ 0 then v else (l.start d).getReg q) ∧
  ∀ (l : Loaded) (a : Word) (b : Byte) (d : Nat),
    (l.data.wf = true → a.toNat < l.image.dataSize → ∃ m, l.setByte a b = some m ∧
      m.start d = { l.start d with data := (m.start d).data } ∧
      ∀ k, (m.start d).data.readByte k = if k = a.toNat then b else l.data.readByte k) ∧
    (l.image.dataSize ≤ a.toNat → l.setByte a b = none)

/-! ## The observable trace -/

/-- 60_exceptions.md R273: the observable trace of a run. A step that executes an `ecall` adds the one event of that call,
its number, `a0` to `a7` and the data space at the call; every other step, the host's among them, adds none; and the trace
ends with the final state. -/
def Obligations.TraceOfARun : Prop :=
  ∀ (s : State) (fuel : Nat),
    (∀ n : Imm15, s.status = .running → s.image.text[s.pc.toNat]? = some (n ++ 0x00002#17) →
      trace (fuel + 1) s =
        { events := { number := n,
                      args := [s.getReg 4, s.getReg 5, s.getReg 6, s.getReg 7, s.getReg 8, s.getReg 9, s.getReg 10,
                        s.getReg 11],
                      data := s.data } :: (trace fuel { s with status := .inHost n }).events,
          final := (trace fuel { s with status := .inHost n }).final }) ∧
    (∀ t, s.status = .running → (∀ n : Imm15, s.image.text[s.pc.toNat]? ≠ some (n ++ 0x00002#17)) → step s = .next t →
      trace (fuel + 1) s = trace fuel t) ∧
    (∀ n t, s.status = .inHost n → step s = .next t → trace (fuel + 1) s = trace fuel t) ∧
    (s.status = .halted ∨ (∃ e, s.status = .stopped e) → trace fuel s = { events := [], final := s })
end

