-- ==== Sys2Proof/Laws/Decode.lean ====
section
/-! SUPPORT. The fields of an encoded word (30_encoding.md R71 to R74), read back by the decoder's field functions, and
the fields of a word put together again. -/

namespace Sys2Proof

/-- The number of a concatenation. -/
theorem toNat_append_add {m n : Nat} (x : BitVec m) (y : BitVec n) : (x ++ y).toNat = x.toNat * 2 ^ n + y.toNat := by
  rw [BitVec.toNat_append, ← Nat.shiftLeft_add_eq_or_of_lt y.isLt, Nat.shiftLeft_eq]

variable (opc : BitVec 3) (opf : BitVec 4) (rd rs1 rs2 : Reg) (imm : Imm15) (imm20 : Imm20)

theorem encRri_toNat : (encRri opc opf rd rs1 imm).toNat =
    (((imm.toNat * 2 ^ 5 + rs1.toNat) * 2 ^ 5 + rd.toNat) * 2 ^ 3 + opc.toNat) * 2 ^ 4 + opf.toNat := by
  unfold encRri
  simp only [toNat_append_add]

theorem encRrr_toNat : (encRrr opf rd rs1 rs2).toNat =
    (((rs2.toNat * 2 ^ 5 + rs1.toNat) * 2 ^ 5 + rd.toNat) * 2 ^ 3 + 3) * 2 ^ 4 + opf.toNat := by
  unfold encRrr
  simp only [toNat_append_add]
  simp

theorem encRi_toNat : (encRi opf rd imm20).toNat =
    ((imm20.toNat * 2 ^ 5 + rd.toNat) * 2 ^ 3 + 5) * 2 ^ 4 + opf.toNat := by
  unfold encRi
  simp only [toNat_append_add]
  simp

/-- A field of a word as a number. -/
theorem toNat_field (w : Word) (lo n : Nat) : (w.extractLsb' lo n).toNat = w.toNat / 2 ^ lo % 2 ^ n := by
  simp [Nat.shiftRight_eq_div_pow]

/-! ## RRI -/

@[simp] theorem opfOf_encRri : opfOf (encRri opc opf rd rs1 imm) = opf := by
  apply BitVec.eq_of_toNat_eq; rw [opfOf, toNat_field, encRri_toNat]; omega
@[simp] theorem opcOf_encRri : opcOf (encRri opc opf rd rs1 imm) = opc := by
  apply BitVec.eq_of_toNat_eq; rw [opcOf, toNat_field, encRri_toNat]; omega
@[simp] theorem rdOf_encRri : rdOf (encRri opc opf rd rs1 imm) = rd := by
  apply BitVec.eq_of_toNat_eq; rw [rdOf, toNat_field, encRri_toNat]; omega
@[simp] theorem rs1Of_encRri : rs1Of (encRri opc opf rd rs1 imm) = rs1 := by
  apply BitVec.eq_of_toNat_eq; rw [rs1Of, toNat_field, encRri_toNat]; omega
@[simp] theorem imm15Of_encRri : imm15Of (encRri opc opf rd rs1 imm) = imm := by
  apply BitVec.eq_of_toNat_eq; rw [imm15Of, toNat_field, encRri_toNat]; omega

/-! ## RRR -/

@[simp] theorem opfOf_encRrr : opfOf (encRrr opf rd rs1 rs2) = opf := by
  apply BitVec.eq_of_toNat_eq; rw [opfOf, toNat_field, encRrr_toNat]; omega
@[simp] theorem opcOf_encRrr : opcOf (encRrr opf rd rs1 rs2) = 3#3 := by
  apply BitVec.eq_of_toNat_eq; rw [opcOf, toNat_field, encRrr_toNat]; simp; omega
@[simp] theorem rdOf_encRrr : rdOf (encRrr opf rd rs1 rs2) = rd := by
  apply BitVec.eq_of_toNat_eq; rw [rdOf, toNat_field, encRrr_toNat]; omega
@[simp] theorem rs1Of_encRrr : rs1Of (encRrr opf rd rs1 rs2) = rs1 := by
  apply BitVec.eq_of_toNat_eq; rw [rs1Of, toNat_field, encRrr_toNat]; omega
@[simp] theorem rs2Of_encRrr : rs2Of (encRrr opf rd rs1 rs2) = rs2 := by
  apply BitVec.eq_of_toNat_eq; rw [rs2Of, toNat_field, encRrr_toNat]; omega
@[simp] theorem imm10Of_encRrr : imm10Of (encRrr opf rd rs1 rs2) = 0 := by
  apply BitVec.eq_of_toNat_eq; rw [imm10Of, toNat_field, encRrr_toNat]; simp; omega

/-! ## RI -/

@[simp] theorem opfOf_encRi : opfOf (encRi opf rd imm20) = opf := by
  apply BitVec.eq_of_toNat_eq; rw [opfOf, toNat_field, encRi_toNat]; omega
@[simp] theorem opcOf_encRi : opcOf (encRi opf rd imm20) = 5#3 := by
  apply BitVec.eq_of_toNat_eq; rw [opcOf, toNat_field, encRi_toNat]; simp; omega
@[simp] theorem rdOf_encRi : rdOf (encRi opf rd imm20) = rd := by
  apply BitVec.eq_of_toNat_eq; rw [rdOf, toNat_field, encRi_toNat]; omega
@[simp] theorem imm20Of_encRi : imm20Of (encRi opf rd imm20) = imm20 := by
  apply BitVec.eq_of_toNat_eq; rw [imm20Of, toNat_field, encRi_toNat]; omega

/-! ## A word from its fields -/

/-- A word of the RRI format is the encoding of its own fields. -/
theorem encRri_fields (w : Word) : encRri (opcOf w) (opfOf w) (rdOf w) (rs1Of w) (imm15Of w) = w := by
  apply BitVec.eq_of_toNat_eq
  rw [encRri_toNat, opcOf, opfOf, rdOf, rs1Of, imm15Of]
  simp only [toNat_field]
  have := w.isLt
  omega

/-- A word of the RRR format with `imm10` zero is the encoding of its other fields. -/
theorem encRrr_fields (w : Word) (h3 : opcOf w = 3#3) (h10 : imm10Of w = 0) :
    encRrr (opfOf w) (rdOf w) (rs1Of w) (rs2Of w) = w := by
  have h3 := congrArg BitVec.toNat h3
  have h10 := congrArg BitVec.toNat h10
  apply BitVec.eq_of_toNat_eq
  rw [encRrr_toNat, opfOf, rdOf, rs1Of, rs2Of]
  rw [opcOf] at h3
  rw [imm10Of] at h10
  simp only [toNat_field] at *
  have := w.isLt
  simp at h3 h10
  omega

/-- A word of the RI format is the encoding of its own fields. -/
theorem encRi_fields (w : Word) (h5 : opcOf w = 5#3) : encRi (opfOf w) (rdOf w) (imm20Of w) = w := by
  have h5 := congrArg BitVec.toNat h5
  apply BitVec.eq_of_toNat_eq
  rw [encRi_toNat, opfOf, rdOf, imm20Of]
  rw [opcOf] at h5
  simp only [toNat_field] at *
  have := w.isLt
  simp at h5
  omega

/-- What the must-be-zero test answers. -/
theorem legalIf_eq_some {ok : Bool} {i j : Instr} : legalIf ok i = some j ↔ ok = true ∧ i = j := by
  unfold legalIf; split <;> simp_all

end Sys2Proof
end

