-- ==== Sys2Proof/Laws/Memory.lean ====
section
/-! SUPPORT. The data space: read after write, the frame of a write, and that every memory operation keeps the canonical
form and the bound on the addresses. -/

namespace Sys2Proof.Machine

/-! ## One byte -/

/-- A list in canonical form from `lo` on lists nothing below `lo`. -/
theorem lookupCell_below : ∀ {lo : Nat} {cs : List Host.Cell} {a : Nat}, wfCells lo cs = true → a < lo →
    lookupCell cs a = Memory.unlisted
  | _, [], _, _, _ => rfl
  | lo, (k, c) :: rest, a, h, hl => by
    simp only [wfCells, Bool.and_eq_true, decide_eq_true_eq] at h
    have hk : a ≠ k := by omega
    simp only [lookupCell, if_neg hk]
    exact lookupCell_below h.2 (by omega)

/-- A byte written is the byte read back. -/
theorem lookupCell_insertCell_same : ∀ {lo : Nat} {cs : List Host.Cell} {a : Nat} {b : Byte}, wfCells lo cs = true →
    lookupCell (insertCell cs a b) a = b
  | _, [], a, b, _ => by
    by_cases hb : b = Memory.unlisted <;> simp [insertCell, lookupCell, hb]
  | lo, (k, c) :: rest, a, b, h => by
    simp only [wfCells, Bool.and_eq_true, decide_eq_true_eq] at h
    unfold insertCell
    by_cases h1 : a < k
    · have hk : a ≠ k := by omega
      by_cases hb : b = Memory.unlisted
      · simp [h1, hb, lookupCell, hk, lookupCell_below h.2 (by omega : a < k + 1)]
      · simp [h1, hb, lookupCell]
    · by_cases h2 : a = k
      · subst h2
        by_cases hb : b = Memory.unlisted
        · simp [hb, lookupCell_below h.2 (by omega : a < a + 1)]
        · simp [hb, lookupCell]
      · simp [h1, h2, lookupCell, lookupCell_insertCell_same h.2]

/-- A write leaves every other byte alone. -/
theorem lookupCell_insertCell_other : ∀ {cs : List Host.Cell} {a : Nat} {b : Byte} {x : Nat}, x ≠ a →
    lookupCell (insertCell cs a b) x = lookupCell cs x
  | [], a, b, x, hx => by
    by_cases hb : b = Memory.unlisted <;> simp [insertCell, lookupCell, hb, hx]
  | (k, c) :: rest, a, b, x, hx => by
    unfold insertCell
    by_cases h1 : a < k
    · by_cases hb : b = Memory.unlisted <;> simp [h1, hb, lookupCell, hx]
    · by_cases h2 : a = k
      · subst h2
        by_cases hb : b = Memory.unlisted <;> simp [hb, lookupCell, hx]
      · simp only [h1, h2, if_false, lookupCell, lookupCell_insertCell_other hx]

/-- The canonical form from a higher bound on is one from a lower bound on. -/
theorem wfCells_mono {lo hi : Nat} {cs : List Host.Cell} (h : wfCells hi cs = true) (hl : lo ≤ hi) :
    wfCells lo cs = true := by
  cases cs with
  | nil => rfl
  | cons c rest =>
    simp only [wfCells, Bool.and_eq_true, decide_eq_true_eq] at h ⊢
    exact ⟨⟨by omega, h.1.2⟩, h.2⟩

/-- A write keeps the canonical form. -/
theorem wfCells_insertCell : ∀ {lo : Nat} {cs : List Host.Cell} {a : Nat} {b : Byte}, wfCells lo cs = true → lo ≤ a →
    wfCells lo (insertCell cs a b) = true
  | lo, [], a, b, _, hl => by
    by_cases hb : b = Memory.unlisted <;> simp [insertCell, wfCells, hb, hl]
  | lo, (k, c) :: rest, a, b, h, hl => by
    have h' := h
    simp only [wfCells, Bool.and_eq_true, decide_eq_true_eq] at h
    unfold insertCell
    by_cases h1 : a < k
    · by_cases hb : b = Memory.unlisted
      · simpa [h1, hb] using h'
      · simp [h1, hb, wfCells, hl, h.1.2, h.2]
    · by_cases h2 : a = k
      · subst h2
        by_cases hb : b = Memory.unlisted
        · simp only [h1, hb, if_true, if_false]
          exact wfCells_mono h.2 (by omega)
        · simp [hb, wfCells, hl, h.2]
      · simp only [h1, h2, if_false, wfCells, Bool.and_eq_true, decide_eq_true_eq]
        exact ⟨h.1, wfCells_insertCell h.2 (by omega)⟩

/-- A write below a bound lists nothing at or above it. -/
theorem insertCell_bound : ∀ {cs : List Host.Cell} {a : Nat} {b : Byte} {size : Nat}, (∀ c ∈ cs, c.1 < size) → a < size →
    ∀ c ∈ insertCell cs a b, c.1 < size
  | [], a, b, size, _, ha => by
    intro c hc
    by_cases hb : b = Memory.unlisted <;> simp [insertCell, hb] at hc
    subst hc; exact ha
  | (k, x) :: rest, a, b, size, h, ha => by
    intro c hc
    have hk := h (k, x) (by simp)
    have hr : ∀ c ∈ rest, c.1 < size := fun c hc => h c (by simp [hc])
    unfold insertCell at hc
    split at hc
    · split at hc
      · exact h c hc
      · rcases List.mem_cons.mp hc with rfl | hc
        · exact ha
        · exact h c hc
    · split at hc
      · split at hc
        · exact hr c hc
        · rcases List.mem_cons.mp hc with rfl | hc
          · exact ha
          · exact hr c hc
      · rcases List.mem_cons.mp hc with rfl | hc
        · exact hk
        · exact insertCell_bound hr ha c hc

/-! ## Bytes of a memory -/

theorem readByte_writeByte_same {m : Memory} (h : m.wf = true) (a : Nat) (b : Byte) :
    (m.writeByte a b).readByte a = b := lookupCell_insertCell_same h

theorem readByte_writeByte_other (m : Memory) {a x : Nat} (b : Byte) (h : x ≠ a) :
    (m.writeByte a b).readByte x = m.readByte x := lookupCell_insertCell_other h

theorem writeByte_wf {m : Memory} (h : m.wf = true) (a : Nat) (b : Byte) : (m.writeByte a b).wf = true :=
  wfCells_insertCell h (Nat.zero_le a)

/-! ## Several bytes -/

/-- A wide write leaves every byte outside it alone. -/
theorem readByte_writeLE_other : ∀ (n : Nat) (m : Memory) (a v x : Nat), (x < a ∨ a + n ≤ x) →
    (m.writeLE a n v).readByte x = m.readByte x
  | 0, _, _, _, _, _ => rfl
  | n + 1, m, a, v, x, h => by
    rw [Memory.writeLE, readByte_writeLE_other n _ _ _ _ (by omega), readByte_writeByte_other _ _ (by omega)]

/-- Byte `k` of a wide write is byte `k` of the value. -/
theorem readByte_writeLE_at : ∀ (n : Nat) (m : Memory) (a v k : Nat), m.wf = true → k < n →
    (m.writeLE a n v).readByte (a + k) = BitVec.ofNat 8 (v / 256 ^ k)
  | n + 1, m, a, v, 0, h, _ => by
    rw [Memory.writeLE, readByte_writeLE_other n _ _ _ _ (by omega)]
    simpa using readByte_writeByte_same h a _
  | n + 1, m, a, v, k + 1, h, hk => by
    have := readByte_writeLE_at n (m.writeByte a (BitVec.ofNat 8 v)) (a + 1) (v / 256) k (writeByte_wf h _ _)
      (by omega)
    rw [Memory.writeLE, show a + (k + 1) = a + 1 + k by omega, this, Nat.div_div_eq_div_mul, Nat.pow_succ', Nat.mul_comm]

theorem writeLE_wf : ∀ (n : Nat) {m : Memory} (a v : Nat), m.wf = true → (m.writeLE a n v).wf = true
  | 0, _, _, _, h => h
  | n + 1, _, _, _, h => writeLE_wf n _ _ (writeByte_wf h _ _)

theorem writeLE_bound : ∀ (n : Nat) {m : Memory} {a v size : Nat}, (∀ c ∈ m.cells, c.1 < size) → a + n ≤ size →
    ∀ c ∈ (m.writeLE a n v).cells, c.1 < size
  | 0, _, _, _, _, h, _ => h
  | n + 1, _, _, _, _, h, ha => writeLE_bound n (insertCell_bound h (by omega)) (by omega)

/-! ## What the host and the loader write -/

theorem hostWrites_wf (size : Nat) : ∀ (ws : List (Word × Byte)) {m : Memory}, m.wf = true →
    (hostWrites size ws m).wf = true
  | [], _, h => h
  | (a, b) :: rest, m, h => by
    unfold hostWrites
    split
    · exact hostWrites_wf size rest (writeByte_wf h _ _)
    · exact hostWrites_wf size rest h

theorem hostWrites_bound (size : Nat) : ∀ (ws : List (Word × Byte)) {m : Memory}, (∀ c ∈ m.cells, c.1 < size) →
    ∀ c ∈ (hostWrites size ws m).cells, c.1 < size
  | [], _, h => h
  | (a, b) :: rest, m, h => by
    unfold hostWrites
    split
    · exact hostWrites_bound size rest (insertCell_bound h (by assumption))
    · exact hostWrites_bound size rest h

theorem cellsOf_wf : ∀ (bs : List Byte) (a : Nat), wfCells a (cellsOf a bs) = true
  | [], _ => rfl
  | b :: rest, a => by
    unfold cellsOf
    split
    · exact wfCells_mono (cellsOf_wf rest (a + 1)) (by omega)
    · rename_i h
      simp [wfCells, h, cellsOf_wf rest (a + 1)]

theorem cellsOf_bound : ∀ (bs : List Byte) (a : Nat), ∀ c ∈ cellsOf a bs, c.1 < a + bs.length
  | [], _, c, h => by simp [cellsOf] at h
  | b :: rest, a, c, h => by
    unfold cellsOf at h
    split at h
    · have := cellsOf_bound rest (a + 1) c h; simp; omega
    · rcases List.mem_cons.mp h with rfl | h
      · simp
      · have := cellsOf_bound rest (a + 1) c h; simp; omega

end Sys2Proof.Machine
end

