-- ==== Sys2Proof/Laws/State.lean ====
section
/-! SUPPORT. One lemma per field and per update of State: what each register, pc and status operation leaves. -/

namespace Sys2Proof.Machine

variable (s : State) (r rd : Reg) (v t : Word) (e : Exc)

/-! ## Reading a register -/

@[simp] theorem getReg_zero : s.getReg 0#5 = 0#32 := by simp [State.getReg]

theorem getReg_of_ne (h : r ≠ 0) : s.getReg r = s.regs[r.toFin] := by rw [State.getReg, if_neg h]

/-- Two states with equal register files read equal registers. -/
theorem getReg_congr {s t : State} (h : t.regs = s.regs) (r : Reg) : t.getReg r = s.getReg r := by
  simp [State.getReg, h]

/-! ## `x[rd] <- v` -/

@[simp] theorem setReg_pc : (s.setReg rd v).pc = s.pc := by unfold State.setReg; split <;> rfl
@[simp] theorem setReg_data : (s.setReg rd v).data = s.data := by unfold State.setReg; split <;> rfl
@[simp] theorem setReg_status : (s.setReg rd v).status = s.status := by unfold State.setReg; split <;> rfl
@[simp] theorem setReg_image : (s.setReg rd v).image = s.image := by unfold State.setReg; split <;> rfl
@[simp] theorem setReg_params : (s.setReg rd v).params = s.params := by unfold State.setReg; split <;> rfl
@[simp] theorem setReg_draws : (s.setReg rd v).draws = s.draws := by unfold State.setReg; split <;> rfl

/-- Register 0 of the register file itself is never written. -/
@[simp] theorem setReg_regs_zero : (s.setReg rd v).regs[0] = s.regs[0] := by
  unfold State.setReg
  split
  · rfl
  · rename_i h
    have : rd.toNat ≠ 0 := fun hc => h (BitVec.eq_of_toNat_eq (by simpa using hc))
    simp [this]

/-! ## `pc <- t` -/

@[simp] theorem jump_regs : (s.jump t).regs = s.regs := rfl
@[simp] theorem jump_pc : (s.jump t).pc = t := rfl
@[simp] theorem jump_data : (s.jump t).data = s.data := rfl
@[simp] theorem jump_status : (s.jump t).status = s.status := rfl
@[simp] theorem jump_image : (s.jump t).image = s.image := rfl
@[simp] theorem jump_params : (s.jump t).params = s.params := rfl
@[simp] theorem jump_draws : (s.jump t).draws = s.draws := rfl
@[simp] theorem jump_getReg : (s.jump t).getReg r = s.getReg r := rfl

@[simp] theorem advance_regs : s.advance.regs = s.regs := rfl
@[simp] theorem advance_pc : s.advance.pc = s.pc + 1 := rfl
@[simp] theorem advance_data : s.advance.data = s.data := rfl
@[simp] theorem advance_status : s.advance.status = s.status := rfl
@[simp] theorem advance_image : s.advance.image = s.image := rfl
@[simp] theorem advance_params : s.advance.params = s.params := rfl
@[simp] theorem advance_draws : s.advance.draws = s.draws := rfl
@[simp] theorem advance_getReg : s.advance.getReg r = s.getReg r := rfl

/-! ## Taking an exception -/

@[simp] theorem raise_regs : (s.raise e).regs = s.regs := rfl
@[simp] theorem raise_pc : (s.raise e).pc = s.pc := rfl
@[simp] theorem raise_data : (s.raise e).data = s.data := rfl
@[simp] theorem raise_status : (s.raise e).status = .stopped e := rfl
@[simp] theorem raise_image : (s.raise e).image = s.image := rfl
@[simp] theorem raise_params : (s.raise e).params = s.params := rfl
@[simp] theorem raise_draws : (s.raise e).draws = s.draws := rfl
@[simp] theorem raise_getReg : (s.raise e).getReg r = s.getReg r := rfl

/-! ## Resumption after `break` -/

@[simp] theorem resumeBreak_regs : s.resumeBreak.regs = s.regs := rfl
@[simp] theorem resumeBreak_pc : s.resumeBreak.pc = s.pc + 1 := rfl
@[simp] theorem resumeBreak_data : s.resumeBreak.data = s.data := rfl
@[simp] theorem resumeBreak_status : s.resumeBreak.status = .running := rfl
@[simp] theorem resumeBreak_image : s.resumeBreak.image = s.image := rfl
@[simp] theorem resumeBreak_params : s.resumeBreak.params = s.params := rfl
@[simp] theorem resumeBreak_draws : s.resumeBreak.draws = s.draws := rfl

/-! ## What a host function leaves -/

variable (reply : HostReply)

@[simp] theorem hostEffect_pc : (s.hostEffect reply).pc = s.pc := by rw [State.hostEffect]
@[simp] theorem hostEffect_status : (s.hostEffect reply).status = s.status := by rw [State.hostEffect]
@[simp] theorem hostEffect_image : (s.hostEffect reply).image = s.image := by rw [State.hostEffect]
@[simp] theorem hostEffect_params : (s.hostEffect reply).params = s.params := by rw [State.hostEffect]
@[simp] theorem hostEffect_draws : (s.hostEffect reply).draws = s.draws + 1 := by rw [State.hostEffect]
@[simp] theorem hostEffect_regs : (s.hostEffect reply).regs = hostRegs s.regs reply.regs := by rw [State.hostEffect]
@[simp] theorem hostEffect_data :
    (s.hostEffect reply).data = hostWrites s.image.dataSize reply.writes s.data := by rw [State.hostEffect]

/-- The host resumes after `break` alone, and only under `BREAK_RESUME`. -/
theorem hostResume_eq_some {s t : State} :
    s.hostResume = some t ↔ s.status = .stopped .breakpoint ∧ s.params.breakResume = true ∧ s.resumeBreak = t := by
  unfold State.hostResume
  split <;> simp_all

end Sys2Proof.Machine
end

