-- ==== Sys2Proof/Laws/Ops.lean ====
section
/-! SUPPORT. One lemma for each shared operation that says once everything it can do; later proofs cite it. -/

namespace Sys2Proof.Machine

/-! ## Registers -/

/-- Reading after writing: register `rd` holds the value unless it is register 0 (10_state.md R21). -/
theorem getReg_setReg (s : State) (rd r : Reg) (v : Word) :
    (s.setReg rd v).getReg r = if r = rd ∧ r ≠ 0 then v else s.getReg r := by
  by_cases hr : r = 0
  · subst hr; rw [if_neg (fun hc => hc.2 rfl)]; exact (getReg_zero _).trans (getReg_zero _).symm
  · rw [getReg_of_ne _ _ hr, getReg_of_ne _ _ hr]
    by_cases h0 : rd = 0
    · subst h0; simp [State.setReg]
    · have hs : (s.setReg rd v).regs = s.regs.set rd.toFin v := by rw [State.setReg, if_neg h0]
      by_cases h : r = rd
      · subst h
        rw [if_pos ⟨rfl, hr⟩]
        simp [hs]
      · have : rd.toNat ≠ r.toNat := fun hc => h (BitVec.eq_of_toNat_eq hc.symm)
        rw [if_neg (fun hc => h hc.1)]
        simp [hs, this]

/-- What an instruction that writes one register and goes on leaves. -/
theorem writeNext_wrote (s : State) (rd : Reg) (v : Word) : WroteRegister s (s.writeNext rd v) rd v 0 := by
  refine ⟨fun r => ?_, ?_, ?_, ?_, ?_, ?_, ?_⟩ <;> simp [State.writeNext, getReg_setReg]

/-- Such an instruction keeps register 0 of the register file. -/
theorem writeNext_regs_zero (s : State) (rd : Reg) (v : Word) : (s.writeNext rd v).regs[0] = s.regs[0] := by
  simp [State.writeNext]

/-! ## Results that can be free values -/

/-- A known result is written as it is and draws nothing. -/
theorem writeValue_known (s : State) (site : DrawSite) (a b : Word) (rd : Reg) (v : Word) :
    s.writeValue site a b rd (.known v) = s.writeNext rd v := rfl

/-- Any result: its settled word is written, and a result that is not known is one draw. -/
theorem writeValue_wrote (s : State) (site : DrawSite) (a b : Word) (rd : Reg) (v : Value) :
    WroteRegister s (s.writeValue site a b rd v) rd (s.settle site a b v)
      (match v with | .known _ => 0 | _ => 1) := by
  have h := writeNext_wrote s rd (s.settle site a b v)
  cases v with
  | known w => exact h
  | nan =>
    obtain ⟨h1, h2, h3, h4, h5, h6, -⟩ := h
    exact ⟨h1, h2, h3, h4, h5, h6, rfl⟩
  | free =>
    obtain ⟨h1, h2, h3, h4, h5, h6, -⟩ := h
    exact ⟨h1, h2, h3, h4, h5, h6, rfl⟩

theorem writeValue_regs_zero (s : State) (site : DrawSite) (a b : Word) (rd : Reg) (v : Value) :
    (s.writeValue site a b rd v).regs[0] = s.regs[0] := by
  cases v with
  | known w => exact writeNext_regs_zero s rd w
  | nan => exact writeNext_regs_zero s rd _
  | free => exact writeNext_regs_zero s rd _

/-- A result that may be an exception: it is taken, or the result is written. -/
theorem writeOrRaise_cases (s : State) (site : DrawSite) (a b : Word) (rd : Reg) (r : Except Exc Value) :
    (∃ e, r = .error e ∧ s.writeOrRaise site a b rd r = s.raise e) ∨
    (∃ v, r = .ok v ∧ s.writeOrRaise site a b rd r = s.writeValue site a b rd v) := by
  cases r with
  | error e => exact .inl ⟨e, rfl, rfl⟩
  | ok v => exact .inr ⟨v, rfl, rfl⟩

/-! ## Memory accesses -/

/-- What the checks of an access can answer, and when (20_memory.md R44, R45, 60_exceptions.md R270). -/
theorem checkAccess_cases (s : State) (a : Word) (n : Width) :
    (s.checkAccess a n = some (.misalignedAccess a) ∧ a.toNat % n.bytes ≠ 0 ∧ s.params.unalignedSupport = false) ∨
    (s.checkAccess a n = some (.memoryFault a) ∧ (a.toNat % n.bytes = 0 ∨ s.params.unalignedSupport = true) ∧
      s.image.dataSize < a.toNat + n.bytes) ∨
    (s.checkAccess a n = none ∧ (a.toNat % n.bytes = 0 ∨ s.params.unalignedSupport = true) ∧
      a.toNat + n.bytes ≤ s.image.dataSize) := by
  unfold State.checkAccess
  by_cases h1 : a.toNat % n.bytes ≠ 0 ∧ s.params.unalignedSupport = false
  · exact .inl ⟨if_pos h1, h1⟩
  · rw [if_neg h1]
    have h1' : a.toNat % n.bytes = 0 ∨ s.params.unalignedSupport = true := by
      by_cases hz : a.toNat % n.bytes = 0
      · exact .inl hz
      · exact .inr (by simpa using fun hf => h1 ⟨hz, hf⟩)
    by_cases h2 : s.image.dataSize < a.toNat + n.bytes
    · exact .inr (.inl ⟨if_pos h2, h1', h2⟩)
    · exact .inr (.inr ⟨if_neg h2, h1', by omega⟩)

/-- A load raises what the checks answer, or writes the bytes it read. -/
theorem load_cases (s : State) (rd : Reg) (a : Word) (n : Width) (ext : Nat → Word) :
    (∃ e, s.checkAccess a n = some e ∧ s.load rd a n ext = s.raise e) ∨
    (s.checkAccess a n = none ∧ s.load rd a n ext = s.writeNext rd (ext (s.data.readLE a.toNat n.bytes))) := by
  unfold State.load State.memRead
  cases h : s.checkAccess a n with
  | some e => exact .inl ⟨e, rfl, rfl⟩
  | none => exact .inr ⟨rfl, rfl⟩

/-- A store raises what the checks answer, or changes the bytes it names and goes on. -/
theorem store_cases (s : State) (a : Word) (n : Width) (v : Word) :
    (∃ e, s.checkAccess a n = some e ∧ s.store a n v = s.raise e) ∨
    (s.checkAccess a n = none ∧
      s.store a n v = { s with data := s.data.writeLE a.toNat n.bytes v.toNat, pc := s.pc + 1 }) := by
  unfold State.store State.memWrite
  cases h : s.checkAccess a n with
  | some e => exact .inl ⟨e, rfl, rfl⟩
  | none => exact .inr ⟨rfl, rfl⟩

/-! ## Jumps -/

/-- A branch changes the pc alone. -/
theorem branch_eq (s : State) (taken : Bool) (imm : Imm15) :
    s.branch taken imm = { s with pc := if taken then s.branchTarget imm else s.pc + 1 } := by
  cases taken <;> rfl

/-- A linking jump writes the next word's address to `x[rd]` and the target to the pc. -/
theorem link_spec (s : State) (rd : Reg) (t : Word) :
    (∀ r, (s.link rd t).getReg r = if r = rd ∧ r ≠ 0 then s.pc + 1 else s.getReg r) ∧ (s.link rd t).pc = t ∧
      (s.link rd t).regs[0] = s.regs[0] ∧ (s.link rd t).data = s.data ∧ (s.link rd t).status = s.status ∧
      (s.link rd t).image = s.image ∧ (s.link rd t).params = s.params ∧ (s.link rd t).draws = s.draws := by
  refine ⟨fun r => ?_, ?_, ?_, ?_, ?_, ?_, ?_, ?_⟩ <;> simp [State.link, getReg_setReg]

/-! ## The host -/

/-- The host keeps the registers of 60_exceptions.md R275. -/
theorem hostRegs_preserved (old new : Vector Word 32) (i : Nat) (h : i < 32) (hp : hostPreserves i = true) :
    (hostRegs old new)[i] = old[i] := by
  simp [hostRegs, hp]

/-- The host may set any other register to any value. -/
theorem hostRegs_other (old new : Vector Word 32) (i : Nat) (h : i < 32) (hp : hostPreserves i = false) :
    (hostRegs old new)[i] = new[i] := by
  simp [hostRegs, hp]

/-- The three ways a reply can leave the state. -/
theorem applyReply_cases (s : State) (n : Imm15) (r : HostReply) :
    (r.outcome = .returned ∧ s.applyReply n r = { (s.hostEffect r).advance with status := .running }) ∨
    (r.outcome = .stop ∧ s.applyReply n r = (s.hostEffect r).raise (.hostFault n)) ∨
    (r.outcome = .never ∧ s.applyReply n r = s) := by
  unfold State.applyReply
  cases h : r.outcome with
  | returned => exact .inl ⟨rfl, rfl⟩
  | stop => exact .inr (.inl ⟨rfl, rfl⟩)
  | never => exact .inr (.inr ⟨rfl, rfl⟩)

/-! ## Placing a word for the fetch -/

theorem placeWord_getElem? (text : List Word) (i : Nat) (w : Word) : (placeWord text i w)[i]? = some w := by
  unfold placeWord
  rw [List.getElem?_set_self]
  simp
  omega

end Sys2Proof.Machine
end

