-- ==== Sys2Proof/Laws/Exec.lean ====
section
/-! SUPPORT. What executing one instruction can do, said once over all of them: it takes an exception of its own, writes
its destination register and goes on, stores and goes on, jumps, halts, or hands over to the host. -/

namespace Sys2Proof.Machine

/-- The exceptions an instruction can take, and in which states (60_exceptions.md R260, R270). -/
def RaisedBy (i : Instr) (s : State) : Exc → Prop
  | .breakpoint => i = .brk
  | .misalignedAccess a => ∃ rs1 imm n, accessOf i = some (rs1, imm, n) ∧ a = s.effAddr rs1 imm ∧
      a.toNat % n.bytes ≠ 0 ∧ s.params.unalignedSupport = false
  | .memoryFault a => ∃ rs1 imm n, accessOf i = some (rs1, imm, n) ∧ a = s.effAddr rs1 imm ∧
      s.image.dataSize < a.toNat + n.bytes
  | .divideByZero => s.params.divZero = .fault ∧ ∃ rd r1 r2, (i = .div rd r1 r2 ∨ i = .rem rd r1 r2) ∧ s.getReg r2 = 0
  | .divideOverflow => s.params.divOverflow = .fault ∧
      ((∃ rd r1 r2, i = .div rd r1 r2 ∨ i = .rem rd r1 r2) ∨ ∃ rd r1 imm, i = .divi rd r1 imm ∨ i = .remi rd r1 imm)
  | .invalidInstruction w => w = encode i ∧ i.wf = false
  | .fetchFault _ => False
  | .hostFault _ => False

/-- What executing an instruction can leave. -/
inductive ExecShape (i : Instr) (s t : State) : Prop where
  /-- It took an exception of its own. -/
  | raised (e : Exc) (by_ : RaisedBy i s e) (eq : t = s.raise e)
  /-- It wrote its destination register and went on. -/
  | wrote (rd : Reg) (v : Word) (d : Nat) (dest : destOf i = some rd) (jump : isJump i = false)
      (wrote : WroteRegister s t rd v d) (zero : t.regs[0] = s.regs[0])
  /-- It stored and went on. -/
  | stored (rs1 : Reg) (imm : Imm15) (n : Width) (v : Word) (store : isStore i = true)
      (access : accessOf i = some (rs1, imm, n)) (checked : s.checkAccess (s.effAddr rs1 imm) n = none)
      (eq : t = { s with data := s.data.writeLE (s.effAddr rs1 imm).toNat n.bytes v.toNat, pc := s.pc + 1 })
  /-- It is a jump or a branch. -/
  | jumped (jump : isJump i = true) (regs : ∀ r, destOf i ≠ some r → t.getReg r = s.getReg r)
      (zero : t.regs[0] = s.regs[0]) (data : t.data = s.data) (status : t.status = s.status)
      (image : t.image = s.image) (params : t.params = s.params) (draws : t.draws = s.draws)
  /-- It is `eret`. -/
  | halted (instr : i = .eret) (eq : t = { s with status := .halted })
  /-- It is `ecall`. -/
  | called (n : Imm15) (instr : i = .ecall n) (eq : t = { s with status := .inHost n })

variable {i : Instr} {s : State}

theorem shape_writeNext {rd : Reg} {v : Word} (hd : destOf i = some rd) (hj : isJump i = false) :
    ExecShape i s (s.writeNext rd v) :=
  .wrote rd v 0 hd hj (writeNext_wrote s rd v) (writeNext_regs_zero s rd v)

theorem shape_writeValue {site : DrawSite} {a b : Word} {rd : Reg} {v : Value} (hd : destOf i = some rd)
    (hj : isJump i = false) : ExecShape i s (s.writeValue site a b rd v) :=
  .wrote rd _ _ hd hj (writeValue_wrote s site a b rd v) (writeValue_regs_zero s site a b rd v)

theorem shape_access_raise {rs1 : Reg} {imm : Imm15} {n : Width} {e : Exc} (ha : accessOf i = some (rs1, imm, n))
    (he : s.checkAccess (s.effAddr rs1 imm) n = some e) : ExecShape i s (s.raise e) := by
  refine .raised e ?_ rfl
  rcases checkAccess_cases s (s.effAddr rs1 imm) n with ⟨h, hm, hu⟩ | ⟨h, -, hr⟩ | ⟨h, -⟩
  · rw [h] at he; cases he; exact ⟨rs1, imm, n, ha, rfl, hm, hu⟩
  · rw [h] at he; cases he; exact ⟨rs1, imm, n, ha, rfl, hr⟩
  · rw [h] at he; cases he

theorem shape_load {rd rs1 : Reg} {imm : Imm15} {n : Width} {ext : Nat → Word} (hd : destOf i = some rd)
    (hj : isJump i = false) (ha : accessOf i = some (rs1, imm, n)) :
    ExecShape i s (s.load rd (s.effAddr rs1 imm) n ext) := by
  rcases load_cases s rd (s.effAddr rs1 imm) n ext with ⟨e, he, h⟩ | ⟨-, h⟩
  · rw [h]; exact shape_access_raise ha he
  · rw [h]; exact shape_writeNext hd hj

theorem shape_store {rs1 : Reg} {imm : Imm15} {n : Width} {v : Word} (hs : isStore i = true)
    (ha : accessOf i = some (rs1, imm, n)) : ExecShape i s (s.store (s.effAddr rs1 imm) n v) := by
  rcases store_cases s (s.effAddr rs1 imm) n v with ⟨e, he, h⟩ | ⟨hc, h⟩
  · rw [h]; exact shape_access_raise ha he
  · exact .stored rs1 imm n v hs ha hc h

theorem shape_branch {taken : Bool} {imm : Imm15} (hj : isJump i = true) : ExecShape i s (s.branch taken imm) := by
  rw [branch_eq]
  exact .jumped hj (fun _ _ => rfl) rfl rfl rfl rfl rfl rfl

theorem shape_link {rd : Reg} {t : Word} (hj : isJump i = true) (hd : destOf i = some rd) :
    ExecShape i s (s.link rd t) := by
  obtain ⟨hr, -, h0, h1, h2, h3, h4, h5⟩ := link_spec s rd t
  refine .jumped hj (fun r h => ?_) h0 h1 h2 h3 h4 h5
  rw [hr r, if_neg]
  rintro ⟨rfl, -⟩
  exact h hd

/-- The exceptions of a truncating division. -/
theorem truncating_error {p : DivOverflow} {f : Int → Int → Int} {a b : Word} {e : Exc}
    (h : truncating p f a b = .error e) : p = .fault ∧ e = .divideOverflow := by
  unfold truncating at h
  split at h
  · cases p with
    | wrap => simp at h
    | unspecified => simp at h
    | fault => simp at h; exact ⟨rfl, h.symm⟩
  · simp at h

/-- The exceptions of a truncating division by a register. -/
theorem truncatingReg_error {p : Params} {f : Int → Int → Int} {a b : Word} {e : Exc}
    (h : truncatingReg p f a b = .error e) :
    (p.divZero = .fault ∧ b = 0 ∧ e = .divideByZero) ∨ (p.divOverflow = .fault ∧ e = .divideOverflow) := by
  unfold truncatingReg at h
  split at h
  · rename_i hb
    cases hz : p.divZero with
    | fault => rw [hz] at h; simp at h; exact .inl ⟨rfl, hb, h.symm⟩
    | unspecified => rw [hz] at h; simp at h
  · exact .inr (truncating_error h)

theorem shape_divImm {site : DrawSite} {rd rs1 : Reg} {imm : Imm15} {f : Int → Int → Int}
    (hi : i = .divi rd rs1 imm ∨ i = .remi rd rs1 imm) :
    ExecShape i s (if imm = 0 then s.raise (.invalidInstruction (encode i)) else
      s.writeOrRaise site (s.getReg rs1) (sext15 imm) rd (truncating s.params.divOverflow f (s.getReg rs1) (sext15 imm))) := by
  split
  · rename_i h0
    refine .raised (.invalidInstruction (encode i)) ⟨rfl, ?_⟩ rfl
    rcases hi with rfl | rfl <;> simp [Instr.wf, h0]
  · rcases writeOrRaise_cases s site (s.getReg rs1) (sext15 imm) rd
      (truncating s.params.divOverflow f (s.getReg rs1) (sext15 imm)) with ⟨e, he, h⟩ | ⟨v, -, h⟩
    · obtain ⟨hp, rfl⟩ := truncating_error he
      rw [h]
      exact .raised .divideOverflow ⟨hp, .inr ⟨rd, rs1, imm, hi⟩⟩ rfl
    · rw [h]
      rcases hi with rfl | rfl <;> exact shape_writeValue rfl rfl

theorem shape_divReg {site : DrawSite} {rd rs1 rs2 : Reg} {f : Int → Int → Int}
    (hi : i = .div rd rs1 rs2 ∨ i = .rem rd rs1 rs2) :
    ExecShape i s (s.writeOrRaise site (s.getReg rs1) (s.getReg rs2) rd
      (truncatingReg s.params f (s.getReg rs1) (s.getReg rs2))) := by
  rcases writeOrRaise_cases s site (s.getReg rs1) (s.getReg rs2) rd
    (truncatingReg s.params f (s.getReg rs1) (s.getReg rs2)) with ⟨e, he, h⟩ | ⟨v, -, h⟩
  · rw [h]
    rcases truncatingReg_error he with ⟨hz, hb, rfl⟩ | ⟨ho, rfl⟩
    · exact .raised .divideByZero ⟨hz, rd, rs1, rs2, hi, hb⟩ rfl
    · exact .raised .divideOverflow ⟨ho, .inl ⟨rd, rs1, rs2, hi⟩⟩ rfl
  · rw [h]
    rcases hi with rfl | rfl <;> exact shape_writeValue rfl rfl

/-- What executing any instruction can leave. -/
theorem exec_shape (i : Instr) (s : State) : ∃ t, exec i s = .next t ∧ ExecShape i s t := by
  cases i with
  | brk => exact ⟨_, rfl, .raised .breakpoint rfl rfl⟩
  | eret => exact ⟨_, rfl, .halted rfl rfl⟩
  | ecall n => exact ⟨_, rfl, .called n rfl rfl⟩
  | sw _ _ _ | sh _ _ _ | sb _ _ _ => exact ⟨_, rfl, shape_store rfl rfl⟩
  | lw _ _ _ | lh _ _ _ | lb _ _ _ | lhu _ _ _ | lbu _ _ _ => exact ⟨_, rfl, shape_load rfl rfl rfl⟩
  | addi _ _ _ | subi _ _ _ | andi _ _ _ | xori _ _ _ | ori _ _ _ | muli _ _ _ | fci _ _ =>
    exact ⟨_, rfl, shape_writeNext rfl rfl⟩
  | slli _ _ _ | srli _ _ _ | srai _ _ _ | icf _ _ | roundf _ _ | ceilf _ _ | floorf _ _ =>
    exact ⟨_, rfl, shape_writeValue rfl rfl⟩
  | divi _ _ _ => exact ⟨_, rfl, shape_divImm (.inl rfl)⟩
  | remi _ _ _ => exact ⟨_, rfl, shape_divImm (.inr rfl)⟩
  | add _ _ _ | sub _ _ _ | and _ _ _ | xor _ _ _ | or _ _ _ | mul _ _ _ =>
    exact ⟨_, rfl, shape_writeNext rfl rfl⟩
  | sll _ _ _ | srl _ _ _ | sra _ _ _ | addf _ _ _ | subf _ _ _ | mulf _ _ _ | divf _ _ _ | sqrtf _ _ =>
    exact ⟨_, rfl, shape_writeValue rfl rfl⟩
  | div _ _ _ => exact ⟨_, rfl, shape_divReg (.inl rfl)⟩
  | rem _ _ _ => exact ⟨_, rfl, shape_divReg (.inr rfl)⟩
  | jalr _ _ _ | jal _ _ => exact ⟨_, rfl, shape_link rfl rfl⟩
  | beq _ _ _ | bne _ _ _ | blt _ _ _ | bge _ _ _ | bltu _ _ _ | bgeu _ _ _ | bltf _ _ _ | bgef _ _ _ =>
    exact ⟨_, rfl, shape_branch rfl⟩
  | lui _ _ | lif _ _ => exact ⟨_, rfl, shape_writeNext rfl rfl⟩

end Sys2Proof.Machine
end

