-- ==== Sys2Proof/Laws/Loader.lean ====
section
/-! SUPPORT. Loading, the host's acts before start-up, and start-up: one lemma per field and per operation. -/

namespace Sys2Proof.Machine

variable (f : PlgFile) (l : Loaded) (x : Vector Word 32) (p : Params) (d : Nat) (r : Reg) (v : Word)

/-! ## Loading -/

@[simp] theorem load_regs : (f.load x p).regs = x.set 0 0 := rfl
@[simp] theorem load_data : (f.load x p).data = ⟨cellsOf 0 f.data⟩ := rfl
@[simp] theorem load_image : (f.load x p).image = f.image := rfl
@[simp] theorem load_params : (f.load x p).params = p := rfl

/-! ## The host before start-up -/

@[simp] theorem loaded_setReg_data : (l.setReg r v).data = l.data := by unfold Loaded.setReg; split <;> rfl
@[simp] theorem loaded_setReg_image : (l.setReg r v).image = l.image := by unfold Loaded.setReg; split <;> rfl
@[simp] theorem loaded_setReg_params : (l.setReg r v).params = l.params := by unfold Loaded.setReg; split <;> rfl

/-- A byte is written where it lies inside the data space, and nothing else changes. -/
theorem loaded_setByte_eq_some {l m : Loaded} {a : Word} {b : Byte} :
    l.setByte a b = some m ↔ a.toNat < l.image.dataSize ∧ { l with data := l.data.writeByte a.toNat b } = m := by
  unfold Loaded.setByte
  split <;> simp_all

/-! ## Start-up -/

@[simp] theorem start_regs : (l.start d).regs = l.regs := rfl
@[simp] theorem start_pc : (l.start d).pc = l.image.resetVector := rfl
@[simp] theorem start_data : (l.start d).data = l.data := rfl
@[simp] theorem start_status : (l.start d).status = .running := rfl
@[simp] theorem start_image : (l.start d).image = l.image := rfl
@[simp] theorem start_params : (l.start d).params = l.params := rfl
@[simp] theorem start_draws : (l.start d).draws = d := rfl

end Sys2Proof.Machine
end

