-- ==== Sys2Proof/Laws/PerInstr.lean ====
section
/-! SUPPORT. A family of facts about every instruction as syntax, one lemma for each constructor: the register an
instruction writes is the one its word names at bits 11:7 (30_encoding.md R75, 10_state.md R35). -/

open Sys2Proof Sys2Proof.Machine

/-- The destination register of an instruction, where it has one, is the field at bits 11:7 of its word. -/
def Sys2Proof.Laws.DestinationField.Statement (i : Instr) : Prop := ∀ r, destOf i = some r → rdOf (encode i) = r

namespace Sys2Proof.Laws.DestinationField

theorem brk : Statement .brk := nofun
theorem eret : Statement .eret := nofun
theorem ecall (imm : Imm15) : Statement (.ecall imm) := nofun
theorem sw (rd rs1 : Reg) (imm : Imm15) : Statement (.sw rd rs1 imm) := nofun
theorem sh (rd rs1 : Reg) (imm : Imm15) : Statement (.sh rd rs1 imm) := nofun
theorem sb (rd rs1 : Reg) (imm : Imm15) : Statement (.sb rd rs1 imm) := nofun
theorem lw (rd rs1 : Reg) (imm : Imm15) : Statement (.lw rd rs1 imm) := fun _ h => by cases h; exact rdOf_encRri ..
theorem lh (rd rs1 : Reg) (imm : Imm15) : Statement (.lh rd rs1 imm) := fun _ h => by cases h; exact rdOf_encRri ..
theorem lb (rd rs1 : Reg) (imm : Imm15) : Statement (.lb rd rs1 imm) := fun _ h => by cases h; exact rdOf_encRri ..
theorem lhu (rd rs1 : Reg) (imm : Imm15) : Statement (.lhu rd rs1 imm) := fun _ h => by cases h; exact rdOf_encRri ..
theorem lbu (rd rs1 : Reg) (imm : Imm15) : Statement (.lbu rd rs1 imm) := fun _ h => by cases h; exact rdOf_encRri ..
theorem addi (rd rs1 : Reg) (imm : Imm15) : Statement (.addi rd rs1 imm) := fun _ h => by cases h; exact rdOf_encRri ..
theorem subi (rd rs1 : Reg) (imm : Imm15) : Statement (.subi rd rs1 imm) := fun _ h => by cases h; exact rdOf_encRri ..
theorem andi (rd rs1 : Reg) (imm : Imm15) : Statement (.andi rd rs1 imm) := fun _ h => by cases h; exact rdOf_encRri ..
theorem xori (rd rs1 : Reg) (imm : Imm15) : Statement (.xori rd rs1 imm) := fun _ h => by cases h; exact rdOf_encRri ..
theorem ori (rd rs1 : Reg) (imm : Imm15) : Statement (.ori rd rs1 imm) := fun _ h => by cases h; exact rdOf_encRri ..
theorem slli (rd rs1 : Reg) (imm : Imm15) : Statement (.slli rd rs1 imm) := fun _ h => by cases h; exact rdOf_encRri ..
theorem srli (rd rs1 : Reg) (imm : Imm15) : Statement (.srli rd rs1 imm) := fun _ h => by cases h; exact rdOf_encRri ..
theorem srai (rd rs1 : Reg) (imm : Imm15) : Statement (.srai rd rs1 imm) := fun _ h => by cases h; exact rdOf_encRri ..
theorem muli (rd rs1 : Reg) (imm : Imm15) : Statement (.muli rd rs1 imm) := fun _ h => by cases h; exact rdOf_encRri ..
theorem divi (rd rs1 : Reg) (imm : Imm15) : Statement (.divi rd rs1 imm) := fun _ h => by cases h; exact rdOf_encRri ..
theorem remi (rd rs1 : Reg) (imm : Imm15) : Statement (.remi rd rs1 imm) := fun _ h => by cases h; exact rdOf_encRri ..
theorem icf (rd rs1 : Reg) : Statement (.icf rd rs1) := fun _ h => by cases h; exact rdOf_encRri ..
theorem fci (rd rs1 : Reg) : Statement (.fci rd rs1) := fun _ h => by cases h; exact rdOf_encRri ..
theorem roundf (rd rs1 : Reg) : Statement (.roundf rd rs1) := fun _ h => by cases h; exact rdOf_encRri ..
theorem ceilf (rd rs1 : Reg) : Statement (.ceilf rd rs1) := fun _ h => by cases h; exact rdOf_encRri ..
theorem floorf (rd rs1 : Reg) : Statement (.floorf rd rs1) := fun _ h => by cases h; exact rdOf_encRri ..
theorem add (rd rs1 rs2 : Reg) : Statement (.add rd rs1 rs2) := fun _ h => by cases h; exact rdOf_encRrr ..
theorem sub (rd rs1 rs2 : Reg) : Statement (.sub rd rs1 rs2) := fun _ h => by cases h; exact rdOf_encRrr ..
theorem and (rd rs1 rs2 : Reg) : Statement (.and rd rs1 rs2) := fun _ h => by cases h; exact rdOf_encRrr ..
theorem xor (rd rs1 rs2 : Reg) : Statement (.xor rd rs1 rs2) := fun _ h => by cases h; exact rdOf_encRrr ..
theorem or (rd rs1 rs2 : Reg) : Statement (.or rd rs1 rs2) := fun _ h => by cases h; exact rdOf_encRrr ..
theorem sll (rd rs1 rs2 : Reg) : Statement (.sll rd rs1 rs2) := fun _ h => by cases h; exact rdOf_encRrr ..
theorem srl (rd rs1 rs2 : Reg) : Statement (.srl rd rs1 rs2) := fun _ h => by cases h; exact rdOf_encRrr ..
theorem sra (rd rs1 rs2 : Reg) : Statement (.sra rd rs1 rs2) := fun _ h => by cases h; exact rdOf_encRrr ..
theorem mul (rd rs1 rs2 : Reg) : Statement (.mul rd rs1 rs2) := fun _ h => by cases h; exact rdOf_encRrr ..
theorem div (rd rs1 rs2 : Reg) : Statement (.div rd rs1 rs2) := fun _ h => by cases h; exact rdOf_encRrr ..
theorem rem (rd rs1 rs2 : Reg) : Statement (.rem rd rs1 rs2) := fun _ h => by cases h; exact rdOf_encRrr ..
theorem addf (rd rs1 rs2 : Reg) : Statement (.addf rd rs1 rs2) := fun _ h => by cases h; exact rdOf_encRrr ..
theorem subf (rd rs1 rs2 : Reg) : Statement (.subf rd rs1 rs2) := fun _ h => by cases h; exact rdOf_encRrr ..
theorem mulf (rd rs1 rs2 : Reg) : Statement (.mulf rd rs1 rs2) := fun _ h => by cases h; exact rdOf_encRrr ..
theorem divf (rd rs1 rs2 : Reg) : Statement (.divf rd rs1 rs2) := fun _ h => by cases h; exact rdOf_encRrr ..
theorem sqrtf (rd rs1 : Reg) : Statement (.sqrtf rd rs1) := fun _ h => by cases h; exact rdOf_encRrr ..
theorem jalr (rd rs1 : Reg) (imm : Imm15) : Statement (.jalr rd rs1 imm) := fun _ h => by cases h; exact rdOf_encRri ..
theorem beq (rs1 rs2 : Reg) (imm : Imm15) : Statement (.beq rs1 rs2 imm) := nofun
theorem bne (rs1 rs2 : Reg) (imm : Imm15) : Statement (.bne rs1 rs2 imm) := nofun
theorem blt (rs1 rs2 : Reg) (imm : Imm15) : Statement (.blt rs1 rs2 imm) := nofun
theorem bge (rs1 rs2 : Reg) (imm : Imm15) : Statement (.bge rs1 rs2 imm) := nofun
theorem bltu (rs1 rs2 : Reg) (imm : Imm15) : Statement (.bltu rs1 rs2 imm) := nofun
theorem bgeu (rs1 rs2 : Reg) (imm : Imm15) : Statement (.bgeu rs1 rs2 imm) := nofun
theorem bltf (rs1 rs2 : Reg) (imm : Imm15) : Statement (.bltf rs1 rs2 imm) := nofun
theorem bgef (rs1 rs2 : Reg) (imm : Imm15) : Statement (.bgef rs1 rs2 imm) := nofun
theorem lui (rd : Reg) (imm : Imm20) : Statement (.lui rd imm) := fun _ h => by cases h; exact rdOf_encRi ..
theorem lif (rd : Reg) (imm : Imm20) : Statement (.lif rd imm) := fun _ h => by cases h; exact rdOf_encRi ..
theorem jal (rd : Reg) (imm : Imm20) : Statement (.jal rd imm) := fun _ h => by cases h; exact rdOf_encRi ..

end Sys2Proof.Laws.DestinationField
end

