-- ==== Sys2Proof/Laws/Run.lean ====
section
/-! SUPPORT. A run and its events one step at a time, so that later proofs need not unfold them. -/

namespace Sys2Proof.Machine

variable {s t : State} {n : Imm15} (fuel : Nat)

theorem run_running (h : s.status = .running) (hs : step s = .next t) : run (fuel + 1) s = run fuel t := by
  simp [run, h, hs]

theorem run_serving (h : s.status = .inHost n) (hs : step s = .next t) : run (fuel + 1) s = run fuel t := by
  simp [run, h, hs]

/-- A step of the VM shows the event of the state it hands over, if it hands over. -/
theorem events_running (h : s.status = .running) (hs : step s = .next t) :
    events (fuel + 1) s = t.ecallEvent.toList ++ events fuel t := by
  simp [events, h, hs]

/-- The host's own step shows no event. -/
theorem events_serving (h : s.status = .inHost n) (hs : step s = .next t) : events (fuel + 1) s = events fuel t := by
  simp [events, h, hs]

end Sys2Proof.Machine
end

