-- ==== Sys2Proof/Laws/Step.lean ====
section
/-! SUPPORT. What one step can do: the cases of `step` and of a VM step, from which every invariant is derived. -/

namespace Sys2Proof.Machine

/-- A VM step faults on the fetch, refuses the word, or executes the decoded instruction. -/
theorem vmStep_cases (s : State) :
    (s.fetch = none ∧ vmStep s = .next (s.raise (.fetchFault s.pc))) ∨
    (∃ w, s.fetch = some w ∧ decode w = none ∧ vmStep s = .next (s.raise (.invalidInstruction w))) ∨
    (∃ w i, s.fetch = some w ∧ decode w = some i ∧ vmStep s = exec i s) := by
  unfold vmStep
  cases hf : s.fetch with
  | none => exact .inl ⟨rfl, rfl⟩
  | some w =>
    cases hd : decode w with
    | none => exact .inr (.inl ⟨w, rfl, hd, by simp [hd]⟩)
    | some i => exact .inr (.inr ⟨w, i, rfl, hd, by simp [hd]⟩)

/-- A step that answers a next state is a VM step, the host's step, or the resumption after `break`. -/
theorem step_next {s s' : State} (h : step s = .next s') :
    (s.status = .running ∧ vmStep s = .next s') ∨
    (∃ n, s.status = .inHost n ∧ s' = s.hostStep n) ∨
    (s.status = .stopped .breakpoint ∧ s.params.breakResume = true ∧ s' = s.resumeBreak) := by
  unfold step at h
  cases hs : s.status with
  | running => rw [hs] at h; exact .inl ⟨rfl, h⟩
  | inHost n =>
    rw [hs] at h
    injection h with h
    exact .inr (.inl ⟨n, rfl, h.symm⟩)
  | halted => rw [hs] at h; cases h
  | stopped e =>
    rw [hs] at h
    simp only at h
    split at h
    · rename_i t hr
      injection h with h
      obtain ⟨h1, h2, rfl⟩ := hostResume_eq_some.mp hr
      exact .inr (.inr ⟨hs ▸ h1, h2, h.symm⟩)
    · cases h

end Sys2Proof.Machine
end

