-- ==== Sys2Proof/Machine/Assembly.lean ====
section
/-! DEFINITION. Names and spellings, which no step depends on: the ABI's register names and savers (46_abi.md R220,
R221), its C type sizes (R224), the assembler forms and the pseudo-instructions (30_encoding.md R84 to R88). -/

namespace Sys2Proof.Machine

/-- The names of registers 0 to 31 (46_abi.md R220). -/
def abiNames : List String :=
  ["zero", "ra", "sp", "fp", "a0", "a1", "a2", "a3", "a4", "a5", "a6", "a7"]
    ++ ["t0", "t1", "t2", "t3", "t4", "t5", "t6", "t7", "t8", "t9"]
    ++ ["s0", "s1", "s2", "s3", "s4", "s5", "s6", "s7", "s8", "s9"]

/-- The register of a name; numeric names are not accepted (30_encoding.md R85). -/
def regByName (n : String) : Option Reg := (abiNames.findIdx? (· == n)).map (BitVec.ofNat 5)

/-- Who preserves a register across a call (46_abi.md R220, R221); `zero` has no saver. -/
inductive Saver where
  | nobody | caller | callee
  deriving DecidableEq, Repr

/-- The saver column (46_abi.md R220). -/
def saver (r : Reg) : Saver :=
  if r = 0 then .nobody
  else if r = 2 ∨ r = 3 ∨ 22 ≤ r.toNat then .callee
  else .caller

/-- The C types of 46_abi.md R224. -/
inductive CType where
  | char | short | int | long | longLong | pointer | float | double | longDouble
  deriving DecidableEq, Repr

/-- Their sizes in bytes; `double` and `long double` are undefined by the source (46_abi.md R225). -/
def CType.size : CType → Option Nat
  | .char => some 1
  | .short => some 2
  | .int => some 4
  | .long => some 4
  | .longLong => some 8
  | .pointer => some 4
  | .float => some 4
  | .double => none
  | .longDouble => none

/-- An operand of an assembly line (30_encoding.md R84). -/
inductive Operand where
  | reg (r : Reg)
  | imm (z : Int)
  deriving DecidableEq, Repr

/-- A number written for a field that is zero-extended (or not extended): 0 to the maximum; one that does not fit is
refused (30_encoding.md R86, R87). -/
def fitsUnsigned (n : Nat) (z : Int) : Option (BitVec n) := if 0 ≤ z ∧ z < 2 ^ n then some (BitVec.ofInt n z) else none

/-- A number written for a field that is sign-extended (30_encoding.md R86, R87). -/
def fitsSigned (n : Nat) (z : Int) : Option (BitVec n) :=
  if -2 ^ (n - 1) ≤ z ∧ z < 2 ^ (n - 1) then some (BitVec.ofInt n z) else none

/-- `rd rs1 imm` with a zero-extended immediate (30_encoding.md R86). -/
def asmRriUnsigned : String → Option (Reg → Reg → Imm15 → Instr)
  | "sw" => some .sw
  | "sh" => some .sh
  | "sb" => some .sb
  | "lw" => some .lw
  | "lh" => some .lh
  | "lb" => some .lb
  | "lhu" => some .lhu
  | "lbu" => some .lbu
  | "addi" => some .addi
  | "subi" => some .subi
  | "slli" => some .slli
  | "srli" => some .srli
  | "srai" => some .srai
  | "jalr" => some .jalr
  | _ => none

/-- `rd rs1 imm` or, for a branch, `rs1 rs2 imm`, with a sign-extended immediate (30_encoding.md R86). -/
def asmRriSigned : String → Option (Reg → Reg → Imm15 → Instr)
  | "andi" => some .andi
  | "xori" => some .xori
  | "ori" => some .ori
  | "muli" => some .muli
  | "divi" => some .divi
  | "remi" => some .remi
  | "beq" => some .beq
  | "bne" => some .bne
  | "blt" => some .blt
  | "bge" => some .bge
  | "bltu" => some .bltu
  | "bgeu" => some .bgeu
  | "bltf" => some .bltf
  | "bgef" => some .bgef
  | _ => none

/-- `rd rs1`, the pseudo-instructions `mv` and `not` among them (30_encoding.md R86, R88). -/
def asmUnary : String → Option (Reg → Reg → Instr)
  | "icf" => some .icf
  | "fci" => some .fci
  | "roundf" => some .roundf
  | "ceilf" => some .ceilf
  | "floorf" => some .floorf
  | "sqrtf" => some .sqrtf
  | "mv" => some fun rd rs1 => .addi rd rs1 0
  | "not" => some fun rd rs1 => .xori rd rs1 (-1)
  | _ => none

/-- `rd rs1 rs2` (30_encoding.md R86). -/
def asmRrr : String → Option (Reg → Reg → Reg → Instr)
  | "add" => some .add
  | "sub" => some .sub
  | "and" => some .and
  | "xor" => some .xor
  | "or" => some .or
  | "sll" => some .sll
  | "srl" => some .srl
  | "sra" => some .sra
  | "mul" => some .mul
  | "div" => some .div
  | "rem" => some .rem
  | "addf" => some .addf
  | "subf" => some .subf
  | "mulf" => some .mulf
  | "divf" => some .divf
  | _ => none

/-- `rd imm` (30_encoding.md R86): the immediates of `lui` and `jal` are not sign-extended, that of `lif` is. -/
def asmRi (m : String) (rd : Reg) (z : Int) : Option Instr :=
  match m with
  | "lui" => (fitsUnsigned 20 z).map (.lui rd)
  | "lif" => (fitsSigned 20 z).map (.lif rd)
  | "jal" => (fitsUnsigned 20 z).map (.jal rd)
  | _ => none

/-- No operand, the pseudo-instruction `nop` among them (30_encoding.md R86, R88). -/
def asmNone : String → Option Instr
  | "break" => some .brk
  | "eret" => some .eret
  | "nop" => some (.addi 0 0 0)
  | _ => none

/-- The instruction of a line's form (30_encoding.md R86); `none` for a line of no form. -/
def assembleForm (m : String) : List Operand → Option Instr
  | [] => asmNone m
  | [.imm z] => if m = "ecall" then (fitsUnsigned 15 z).map .ecall else none
  | [.reg rd, .imm z] => asmRi m rd z
  | [.reg rd, .reg rs1] => (asmUnary m).map fun f => f rd rs1
  | [.reg rd, .reg rs1, .reg rs2] => (asmRrr m).map fun f => f rd rs1 rs2
  | [.reg r, .reg q, .imm z] =>
    match asmRriUnsigned m with
    | some f => (fitsUnsigned 15 z).map (f r q)
    | none => (asmRriSigned m).bind fun f => (fitsSigned 15 z).map (f r q)
  | _ => none

/-- The assembler (30_encoding.md R84 to R88): a line whose instruction is no legal encoding (R81) is refused too. -/
def assemble (m : String) (ops : List Operand) : Option Instr := (assembleForm m ops).filter Instr.wf

end Sys2Proof.Machine
end

