-- ==== Sys2Proof/Tests/Slice0.lean ====
section
/-! SUPPORT. Tests: the expected words and results are those of 95_test_vectors.md and of the rules' own examples; then
a witness for the hypotheses of every obligation that has some. -/

namespace Sys2Proof.Tests

open Sys2Proof Sys2Proof.Machine

/-! ## The states tests start from -/

/-- The data space of the memory vectors (95_test_vectors.md): byte `i` holds `0x11 * i`. -/
def mem16 : Memory := ⟨(List.range 15).map fun i => (i + 1, BitVec.ofNat 8 (17 * (i + 1)))⟩

/-- The registers of a list, all others zero. -/
def testRegs : List (Nat × Word) → Vector Word 32
  | [] => Vector.replicate 32 0
  | (i, v) :: rest => (testRegs rest).set! i v

/-- Word `w` at `pc`, `eret` at word 0, 16 bytes of data space, status `Running`. -/
def at_ (pc : Nat) (regs : List (Nat × Word)) (w : Word) (p : Params := {}) : State where
  regs := testRegs regs
  pc := BitVec.ofNat 32 pc
  data := mem16
  status := .running
  image := { dataLen := 16, bssLen := 0, resetVector := 0, syms := [{ offset := 1, name := [] }],
             text := placeWord [0x00000001] pc w }
  params := p
  draws := 0

/-- A register and the pc after one step that keeps the VM running. -/
def after (r : Reg) (s : State) : Option (Word × Word) :=
  match step s with
  | .next t => if t.status = .running then some (t.getReg r, t.pc) else none
  | _ => none

/-- The status after one step that leaves registers, data and pc as they were. -/
def stopsWith (s : State) : Option Status :=
  match step s with
  | .next t => if t = { s with status := t.status } then some t.status else none
  | _ => none

/-- Some bytes of the data space after one step. -/
def bytesAfter (a n : Nat) (s : State) : Option (List Byte) :=
  match step s with
  | .next t => some ((List.range n).map fun k => t.data.readByte (a + k))
  | _ => none

/-! ## WellFormed: ill-formed terms are refused (30_encoding.md R81) -/

theorem test_wf_refuses_divi_by_zero : Instr.wf (.divi 4 5 0) = false := by decide
theorem test_wf_refuses_remi_by_zero : Instr.wf (.remi 0 0 0) = false := by decide
theorem test_wf_accepts_divi_by_one : Instr.wf (.divi 4 5 1) = true := by decide

/-! ## Decoding: one word for every instruction, written out from the spec -/

theorem test_decode_brk : decode 0x00000000 = some (.brk) := by decide
theorem test_decode_eret : decode 0x00000001 = some (.eret) := by decide
theorem test_decode_ecall : decode 0xFFFE0002 = some (.ecall 0x7FFF) := by decide
theorem test_decode_sw : decode 0x00102611 = some (.sw 12 2 8) := by decide
theorem test_decode_sh : decode 0x00280692 = some (.sh 13 0 20) := by decide
theorem test_decode_sb : decode 0x003E0213 = some (.sb 4 0 31) := by decide
theorem test_decode_lw : decode 0x0008C215 = some (.lw 4 12 4) := by decide
theorem test_decode_lh : decode 0x0004C216 = some (.lh 4 12 2) := by decide
theorem test_decode_lb : decode 0x001E0217 = some (.lb 4 0 15) := by decide
theorem test_decode_lhu : decode 0x0004C219 = some (.lhu 4 12 2) := by decide
theorem test_decode_lbu : decode 0x001E021A = some (.lbu 4 0 15) := by decide
theorem test_decode_addi : decode 0xFFFE5220 = some (.addi 4 5 0x7FFF) := by decide
theorem test_decode_subi : decode 0x0002C621 = some (.subi 12 12 1) := by decide
theorem test_decode_andi : decode 0xFFE05222 = some (.andi 4 5 0x7FF0) := by decide
theorem test_decode_xori : decode 0xFFFE5223 = some (.xori 4 5 0x7FFF) := by decide
theorem test_decode_ori : decode 0x80005224 = some (.ori 4 5 0x4000) := by decide
theorem test_decode_slli : decode 0x00405225 = some (.slli 4 5 32) := by decide
theorem test_decode_srli : decode 0x00085226 = some (.srli 4 5 4) := by decide
theorem test_decode_srai : decode 0x00505227 = some (.srai 4 5 40) := by decide
theorem test_decode_muli : decode 0xFFFA5228 = some (.muli 4 5 (-3)) := by decide
theorem test_decode_divi : decode 0xFFFC5229 = some (.divi 4 5 (-2)) := by decide
theorem test_decode_remi : decode 0x0004522A = some (.remi 4 5 2) := by decide
theorem test_decode_icf : decode 0x0000522B = some (.icf 4 5) := by decide
theorem test_decode_fci : decode 0x0000522C = some (.fci 4 5) := by decide
theorem test_decode_roundf : decode 0x000075AD = some (.roundf 11 7) := by decide
theorem test_decode_ceilf : decode 0x0000522E = some (.ceilf 4 5) := by decide
theorem test_decode_floorf : decode 0x0000522F = some (.floorf 4 5) := by decide
theorem test_decode_add : decode 0x000C5230 = some (.add 4 5 6) := by decide
theorem test_decode_sub : decode 0x000C5231 = some (.sub 4 5 6) := by decide
theorem test_decode_and : decode 0x000C5232 = some (.and 4 5 6) := by decide
theorem test_decode_xor : decode 0x000C5233 = some (.xor 4 5 6) := by decide
theorem test_decode_or : decode 0x000C5234 = some (.or 4 5 6) := by decide
theorem test_decode_sll : decode 0x000C5235 = some (.sll 4 5 6) := by decide
theorem test_decode_srl : decode 0x000C5236 = some (.srl 4 5 6) := by decide
theorem test_decode_sra : decode 0x000C5237 = some (.sra 4 5 6) := by decide
theorem test_decode_mul : decode 0x000C5238 = some (.mul 4 5 6) := by decide
theorem test_decode_div : decode 0x000A46B9 = some (.div 13 4 5) := by decide
theorem test_decode_rem : decode 0x000C523A = some (.rem 4 5 6) := by decide
theorem test_decode_addf : decode 0x000C523B = some (.addf 4 5 6) := by decide
theorem test_decode_subf : decode 0x000C523C = some (.subf 4 5 6) := by decide
theorem test_decode_mulf : decode 0x000A433D = some (.mulf 6 4 5) := by decide
theorem test_decode_divf : decode 0x000C523E = some (.divf 4 5 6) := by decide
theorem test_decode_sqrtf : decode 0x0000663F = some (.sqrtf 12 6) := by decide
theorem test_decode_jalr : decode 0x0006C0C0 = some (.jalr 1 12 3) := by decide
theorem test_decode_beq : decode 0xFFFC42C1 = some (.beq 4 5 (-2)) := by decide
theorem test_decode_bne : decode 0xFFFCC042 = some (.bne 12 0 (-2)) := by decide
theorem test_decode_blt : decode 0x000A42C3 = some (.blt 4 5 5) := by decide
theorem test_decode_bge : decode 0x000442C4 = some (.bge 4 5 2) := by decide
theorem test_decode_bltu : decode 0x000442C5 = some (.bltu 4 5 2) := by decide
theorem test_decode_bgeu : decode 0x000442C6 = some (.bgeu 4 5 2) := by decide
theorem test_decode_bltf : decode 0x00045247 = some (.bltf 5 4 2) := by decide
theorem test_decode_bgef : decode 0x000A42C8 = some (.bgef 4 5 5) := by decide
theorem test_decode_lui : decode 0x12345650 = some (.lui 12 0x12345) := by decide
theorem test_decode_lif : decode 0x80000251 = some (.lif 4 0x80000) := by decide
theorem test_decode_jal : decode 0xFFFFF052 = some (.jal 0 0xFFFFF) := by decide

/-! ## Words that are no instruction (95_test_vectors.md 2.1, 2.2) -/

theorem test_no_instruction_reserved_0 : decode 0x00000010 = none := by decide
theorem test_no_instruction_reserved_4 : decode 0x00000014 = none := by decide
theorem test_no_instruction_reserved_8 : decode 0x00000018 = none := by decide
theorem test_no_instruction_unlisted_memory : decode 0x0000001B = none := by decide
theorem test_no_instruction_unlisted_system : decode 0x00000003 = none := by decide
theorem test_no_instruction_unlisted_branch : decode 0x00000049 = none := by decide
theorem test_no_instruction_unlisted_ri : decode 0x00000053 = none := by decide
theorem test_no_instruction_opcode_6 : decode 0x00000060 = none := by decide
theorem test_no_instruction_all_ones : decode 0xFFFFFFFF = none := by decide
theorem test_no_instruction_imm10 : decode 0x004C5230 = none := by decide
theorem test_no_instruction_sqrtf_rs2 : decode 0x000C523F = none := by decide
theorem test_no_instruction_icf_imm : decode 0x0002522B = none := by decide
theorem test_no_instruction_divi_zero : decode 0x00005229 = none := by decide
theorem test_no_instruction_remi_zero : decode 0x0000002A = none := by decide
theorem test_no_instruction_eret_rd : decode 0x00000081 = none := by decide
theorem test_no_instruction_eret_imm : decode 0x00020001 = none := by decide
theorem test_no_instruction_ecall_rs1 : decode 0x000A1002 = none := by decide

/-! ## One step (95_test_vectors.md 2.1 to 2.7): register `a0` (or the link register) and the pc -/

theorem test_break : stopsWith (at_ 1 [] 0x00000000) = some (.stopped .breakpoint) := by decide
theorem test_eret : stopsWith (at_ 1 [] 0x00000001) = some (.halted) := by decide
theorem test_ecall : stopsWith (at_ 1 [(2, 0x100), (22, 7)] 0x000A0002) = some (.inHost 5) := by decide
theorem test_invalid_word : stopsWith (at_ 1 [(5, 5)] 0x00005229) =
    some (.stopped (.invalidInstruction 0x00005229)) := by
  decide
theorem test_fetch_fault : stopsWith { at_ 1 [] 0x00000020 with pc := 2 } = some (.stopped (.fetchFault 2)) := by
  decide
theorem test_lw : after 4 (at_ 1 [(12, 4)] 0x0008C215) = some (0xBBAA9988, 2) := by decide
theorem test_lhu_address_wraps : after 4 (at_ 1 [(12, 0xFFFFFFFC)] 0x0010C219) = some (0x00005544, 2) := by decide
theorem test_lh : after 4 (at_ 1 [(12, 8)] 0x0004C216) = some (0xFFFFBBAA, 2) := by decide
theorem test_lhu : after 4 (at_ 1 [(12, 8)] 0x0004C219) = some (0x0000BBAA, 2) := by decide
theorem test_lh_unaligned : after 4 (at_ 1 [] 0x001A0216 { unalignedSupport := true }) = some (0xFFFFEEDD, 2) := by
  decide
theorem test_lb : after 4 (at_ 1 [] 0x001E0217) = some (0xFFFFFFFF, 2) := by decide
theorem test_lbu : after 4 (at_ 1 [] 0x001E021A) = some (0x000000FF, 2) := by decide
theorem test_sw : bytesAfter 11 5 (at_ 1 [(4, 0xDEADBEEF), (12, 12)] 0x0000C211) =
    some [0xBB, 0xEF, 0xBE, 0xAD, 0xDE] := by
  decide
theorem test_sh : bytesAfter 5 4 (at_ 1 [(4, 0xDEADBEEF), (12, 5)] 0x0002C212) = some [0x55, 0xEF, 0xBE, 0x88] := by
  decide
theorem test_sb : bytesAfter 6 3 (at_ 1 [(4, 0xDEADBEEF), (12, 7)] 0x0000C213) = some [0x66, 0xEF, 0x88] := by decide
theorem test_sh_misaligned : stopsWith (at_ 1 [] 0x001A0212) = some (.stopped (.misalignedAccess 13)) := by decide
theorem test_lw_to_zero_outside : stopsWith (at_ 1 [] 0x00200015) = some (.stopped (.memoryFault 16)) := by decide
theorem test_sw_outside : stopsWith (at_ 1 [(4, 1)] 0x00200211) = some (.stopped (.memoryFault 16)) := by decide
theorem test_lb_sign_extended_offset : stopsWith (at_ 1 [(12, 0xFFFF8005)] 0xFFFEC217 { memImmExt := .sext }) =
    some (.stopped (.memoryFault 0xFFFF8004)) := by
  decide
theorem test_addi : after 4 (at_ 1 [(5, 1)] 0xFFFE5220) = some (0x00008000, 2) := by decide
theorem test_addi_wraps : after 4 (at_ 1 [(5, 0xFFFFFFFF)] 0x00025220) = some (0, 2) := by decide
theorem test_subi : after 4 (at_ 1 [(5, 0)] 0x00025221) = some (0xFFFFFFFF, 2) := by decide
theorem test_andi : after 4 (at_ 1 [(5, 0x12345678)] 0xFFE05222) = some (0x12345670, 2) := by decide
theorem test_andi_short : after 4 (at_ 1 [(5, 0x12345678)] 0x01FE5222) = some (0x78, 2) := by decide
theorem test_xori : after 4 (at_ 1 [(5, 0x12345678)] 0xFFFE5223) = some (0xEDCBA987, 2) := by decide
theorem test_ori : after 4 (at_ 1 [(5, 1)] 0x80005224) = some (0xFFFFC001, 2) := by decide
theorem test_slli : after 4 (at_ 1 [(5, 0x12345678)] 0x00085225) = some (0x23456780, 2) := by decide
theorem test_slli_32 : after 4 (at_ 1 [(5, 0x12345678)] 0x00405225) = some (0, 2) := by decide
theorem test_srli : after 4 (at_ 1 [(5, 0x87654321)] 0x00085226) = some (0x08765432, 2) := by decide
theorem test_srai : after 4 (at_ 1 [(5, 0x87654321)] 0x00085227) = some (0xF8765432, 2) := by decide
theorem test_srai_40 : after 4 (at_ 1 [(5, 0x87654321)] 0x00505227) = some (0xFFFFFFFF, 2) := by decide
theorem test_muli : after 4 (at_ 1 [(5, 7)] 0xFFFA5228) = some (0xFFFFFFEB, 2) := by decide
theorem test_muli_wraps : after 4 (at_ 1 [(5, 0x00020001)] 0x7FFE5228) = some (0x7FFE3FFF, 2) := by decide
theorem test_divi : after 4 (at_ 1 [(5, 0xFFFFFFF9)] 0x00045229) = some (0xFFFFFFFD, 2) := by decide
theorem test_divi_overflow : after 4 (at_ 1 [(5, 0x80000000)] 0xFFFE5229) = some (0x80000000, 2) := by decide
theorem test_remi : after 4 (at_ 1 [(5, 0xFFFFFFF9)] 0x0004522A) = some (0xFFFFFFFF, 2) := by decide
theorem test_add_to_itself : after 4 (at_ 1 [(4, 0x80000001)] 0x00084230) = some (2, 2) := by decide
theorem test_sub : after 4 (at_ 1 [(6, 1)] 0x000C5231) = some (0xFFFFFFFF, 2) := by decide
theorem test_and : after 4 (at_ 1 [(5, 0xF0F0F0F0), (6, 0x0FF00FF0)] 0x000C5232) = some (0x00F000F0, 2) := by decide
theorem test_xor : after 4 (at_ 1 [(5, 0xF0F0F0F0), (6, 0x0FF00FF0)] 0x000C5233) = some (0xFF00FF00, 2) := by decide
theorem test_or : after 4 (at_ 1 [(5, 0xF0F0F0F0), (6, 0x0FF00FF0)] 0x000C5234) = some (0xFFF0FFF0, 2) := by decide
theorem test_sll : after 4 (at_ 1 [(5, 1), (6, 31)] 0x000C5235) = some (0x80000000, 2) := by decide
theorem test_sll_32 : after 4 (at_ 1 [(5, 1), (6, 32)] 0x000C5235) = some (0, 2) := by decide
theorem test_srl : after 4 (at_ 1 [(5, 0x80000000), (6, 31)] 0x000C5236) = some (1, 2) := by decide
theorem test_sra : after 4 (at_ 1 [(5, 0x80000000), (6, 31)] 0x000C5237) = some (0xFFFFFFFF, 2) := by decide
theorem test_sra_huge : after 4 (at_ 1 [(5, 0x80000000), (6, 0xFFFFFFFF)] 0x000C5237) = some (0xFFFFFFFF, 2) := by
  decide
theorem test_mul : after 4 (at_ 1 [(5, 0x10000), (6, 0x10000)] 0x000C5238) = some (0, 2) := by decide
theorem test_mul_negative : after 4 (at_ 1 [(5, 0xFFFFFFFF), (6, 0xFFFFFFFF)] 0x000C5238) = some (1, 2) := by decide
theorem test_div : after 4 (at_ 1 [(5, 0xFFFFFFF9), (6, 2)] 0x000C5239) = some (0xFFFFFFFD, 2) := by decide
theorem test_rem : after 4 (at_ 1 [(5, 0xFFFFFFF9), (6, 2)] 0x000C523A) = some (0xFFFFFFFF, 2) := by decide
theorem test_add_to_zero : after 0 (at_ 1 [(5, 1), (6, 2)] 0x000C5030) = some (0, 2) := by decide
theorem test_srl_mask5 : after 4 (at_ 1 [(5, 0x80000000), (6, 32)] 0x000C5236 { shiftPolicy := .mask5 }) =
    some (0x80000000, 2) := by
  decide
theorem test_div_by_zero : stopsWith (at_ 1 [(5, 7)] 0x000C5239) = some (.stopped .divideByZero) := by decide
theorem test_rem_by_zero_to_zero : stopsWith (at_ 1 [(5, 7)] 0x0000503A) = some (.stopped .divideByZero) := by decide
theorem test_remi_overflow_fault : stopsWith (at_ 1 [(5, 0x80000000)] 0xFFFE522A { divOverflow := .fault }) =
    some (.stopped .divideOverflow) := by
  decide

/-! ## Floating point (95_test_vectors.md 2.4, 2.5) -/

theorem test_icf : after 4 (at_ 1 [(5, 0xC0200000)] 0x0000522B) = some (0xFFFFFFFE, 2) := by decide
theorem test_fci : after 4 (at_ 1 [(5, 0xFFFFFFFF)] 0x0000522C) = some (0xBF800000, 2) := by decide
theorem test_fci_tie : after 4 (at_ 1 [(5, 0x01000001)] 0x0000522C) = some (0x4B800000, 2) := by decide
theorem test_roundf : after 4 (at_ 1 [(5, 0xC0200000)] 0x0000522D) = some (0xC0400000, 2) := by decide
theorem test_roundf_below_half : after 4 (at_ 1 [(5, 0x3EFFFFFF)] 0x0000522D) = some (0, 2) := by decide
theorem test_ceilf : after 4 (at_ 1 [(5, 0xBF000000)] 0x0000522E) = some (0x80000000, 2) := by decide
theorem test_floorf : after 4 (at_ 1 [(5, 0xBFC00000)] 0x0000522F) = some (0xC0000000, 2) := by decide
theorem test_addf : after 4 (at_ 1 [(5, 0x3F800000), (6, 0x40000000)] 0x000C523B) = some (0x40400000, 2) := by
  decide
theorem test_addf_tie : after 4 (at_ 1 [(5, 0x4B800000), (6, 0x3F800000)] 0x000C523B) = some (0x4B800000, 2) := by
  decide
theorem test_subf_zero : after 4 (at_ 1 [(5, 0x3F800000), (6, 0x3F800000)] 0x000C523C) = some (0, 2) := by
  decide
theorem test_mulf_overflow : after 4 (at_ 1 [(5, 0x7F7FFFFF), (6, 0x40000000)] 0x000C523D) =
    some (0x7F800000, 2) := by
  decide
theorem test_mulf_subnormal : after 4 (at_ 1 [(5, 0x00800000), (6, 0x3F000000)] 0x000C523D) =
    some (0x00400000, 2) := by
  decide
theorem test_divf : after 4 (at_ 1 [(5, 0x3F800000), (6, 0x40400000)] 0x000C523E) = some (0x3EAAAAAB, 2) := by
  decide
theorem test_divf_by_zero : after 4 (at_ 1 [(5, 0x3F800000), (6, 0x80000000)] 0x000C523E) = some (0xFF800000, 2) := by
  decide
theorem test_sqrtf : after 4 (at_ 1 [(5, 0x40000000)] 0x0000523F) = some (0x3FB504F3, 2) := by decide +kernel
theorem test_sqrtf_zero : after 4 (at_ 1 [(5, 0x80000000)] 0x0000523F) = some (0x80000000, 2) := by decide
theorem test_subf_nan_canonical : after 4 (at_ 1 [(5, 0x7F800000), (6, 0x7F800000)] 0x000C523C { nanResult := .canonical }) =
    some (0x7FC00000, 2) := by
  decide
theorem test_icf_saturates : after 4 (at_ 1 [(5, 0x4F000000)] 0x0000522B { icfInvalid := .saturate }) =
    some (0x7FFFFFFF, 2) := by
  decide

/-! ## Jumps and branches (95_test_vectors.md 2.6, 2.7) -/

theorem test_jalr : after 1 (at_ 7 [(12, 0x100)] 0x0008C0C0) = some (8, 0x104) := by decide
theorem test_jalr_to_its_base : after 12 (at_ 7 [(12, 0x100)] 0x0002C640) = some (8, 0x101) := by decide
theorem test_beq_taken : after 4 (at_ 10 [(4, 5), (5, 5)] 0x000642C1) = some (5, 13) := by decide
theorem test_beq_not_taken : after 4 (at_ 10 [(4, 5), (5, 6)] 0x000642C1) = some (5, 11) := by decide
theorem test_bne : after 4 (at_ 10 [(4, 5), (5, 6)] 0xFFF842C2) = some (5, 6) := by decide
theorem test_blt : after 5 (at_ 10 [(4, 0xFFFFFFFF), (5, 1)] 0x000442C3) = some (1, 12) := by decide
theorem test_bltu : after 5 (at_ 10 [(4, 0xFFFFFFFF), (5, 1)] 0x000442C5) = some (1, 11) := by decide
theorem test_bge : after 4 (at_ 10 [(4, 0x80000000), (5, 0x7FFFFFFF)] 0x000442C4) = some (0x80000000, 11) := by decide
theorem test_bge_equal : after 4 (at_ 10 [(4, 3), (5, 3)] 0x000442C4) = some (3, 12) := by decide
theorem test_bgeu : after 4 (at_ 10 [(4, 0x80000000), (5, 0x7FFFFFFF)] 0x000442C6) = some (0x80000000, 12) := by
  decide
theorem test_bltf : after 5 (at_ 10 [(4, 0xBF800000), (5, 0x3F800000)] 0x000442C7) = some (0x3F800000, 12) := by
  decide
theorem test_bltf_zeros : after 5 (at_ 10 [(4, 0x80000000)] 0x000442C7) = some (0, 11) := by decide
theorem test_bgef_zeros : after 5 (at_ 10 [(4, 0x80000000)] 0x000442C8) = some (0, 12) := by decide
theorem test_bgef_nan : after 5 (at_ 10 [(4, 0x7FC00000)] 0x000442C8) = some (0, 11) := by decide
theorem test_bgeu_wraps_below_zero : after 4 (at_ 10 [] 0x80000046) = some (0, 0xFFFFC00A) := by decide
theorem test_lui : after 4 (at_ 1 [] 0xFFFFF250) = some (0xFFFFF000, 2) := by decide
theorem test_lif : after 4 (at_ 1 [] 0x80000251) = some (0xC9000000, 2) := by decide
theorem test_lif_minus_one : after 4 (at_ 1 [] 0xFFFFF251) = some (0xBF800000, 2) := by decide
theorem test_jal : after 1 (at_ 3 [] 0x000060D2) = some (4, 6) := by decide
theorem test_jal_to_zero : after 0 (at_ 3 [] 0xFFFFF052) = some (0, 0x000FFFFF) := by decide
/-! ## Reset, fetch of a placed word, host, loader, names -/

/-- Nothing is loaded at reset (log entry 1): the first step is the fetch fault at 0 (60_exceptions.md R265). -/
theorem test_reset_has_no_program : stopsWith State.reset = some (.stopped (.fetchFault 0)) := by decide
theorem test_reset_pc_and_status : State.reset.pc = 0 ∧ State.reset.status = .running := by decide
theorem test_placed_word_runs : after 12 (State.reset.withFetchWord 32 0x00140620) = some (10, 1) := by decide
theorem test_table_word : decodeTableWord 32 0x000A0002 = some (.ecall 5) := by decide

/-- An `ecall 5` being served (95_test_vectors.md 2.1). -/
def serving : State := { at_ 1 [(2, 0x100), (22, 7), (4, 1), (12, 2)] 0x000A0002 with status := .inHost 5 }

/-- A reply that tries to change every register and writes a byte. -/
def reply (o : HostOutcome) : HostReply := { regs := Vector.replicate 32 9, writes := [(3, 0xAB), (16, 1)], outcome := o }

theorem test_host_returns : (serving.applyReply 5 (reply .returned)).status = .running ∧
    (serving.applyReply 5 (reply .returned)).pc = 2 ∧
    [0, 2, 22, 4, 12, 1].map (serving.applyReply 5 (reply .returned)).getReg = [0, 0x100, 7, 9, 9, 9] := by decide
theorem test_host_writes_inside : (serving.applyReply 5 (reply .returned)).data.readByte 3 = 0xAB ∧
    (serving.applyReply 5 (reply .returned)).data.readByte 16 = 0 := by decide
theorem test_host_stops : (serving.applyReply 5 (reply .stop)).status = .stopped (.hostFault 5) ∧
    (serving.applyReply 5 (reply .stop)).pc = 1 := by decide
theorem test_no_host : ({ serving with params := { noHost := true } } : State).hostStep 5 =
    { serving with params := { noHost := true }, status := .stopped (.hostFault 5), draws := 1 } := by decide
/-- The event of P7: function 3, `a0 = 7`. -/
theorem test_ecall_event :
    ({ at_ 3 [(4, 7)] 0x00060002 with status := .inHost 3 } : State).ecallEvent.map (fun e => (e.number, e.args)) =
      some (3, [7, 0, 0, 0, 0, 0, 0, 0]) := by decide
theorem test_ends : ({ serving with status := .halted } : State).normalEnd = true ∧
    ({ serving with status := .stopped .breakpoint } : State).abnormalEnd = true ∧ serving.abnormalEnd = false := by
  decide
theorem test_run_stops_at_eret : (run 5 (at_ 1 [(4, 24)] 0x00000001)).status = .halted ∧
    (run 5 (at_ 1 [(4, 24)] 0x00000001)).results.head? = some 24 := by decide
/-- The trace of P7 with no host: the one event `(3, a0 = 7, ...)`, then `HostFault(3)` at the `ecall`. -/
theorem test_trace : (trace 5 (at_ 3 [(4, 7)] 0x00060002 { noHost := true })).events =
      [{ number := 3, args := [7, 0, 0, 0, 0, 0, 0, 0], data := mem16 }] ∧
    (trace 5 (at_ 3 [(4, 7)] 0x00060002 { noHost := true })).final.status = .stopped (.hostFault 3) := by decide
theorem test_host_call : (({ serving with status := .halted } : State).hostCall 0 [7, 8] 3).map
    (fun t => (t.pc, t.status, [1, 4, 5, 12].map t.getReg)) = some (1, .running, [3, 7, 8, 2]) := by decide
theorem test_resume_after_break : (({ at_ 1 [] 0 { breakResume := true } with status := .stopped .breakpoint } : State).hostResume).map
    (fun t => (t.pc, t.status)) = some (2, .running) := by decide
theorem test_no_resume_by_default : ({ at_ 1 [] 0 with status := .stopped .breakpoint } : State).hostResume = none := by
  decide
/-- A host that never returns: the call has no outcome (40_system.md R103). -/
theorem test_host_never_returns : serving.applyReply 5 (reply .never) = serving := by decide
theorem test_host_sets_register : (({ serving with status := .halted } : State).hostSetReg 2 5).map (·.getReg 2) = some 5 := by
  decide
theorem test_host_sets_byte : (({ serving with status := .halted } : State).hostSetByte 15 5).map (·.data.readByte 15) =
    some 5 ∧ ({ serving with status := .halted } : State).hostSetByte 16 5 = none := by decide

/-- The header, the symbol, the data and the text of the file image P8 (95_test_vectors.md), with three bytes open. -/
def p8 (dataLen symOffset word0 : Byte) : List Byte :=
  [0x50, 0x6C, 0x67, 0x00, dataLen, 0, 0, 0, 0x10, 0, 0, 0, 0x07, 0, 0, 0, 0x01] ++ List.replicate 47 0
    ++ [symOffset, 0, 0, 0, 0x73, 0x75, 0x6D] ++ List.replicate 57 0
    ++ (List.range 16).map (BitVec.ofNat 8)
    ++ [word0, 0, 0, 0, 0x20, 0x06, 0x14, 0x00, 0x20, 0x02, 0x00, 0x00, 0x30, 0x42, 0x18, 0x00]
    ++ [0x21, 0xC6, 0x02, 0x00, 0x42, 0xC0, 0xFC, 0xFF, 0x01, 0x00, 0x00, 0x00]

/-- What the loader answers, without the fields. -/
def refusal (bs : List Byte) : Option LoadError :=
  match parseFile bs with
  | .error e => some e
  | .ok _ => none

theorem test_p8_accepted : refusal (p8 16 1 1) = none ∧ (p8 16 1 1).length = 172 ∧ fileLength (p8 16 1 1) = 172 := by
  decide +kernel
theorem test_files_refused : [p8 8 1 1, p8 16 0 1, p8 16 1 0, (p8 16 1 1).take 171, 0 :: p8 16 1 1].map refusal =
    [some .dataLenNotMultipleOf16, some .symbolOffsetZero, some .wordZeroNotEret, some .tooShort, some .badMagic] := by
  decide +kernel
theorem test_p8_fields : (fileFields (p8 16 1 1)).text[1]? = some 0x00140620 ∧
    (fileFields (p8 16 1 1)).image.dataSize = 32 ∧ (fileFields (p8 16 1 1)).syms.map (·.offset) = [1] := by decide

/-- P8 at start-up. -/
def started : State := (fileFields (p8 16 1 1)).startUp (Vector.replicate 32 5) {} 0

theorem test_start_up : started.pc = 0 ∧ started.getReg 0 = 0 ∧ started.getReg 2 = 5 ∧ started.data.readByte 15 = 15 ∧
    started.data.readByte 16 = 0 := by decide
theorem test_start_up_halts_at_once : stopsWith started = some .halted := by decide

/-- A byte of the bss and a register written between load and start-up (20_memory.md R61). -/
theorem test_writes_before_start_up :
    ((((fileFields (p8 16 1 1)).load (Vector.replicate 32 5) {}).setReg 2 0x100).setByte 31 7).map
      (fun l => ((l.start 0).getReg 2, (l.start 0).data.readByte 31, (l.start 0).pc)) = some (0x100, 7, 0) := by
  decide +kernel

/-! The pseudo-instructions S1 to S3 and the register names (30_encoding.md R85, R88, 46_abi.md R220, R224). -/

theorem test_nop : (assemble "nop" []).map encode = some 0x00000020 := by decide
theorem test_mv : (assemble "mv" [.reg 4, .reg 5]).map encode = some 0x00005220 := by decide
theorem test_not : (assemble "not" [.reg 4, .reg 5]).map encode = some 0xFFFE5223 := by decide
theorem test_asm_store : (assemble "sw" [.reg 12, .reg 2, .imm 8]).map encode = some 0x00102611 := by decide
theorem test_asm_too_large : assemble "addi" [.reg 4, .reg 5, .imm (-1)] = none := by decide
theorem test_asm_divi_zero : assemble "divi" [.reg 4, .reg 5, .imm 0] = none := by decide
theorem test_register_names : regByName "a0" = some 4 ∧ regByName "s9" = some 31 ∧ regByName "x4" = none := by
  decide
theorem test_savers : saver 0 = .nobody ∧ saver 1 = .caller ∧ saver 3 = .callee ∧ saver 21 = .caller ∧
    saver 22 = .callee := by decide
theorem test_sizes : CType.long.size = some 4 ∧ CType.longLong.size = some 8 ∧ CType.double.size = none := by decide

/-! ## Witnesses: states and operands that meet an obligation's hypotheses together -/

theorem witness_DecodeOfEncodeIsTheInstruction : Instr.wf (.divi 4 5 1) = true := by decide
theorem witness_EncodeOfDecodeIsTheWord : decode 0x00045229 = some (.divi 4 5 2) := by decide
theorem witness_IllegalWord_cause_1 : IllegalWord 0x00000018 := by decide
theorem witness_IllegalWord_cause_2 : IllegalWord 0x0000001B ∧ IllegalWord 0x00000053 := by decide
theorem witness_IllegalWord_cause_3 : IllegalWord 0x00000081 ∧ IllegalWord 0x004C5230 := by decide
theorem witness_IllegalWord_cause_3_sqrtf : IllegalWord 0x0002003F := by decide
theorem witness_IllegalWord_cause_4 : IllegalWord 0x00005229 ∧ ¬IllegalWord 0x00025229 := by decide

/-- A running state at word 1, the instruction `addi a0 a1 1`. -/
def going : State := at_ 1 [(5, 0xFFFFFFFF)] 0x00025220

theorem witness_StepExecutesTheDecodedInstruction : going.status = .running ∧
    going.image.text[going.pc.toNat]? = some 0x00025220 ∧ decode 0x00025220 = some (.addi 4 5 1) := by decide
theorem witness_FetchOutsideTheTextStops : ({ going with pc := 2 } : State).status = .running ∧
    ({ going with pc := 2 } : State).image.text.length ≤ ({ going with pc := 2 } : State).pc.toNat := by decide
theorem witness_IllegalWordStops : (at_ 1 [] 0x00000010).status = .running ∧
    (at_ 1 [] 0x00000010).image.text[(at_ 1 [] 0x00000010).pc.toNat]? = some 0x00000010 ∧ IllegalWord 0x00000010 := by
  decide
theorem witness_RunningMachineAlwaysSteps : going.status = .running := by decide
theorem witness_EndedRunTakesNoStep_halted : ({ going with status := .halted } : State).status = .halted := by decide
theorem witness_EndedRunTakesNoStep_stopped : ({ going with status := .stopped .breakpoint } : State).status =
    .stopped .breakpoint ∧ going.params.breakResume = false := by decide
theorem witness_BreakpointIsTheOneResumableStop : (at_ 1 [] 0 { breakResume := true }).params.breakResume = true ∧
    ({ at_ 1 [] 0 { breakResume := true } with status := .stopped .breakpoint } : State).status =
      .stopped .breakpoint := by decide
theorem witness_BreakpointIsTheOneResumableStop_other : going.status ≠ .stopped .breakpoint ∧
    going.params.breakResume = false := by decide
theorem witness_PlacedWordIsExecutedNext : decode 0x00025220 = some (.addi 4 5 1) ∧ 0 ≠ going.pc.toNat ∧
    0 < going.image.text.length := by decide
theorem witness_PlacedWordIsExecutedNext_padded : ({ going with pc := 4 } : State).image.text.length ≤ 3 ∧
    3 < ({ going with pc := 4 } : State).pc.toNat := by decide

theorem witness_StepKeepsInvariant : going.Inv ∧ ∃ t, step going = .next t := ⟨by decide, _, rfl⟩
theorem witness_StepKeepsInvariant_host : serving.Inv ∧ step serving = .next (serving.hostStep 5) :=
  ⟨by decide, rfl⟩
theorem witness_StepKeepsInvariant_resume :
    ({ at_ 1 [] 0 { breakResume := true } with status := .stopped .breakpoint } : State).Inv ∧
      ∃ t, step { at_ 1 [] 0 { breakResume := true } with status := .stopped .breakpoint } = .next t :=
  ⟨by decide, _, rfl⟩
theorem witness_StartedFileSatisfiesInvariant_writes : (⟨going.regs, mem16, going.image, {}⟩ : Loaded).Inv ∧
    ((⟨going.regs, mem16, going.image, {}⟩ : Loaded).setByte 15 0).isSome = true := by decide

/-- A halted state at an `eret`. -/
def ended : State := { at_ 0 [(12, 2)] 0x00000001 with status := .halted }

theorem witness_HostActionsKeepInvariant_call : ended.Inv ∧ ∃ t, ended.hostCall 0 [7] 5 = some t := ⟨by decide, _, rfl⟩
theorem witness_HostActionsKeepInvariant_resume :
    ({ at_ 1 [] 0 { breakResume := true } with status := .stopped .breakpoint } : State).Inv ∧
      ∃ t, ({ at_ 1 [] 0 { breakResume := true } with status := .stopped .breakpoint } : State).hostResume = some t := ⟨by decide, _, rfl⟩
theorem witness_HostActionsKeepInvariant_register : ended.Inv ∧ ∃ t, ended.hostSetReg 2 5 = some t := ⟨by decide, _, rfl⟩
theorem witness_HostActionsKeepInvariant_byte : ended.Inv ∧ ∃ t, ended.hostSetByte 15 5 = some t := ⟨by decide, _, rfl⟩

theorem witness_LoadedFileNeverChanges : ∃ t, step going = .next t := ⟨_, rfl⟩
theorem witness_OnlyEretEndsARunNormally : ∃ t, step (at_ 1 [] 0x00000001) = .next t ∧ t.status = .halted := ⟨_, rfl, rfl⟩
theorem witness_ExceptionsArePrecise : (at_ 1 [] 0x001C0215).status = .running ∧
    ∃ t, step (at_ 1 [] 0x001C0215) = .next t ∧ t.status = .stopped (.misalignedAccess 14) := ⟨rfl, _, rfl, by decide⟩
theorem witness_OnlyEcallCallsTheHost : (at_ 1 [] 0x000A0002).status = .running ∧
    ∃ t, step (at_ 1 [] 0x000A0002) = .next t ∧ t.status = .inHost 5 := ⟨rfl, _, rfl, rfl⟩
theorem witness_RegisterFrameOfEveryInstruction : destOf (.addi 4 5 1) ≠ some 5 ∧ ∃ t, exec (.addi 4 5 1) going = .next t :=
  ⟨by decide, _, rfl⟩
theorem witness_MemoryFrameOfEveryInstruction_store : accessOf (.sw 4 0 12) = some (0, 12, .word) ∧
    ∃ t, exec (.sw 4 0 12) going = .next t ∧ t.status = .running := ⟨rfl, _, rfl, by decide⟩
theorem witness_MemoryFrameOfEveryInstruction_other : isStore (.lw 4 0 12) = false ∧
    ∃ t, exec (.lw 4 0 12) going = .next t := ⟨rfl, _, rfl⟩
theorem witness_PcOfEveryOtherInstruction_running : going.status = .running ∧ isJump (.addi 4 5 1) = false ∧
    ∃ t, exec (.addi 4 5 1) going = .next t ∧ t.status = .running := ⟨rfl, rfl, _, rfl, by decide⟩
theorem witness_PcOfEveryOtherInstruction_stopped : isJump .brk = false ∧
    ∃ t, exec .brk going = .next t ∧ t.status ≠ .running := ⟨rfl, _, rfl, by decide⟩
theorem witness_InstructionWordsAreNotData : ∃ t, exec (.addi 4 5 1) going = .next t := ⟨_, rfl⟩

theorem witness_HostStepObeysTheCallLaws : serving.status = .inHost 5 ∧
    ∀ c ∈ serving.data.cells, c.1 < serving.image.dataSize := by decide
theorem witness_HostStepObeysTheCallLaws_no_host :
    ({ serving with params := { noHost := true } } : State).params.noHost = true ∧ serving.status = .inHost 5 := by decide
theorem witness_HostMayLeaveAnythingElse : serving.data.wf = true ∧ serving.image.dataSize ≤ 2 ^ 32 := by decide
theorem witness_HostCallEntersTheSymbol : ended.hostHasControl = true ∧
    ended.image.syms[0]? = some { offset := 1, name := [] } ∧ [1, 2, 3, 4, 5, 6, 7, (8 : Word)].length ≤ 8 := by decide

theorem witness_EffectiveAddress_below : ({ going with params := { memImmExt := .sext } } : State).params.memImmExt = .sext ∧
    (0x3FFF : Imm15).toNat < 2 ^ 14 := by decide
theorem witness_EffectiveAddress_from : 2 ^ 14 ≤ (0x4000 : Imm15).toNat ∧ going.params.memImmExt = .zext := by decide
theorem witness_Stores_and_Loads_word : going.data.wf = true ∧ (going.effAddr 0 12).toNat % 4 = 0 ∧
    (going.effAddr 0 12).toNat + 4 ≤ going.image.dataSize := by decide
theorem witness_Stores_and_Loads_short : (going.effAddr 0 14).toNat % 2 = 0 ∧
    (going.effAddr 0 14).toNat + 2 ≤ going.image.dataSize := by decide
theorem witness_Stores_and_Loads_byte : (going.effAddr 0 15).toNat + 1 ≤ going.image.dataSize := by decide
theorem witness_Stores_and_Loads_unaligned : (at_ 1 [] 0 { unalignedSupport := true }).params.unalignedSupport = true ∧
    ((at_ 1 [] 0 { unalignedSupport := true }).effAddr 0 11).toNat + 4 ≤ 16 := by decide
theorem witness_BadAccessStops_misaligned : (going.effAddr 0 14).toNat % 4 ≠ 0 ∧ going.params.unalignedSupport = false := by
  decide
theorem witness_BadAccessStops_outside : (going.effAddr 0 16).toNat % 4 = 0 ∧
    going.image.dataSize < (going.effAddr 0 16).toNat + 1 := by decide
theorem witness_MixedWidthAccess : mem16.wf = true := by decide

theorem witness_Shifts_small : (31 : Imm15).toNat < 32 := by decide
theorem witness_Shifts_large : 32 ≤ (32 : Imm15).toNat ∧ going.params.shiftPolicy = .mathematical ∧
    (at_ 1 [] 0 { shiftPolicy := .mask5 }).params.shiftPolicy = .mask5 ∧
    (at_ 1 [] 0 { shiftPolicy := .unspecified }).params.shiftPolicy = .unspecified := by decide
theorem witness_DivideImmediate : (2 : Imm15) ≠ 0 ∧
    ¬((going.getReg 5).toInt = -2 ^ 31 ∧ (2 : Imm15).toInt = -1) := by decide
theorem witness_DivideImmediate_wraps : (-1 : Imm15) ≠ 0 ∧ going.params.divOverflow = .wrap := by decide
theorem witness_DivideRegister : (at_ 1 [(5, 0x80000000), (6, 0xFFFFFFFF)] 0).getReg 6 ≠ 0 ∧
    (at_ 1 [(5, 0x80000000), (6, 0xFFFFFFFF)] 0).params.divOverflow = .wrap := by decide
theorem witness_DivideByZero : going.getReg 6 = 0 ∧ going.params.divZero = .fault := by decide
theorem witness_DivideByZero_unspecified : (at_ 1 [] 0 { divZero := .unspecified }).getReg 6 = 0 ∧
    (at_ 1 [] 0 { divZero := .unspecified }).params.divZero = .unspecified := by decide
theorem witness_DivideOverflow_fault :
    let s := at_ 1 [(5, 0x80000000), (6, 0xFFFFFFFF)] 0 { divOverflow := .fault }
    (s.getReg 5).toInt = -2 ^ 31 ∧ (s.getReg 6).toInt = -1 ∧ s.params.divOverflow = .fault := by decide
theorem witness_DivideOverflow_unspecified :
    let s := at_ 1 [(5, 0x80000000), (6, 0xFFFFFFFF)] 0 { divOverflow := .unspecified }
    (s.getReg 5).toInt = -2 ^ 31 ∧ (s.getReg 6).toInt = -1 ∧ s.params.divOverflow = .unspecified := by decide
theorem witness_IntegerBranches : going.getReg 5 ≠ going.getReg 6 ∧ (going.getReg 5).toInt < (going.getReg 6).toInt ∧
    ¬(going.getReg 5).toNat < (going.getReg 6).toNat := by decide
theorem witness_FloatBranches : ¬NanWord 0x80000000 ∧ ¬NanWord 0 ∧ ¬orderKey 0x80000000 < orderKey 0 ∧
    NanWord 0x7F800001 := by decide

theorem witness_ValueOfAPattern : (0x007FFFFF : Word).toNat / 2 ^ 23 % 256 = 0 ∧
    (0x00800000 : Word).toNat / 2 ^ 23 % 256 = 1 ∧ (0x7F7FFFFF : Word).toNat / 2 ^ 23 % 256 = 254 ∧
    InfWord 0xFF800000 ∧ NanWord 0x7FC00000 := by decide
theorem witness_RoundingIsToNearestEven : 0 < (2 ^ 25 - 1) * 2 ^ 252 ∧ 0 < 1 := by decide
/-- 1.0, -1.0 and both zeros. -/
theorem witness_finite : unpack 0x3F800000 = .finite false (2 ^ 149) ∧ unpack 0xBF800000 = .finite true (2 ^ 149) ∧
    unpack 0 = .finite false 0 ∧ unpack 0x80000000 = .finite true 0 := by decide
theorem witness_AddAndSubtractFloats : signedUnits false (2 ^ 149) + signedUnits true (2 ^ 149) = 0 ∧
    signedUnits false (2 ^ 149) + signedUnits false (2 ^ 149) ≠ 0 := by decide
theorem witness_MultiplyAndDivideFloats : (0 : Nat) * 2 ^ 149 = 0 ∧ (2 : Nat) ^ 149 * 2 ^ 149 ≠ 0 := by decide
theorem witness_SquareRoot : ZeroWord 0x80000000 ∧ unpack 0x00000001 = .finite false 1 ∧
    2 ^ 31 ≤ (0x80000001 : Word).toNat ∧ ¬ZeroWord 0x80000001 := by decide
theorem witness_NanResultsOfArithmetic : InfWord 0x7F800000 ∧ InfWord 0xFF800000 ∧ ZeroWord 0x80000000 ∧
    NanWord 0xFFFFFFFF := by decide
theorem witness_InfinitiesInArithmetic : InfWord 0xFF800000 ∧ FiniteWord 0x7F7FFFFF ∧ ¬ZeroWord 0x00000001 ∧
    FiniteWord 0x80000000 := by decide
theorem witness_IntegerToFloat : ((0xFF000000 : Word).toInt).natAbs ≤ 2 ^ 24 ∧ (0xFF000000 : Word).toInt ≠ 0 := by decide
theorem witness_FloatToInteger_in_range : unpack 0xCF000000 = .finite true (2 ^ 180) ∧
    -2 ^ 31 ≤ (signedUnits true (2 ^ 180)).tdiv (2 ^ 149) := by decide
theorem witness_FloatToInteger_outside : unpack 0x4F000000 = .finite false (2 ^ 180) ∧
    2 ^ 31 - 1 < (signedUnits false (2 ^ 180)).tdiv (2 ^ 149) ∧ unpack 0x7F800000 = .inf false ∧
    (at_ 1 [] 0 { icfInvalid := .saturate }).params.icfInvalid = .saturate ∧ going.params.icfInvalid = .draw := by
  decide
/-- 2.5 is a tie; the exponent of 2^23 is 150. -/
theorem witness_RoundToIntegral : unpack 0x40200000 = .finite false (5 * 2 ^ 148) ∧
    150 ≤ (0x4B000000 : Word).toNat / 2 ^ 23 % 256 ∧ FiniteWord 0x4B000000 := by decide
theorem witness_FieldsOfAFile_and_StartUp_and_StartedFileSatisfiesInvariant :
    parseFile (p8 16 1 1) = .ok (fileFields (p8 16 1 1)) ∧ (fileFields (p8 16 1 1)).data[15]? = some 15 := by
  decide +kernel
theorem witness_StartUp_byte_inside : (⟨going.regs, mem16, going.image, {}⟩ : Loaded).data.wf = true ∧
    (15 : Word).toNat < (⟨going.regs, mem16, going.image, {}⟩ : Loaded).image.dataSize := by decide
theorem witness_StartUp_byte_outside :
    (⟨going.regs, mem16, going.image, {}⟩ : Loaded).image.dataSize ≤ (16 : Word).toNat := by decide

theorem witness_TraceOfARun_ecall : (at_ 1 [] 0x000A0002).status = .running ∧
    (at_ 1 [] 0x000A0002).image.text[(at_ 1 [] 0x000A0002).pc.toNat]? = some ((5 : Imm15) ++ 0x00002#17) := by decide
theorem witness_TraceOfARun_other : going.status = .running ∧ going.image.text[going.pc.toNat]? = some 0x00025220 ∧
    (0x00025220 : Word).toNat % 2 ^ 17 ≠ 2 ∧ ∃ t, step going = .next t := ⟨by decide, by decide, by decide, _, rfl⟩
theorem witness_TraceOfARun_serving : serving.status = .inHost 5 ∧ step serving = .next (serving.hostStep 5) :=
  ⟨rfl, rfl⟩
theorem witness_TraceOfARun_ended : ended.status = .halted := by decide

end Sys2Proof.Tests
end

section
/-! The obligations of 10_state.md. What executing an instruction can leave is said once, by `ExecShape`; the frames, the pc
and the invariant are each read off its cases. That no instruction sees the text is the one statement about two runs, and
has its own lemma for each shared operation. -/

namespace Sys2Proof.Machine

/-! ## What the decoder answers is legal (30_encoding.md R81) -/

/-- A test of the must-be-zero fields answers nothing ill-formed if the test implies the value restriction. -/
theorem legalIf_all_wf (ok : Bool) (i : Instr) : (legalIf ok i).all Instr.wf = (!ok || i.wf) := by
  cases ok <;> rfl

theorem decodeSystem_all_wf (w : Word) : (decodeSystem w).all Instr.wf = true := by
  unfold decodeSystem
  split <;> simp [legalIf_all_wf, Instr.wf]

theorem decodeMemory_all_wf (w : Word) : (decodeMemory w).all Instr.wf = true := by
  unfold decodeMemory
  split <;> rfl

/-- The tests of `divi` and `remi` are the value restriction itself. -/
theorem decodeImmArith_all_wf (w : Word) : (decodeImmArith w).all Instr.wf = true := by
  unfold decodeImmArith
  split <;> simp [legalIf_all_wf, Instr.wf]

theorem decodeRegArith_all_wf (w : Word) : (decodeRegArith w).all Instr.wf = true := by
  unfold decodeRegArith
  split <;> simp [legalIf_all_wf, Instr.wf]

theorem decodeBranch_all_wf (w : Word) : (decodeBranch w).all Instr.wf = true := by
  unfold decodeBranch
  split <;> rfl

theorem decodeRi_all_wf (w : Word) : (decodeRi w).all Instr.wf = true := by
  unfold decodeRi
  split <;> rfl

/-- A decoded instruction is legal. -/
theorem wf_of_decode {w : Word} {i : Instr} (h : decode w = some i) : i.wf = true := by
  have hall : (decode w).all Instr.wf = true := by
    unfold decode
    split
    · exact decodeSystem_all_wf w
    · exact decodeMemory_all_wf w
    · exact decodeImmArith_all_wf w
    · exact decodeRegArith_all_wf w
    · exact decodeBranch_all_wf w
    · exact decodeRi_all_wf w
    · rfl
  simpa [h] using hall

/-! ## The shape of an execution that answered -/

/-- `exec_shape` for a next state that is already named. -/
theorem shape_of_exec {i : Instr} {s t : State} (h : exec i s = .next t) : ExecShape i s t := by
  obtain ⟨u, hu, shape⟩ := exec_shape i s
  rw [hu] at h
  injection h with h
  exact h ▸ shape

/-! ## The status is true of the word at the pc -/

/-- A running VM claims nothing of the word at the pc. -/
theorem statusHonest_of_running {s : State} (h : s.status = .running) : s.statusHonest = true := by
  simp [State.statusHonest, h]

/-- The word at the pc depends on the text and the pc alone. -/
theorem current_congr {s t : State} (image : t.image = s.image) (pc : t.pc = s.pc) : t.current = s.current := by
  simp [State.current, State.fetch, image, pc]

/-- The stop for a fetch outside the text names the pc, which is outside. -/
theorem raise_fetchFault_honest {s : State} (h : s.fetch = none) : (s.raise (.fetchFault s.pc)).statusHonest = true := by
  have hf : (s.raise (.fetchFault s.pc)).fetch = none := h
  simp [State.statusHonest, hf]

/-- The stop for an illegal word names the word at the pc, which is illegal. -/
theorem raise_invalidInstruction_honest {s : State} {w : Word} (hf : s.fetch = some w) (hd : decode w = none) :
    (s.raise (.invalidInstruction w)).statusHonest = true := by
  have hf' : (s.raise (.invalidInstruction w)).fetch = some w := hf
  simp [State.statusHonest, hf', hd]

/-- An exception that the instruction at the pc takes is a true claim about it. The legal instruction leaves out the one
exception that the decoder, not the instruction, answers for. -/
theorem raise_honest {i : Instr} {s : State} {e : Exc} (hi : s.current = some i) (hwf : i.wf = true)
    (hby : RaisedBy i s e) : (s.raise e).statusHonest = true := by
  have hc : (s.raise e).current = some i := hi
  cases e with
  | breakpoint =>
    cases hby
    simp [State.statusHonest, hc]
  | misalignedAccess a =>
    obtain ⟨rs1, imm, n, hacc, -, hmis, hsup⟩ := hby
    simp [State.statusHonest, hc, hacc, hmis, hsup]
  | memoryFault a =>
    obtain ⟨rs1, imm, n, hacc, -, hout⟩ := hby
    simp [State.statusHonest, hc, hacc, hout]
  | divideByZero =>
    obtain ⟨hpol, rd, r1, r2, rfl | rfl, -⟩ := hby <;> simp [State.statusHonest, hc, hpol]
  | divideOverflow =>
    obtain ⟨hpol, ⟨rd, r1, r2, rfl | rfl⟩ | ⟨rd, r1, imm, rfl | rfl⟩⟩ := hby <;>
      simp [State.statusHonest, hc, hpol]
  | invalidInstruction w =>
    obtain ⟨-, hill⟩ := hby
    rw [hwf] at hill
    cases hill
  | fetchFault a => exact hby.elim
  | hostFault n => exact hby.elim

/-! ## The invariant, clause by clause -/

variable {s t : State}

/-- The invariant for a state with the same file: the sizes stay, the other clauses are to be shown. -/
theorem inv_of_same_image (hs : s.Inv) (image : t.image = s.image) (zero : t.regs[0] = s.regs[0])
    (wf : t.data.wf = true) (bound : ∀ c ∈ t.data.cells, c.1 < s.image.dataSize) (honest : t.statusHonest = true) :
    t.Inv := by
  obtain ⟨hzero, -, -, hdata, hbss, hsize, htext, -⟩ := hs
  unfold State.Inv
  rw [image, zero]
  exact ⟨hzero, wf, bound, hdata, hbss, hsize, htext, honest⟩

/-- The same where the data space is as before too. -/
theorem inv_of_same_data (hs : s.Inv) (image : t.image = s.image) (zero : t.regs[0] = s.regs[0])
    (data : t.data = s.data) (honest : t.statusHonest = true) : t.Inv := by
  obtain ⟨-, hwf, hbound, -⟩ := id hs
  exact inv_of_same_image hs image zero (data ▸ hwf) (data ▸ hbound) honest

/-- Taking an exception keeps every clause but the status's. -/
theorem raise_keeps_inv {e : Exc} (hs : s.Inv) (honest : (s.raise e).statusHonest = true) : (s.raise e).Inv :=
  inv_of_same_data hs rfl rfl rfl honest

/-- An access that passed the checks lies inside the data space (20_memory.md R45, R48). -/
theorem inside_of_checked {a : Word} {n : Width} (h : s.checkAccess a n = none) :
    a.toNat + n.bytes ≤ s.image.dataSize := by
  rcases checkAccess_cases s a n with ⟨hc, -⟩ | ⟨hc, -⟩ | ⟨-, -, hin⟩
  · rw [h] at hc; cases hc
  · rw [h] at hc; cases hc
  · exact hin

/-- The legal instruction at the pc keeps the invariant. -/
theorem exec_keeps_inv {i : Instr} (hs : s.Inv) (running : s.status = .running) (hi : s.current = some i)
    (hwf : i.wf = true) (h : exec i s = .next t) : t.Inv := by
  cases shape_of_exec h with
  | raised e by_ eq => exact eq ▸ raise_keeps_inv hs (raise_honest hi hwf by_)
  | wrote rd v d dest jump wrote zero =>
    obtain ⟨-, -, data, status, image, -⟩ := wrote
    exact inv_of_same_data hs image zero data (statusHonest_of_running (status.trans running))
  | stored rs1 imm n v store access checked eq =>
    subst eq
    obtain ⟨-, hmem, hbound, -⟩ := id hs
    exact inv_of_same_image hs rfl rfl (writeLE_wf _ _ _ hmem) (writeLE_bound _ hbound (inside_of_checked checked))
      (statusHonest_of_running running)
  | jumped jump regs zero data status image =>
    exact inv_of_same_data hs image zero data (statusHonest_of_running (status.trans running))
  | halted instr eq =>
    subst instr eq
    have hc : State.current { s with status := .halted } = some .eret := hi
    exact inv_of_same_data hs rfl rfl rfl (by simp [State.statusHonest, hc])
  | called n instr eq =>
    subst instr eq
    have hc : State.current { s with status := .inHost n } = some (.ecall n) := hi
    exact inv_of_same_data hs rfl rfl rfl (by simp [State.statusHonest, hc])

theorem vmStep_keeps_inv (hs : s.Inv) (running : s.status = .running) (h : vmStep s = .next t) : t.Inv := by
  rcases vmStep_cases s with ⟨hf, hv⟩ | ⟨w, hf, hd, hv⟩ | ⟨w, i, hf, hd, hv⟩
  · rw [hv] at h
    cases h
    exact raise_keeps_inv hs (raise_fetchFault_honest hf)
  · rw [hv] at h
    cases h
    exact raise_keeps_inv hs (raise_invalidInstruction_honest hf hd)
  · have hc : s.current = some i := by simp [State.current, hf, hd]
    exact exec_keeps_inv hs running hc (wf_of_decode hd) (hv ▸ h)

/-! ## The host's step keeps the invariant -/

/-- In status `InHost(n)` the word at the pc is the `ecall n` that handed over. -/
theorem current_of_serving {n : Imm15} (hs : s.Inv) (serving : s.status = .inHost n) : s.current = some (.ecall n) := by
  obtain ⟨-, -, -, -, -, -, -, honest⟩ := hs
  simpa [State.statusHonest, serving] using honest

/-- Whatever the host left, its writes lie inside the data space and register 0 is preserved (60_exceptions.md R275). -/
theorem inv_of_hostEffect (r : HostReply) (hs : s.Inv) (image : t.image = s.image)
    (regs : t.regs = (s.hostEffect r).regs) (data : t.data = (s.hostEffect r).data) (honest : t.statusHonest = true) :
    t.Inv := by
  obtain ⟨-, hwf, hbound, -⟩ := id hs
  rw [hostEffect_regs] at regs
  rw [hostEffect_data] at data
  refine inv_of_same_image hs image ?_ (data ▸ hostWrites_wf _ _ hwf) (data ▸ hostWrites_bound _ _ hbound) honest
  rw [regs]
  exact hostRegs_preserved _ _ 0 (by decide) (by decide)

/-- Every reply the host can give keeps the invariant. -/
theorem applyReply_keeps_inv {n : Imm15} (r : HostReply) (hs : s.Inv) (serving : s.status = .inHost n) :
    (s.applyReply n r).Inv := by
  rcases applyReply_cases s n r with ⟨-, h⟩ | ⟨-, h⟩ | ⟨-, h⟩ <;> rw [h]
  · exact inv_of_hostEffect r hs (by simp) (by simp) (by simp) (statusHonest_of_running rfl)
  · refine inv_of_hostEffect r hs (by simp) (by simp) (by simp) ?_
    have hc : ((s.hostEffect r).raise (.hostFault n)).current = some (.ecall n) :=
      (current_congr (by simp) (by simp)).trans (current_of_serving hs serving)
    simp [State.statusHonest, hc]
  · exact hs

/-- Settles O13, by the three kinds of step: the VM's, the host's, and the resumption after `break`. -/
theorem stepKeepsInvariant : Obligations.StepKeepsInvariant := by
  intro s t hs h
  rcases step_next h with ⟨running, hv⟩ | ⟨n, serving, rfl⟩ | ⟨-, -, rfl⟩
  · exact vmStep_keeps_inv hs running hv
  · exact applyReply_keeps_inv _ hs serving
  · exact inv_of_same_data hs rfl rfl rfl (statusHonest_of_running rfl)

/-! ## The frames of an instruction -/

/-- Settles O21, by the cases of `ExecShape`. -/
theorem registerFrameOfEveryInstruction : Obligations.RegisterFrameOfEveryInstruction := by
  intro i s t h
  refine ⟨fun r hr => ?_, getReg_zero t⟩
  cases shape_of_exec h with
  | raised e by_ eq => subst eq; rfl
  | wrote rd v d dest jump wrote =>
    obtain ⟨reads, -⟩ := wrote
    rw [reads, if_neg]
    rintro ⟨rfl, -⟩
    exact hr dest
  | stored rs1 imm n v store access checked eq => subst eq; rfl
  | jumped jump regs => exact regs r hr
  | halted instr eq => subst eq; rfl
  | called n instr eq => subst eq; rfl

/-- An instruction leaves the data space as it was, or is a store that passed the checks of its access. -/
theorem exec_data_cases {i : Instr} (h : exec i s = .next t) :
    t.data = s.data ∨ isStore i = true ∧ ∃ rs1 imm n v, accessOf i = some (rs1, imm, n) ∧
      t.data = s.data.writeLE (s.effAddr rs1 imm).toNat n.bytes v := by
  cases shape_of_exec h with
  | raised e by_ eq => exact .inl (by rw [eq, raise_data])
  | wrote rd v d dest jump wrote =>
    obtain ⟨-, -, data, -⟩ := wrote
    exact .inl data
  | stored rs1 imm n v store access checked eq => exact .inr ⟨store, rs1, imm, n, v.toNat, access, by rw [eq]⟩
  | jumped jump regs zero data => exact .inl data
  | halted instr eq => exact .inl (by rw [eq])
  | called n instr eq => exact .inl (by rw [eq])

/-- Settles O22: a store's access is the one that `accessOf` names, and a write leaves every byte outside it alone. -/
theorem memoryFrameOfEveryInstruction : Obligations.MemoryFrameOfEveryInstruction := by
  intro i s t h
  rcases exec_data_cases h with same | ⟨store, rs1, imm, n, v, access, written⟩
  · exact ⟨fun _ => same, fun _ _ _ _ _ _ => by rw [same]⟩
  · refine ⟨fun no => ?_, fun rs1' imm' n' access' x outside => ?_⟩
    · rw [store] at no
      cases no
    · rw [access] at access'
      cases access'
      rw [written, readByte_writeLE_other _ _ _ _ _ outside]

/-! ## The pc -/

/-- Settles O23: the VM keeps running exactly after a register write and a store, which go on to the next word. -/
theorem pcOfEveryOtherInstruction : Obligations.PcOfEveryOtherInstruction := by
  intro i s t running h hj
  have nextWord : s.pc + 1 = BitVec.ofNat 32 (s.pc.toNat + 1) := by bv_omega
  rw [← nextWord]
  cases shape_of_exec h with
  | raised e by_ eq => subst eq; exact ⟨nofun, fun _ => rfl⟩
  | wrote rd v d dest jump wrote =>
    obtain ⟨-, pc, -, status, -⟩ := wrote
    exact ⟨fun _ => pc, fun stop => absurd (status.trans running) stop⟩
  | stored rs1 imm n v store access checked eq => subst eq; exact ⟨fun _ => rfl, fun stop => absurd running stop⟩
  | jumped jump => rw [hj] at jump; cases jump
  | halted instr eq => subst eq; exact ⟨nofun, fun _ => rfl⟩
  | called n instr eq => subst eq; exact ⟨nofun, fun _ => rfl⟩

/-! ## Another text in place (10_state.md R30)

Reading a register, an access's checks and every result are the same by definition, since none of them mentions the
text; each operation that makes a new state commutes with the change of text. -/

/-- The state with another text. -/
def State.withText (s : State) (text : List Word) : State := { s with image := { s.image with text := text } }

variable (s) (text : List Word)

theorem setReg_withText (rd : Reg) (v : Word) : (s.withText text).setReg rd v = (s.setReg rd v).withText text := by
  unfold State.setReg
  split <;> rfl

theorem writeNext_withText (rd : Reg) (v : Word) :
    (s.withText text).writeNext rd v = (s.writeNext rd v).withText text := by
  unfold State.writeNext
  rw [setReg_withText]
  rfl

theorem link_withText (rd : Reg) (target : Word) :
    (s.withText text).link rd target = (s.link rd target).withText text := by
  unfold State.link
  rw [setReg_withText]
  rfl

theorem branch_withText (taken : Bool) (imm : Imm15) :
    (s.withText text).branch taken imm = (s.branch taken imm).withText text := by
  cases taken <;> rfl

/-- Both states settle a free value alike: the draw counter is the same (log entry 3). -/
theorem writeValue_withText (site : DrawSite) (a b : Word) (rd : Reg) (v : Value) :
    (s.withText text).writeValue site a b rd v = (s.writeValue site a b rd v).withText text := by
  have written := writeNext_withText s text rd (s.settle site a b v)
  cases v with
  | known w => exact written
  | nan => exact congrArg (fun u : State => { u with draws := s.draws + 1 }) written
  | free => exact congrArg (fun u : State => { u with draws := s.draws + 1 }) written

theorem writeOrRaise_withText (site : DrawSite) (a b : Word) (rd : Reg) (r : Except Exc Value) :
    (s.withText text).writeOrRaise site a b rd r = (s.writeOrRaise site a b rd r).withText text := by
  cases r with
  | error e => rfl
  | ok v => exact writeValue_withText s text site a b rd v

theorem checkAccess_withText (a : Word) (n : Width) : (s.withText text).checkAccess a n = s.checkAccess a n := rfl

theorem load_withText (rd : Reg) (a : Word) (n : Width) (ext : Nat → Word) :
    (s.withText text).load rd a n ext = (s.load rd a n ext).withText text := by
  unfold State.load State.memRead
  rw [checkAccess_withText]
  cases s.checkAccess a n with
  | some e => rfl
  | none => exact writeNext_withText s text rd _

theorem store_withText (a : Word) (n : Width) (v : Word) :
    (s.withText text).store a n v = (s.store a n v).withText text := by
  unfold State.store State.memWrite
  rw [checkAccess_withText]
  cases s.checkAccess a n <;> rfl

/-- The division by an immediate, which may also refuse it. -/
theorem divImm_withText (refuse : Prop) [Decidable refuse] (e : Exc) (site : DrawSite) (a b : Word) (rd : Reg)
    (r : Except Exc Value) :
    (if refuse then (s.withText text).raise e else (s.withText text).writeOrRaise site a b rd r) =
      (if refuse then s.raise e else s.writeOrRaise site a b rd r).withText text := by
  split
  · rfl
  · exact writeOrRaise_withText s text site a b rd r

/-- Every instruction commutes with the change of text. -/
theorem exec_withText (i : Instr) :
    ∃ t, exec i s = .next t ∧ exec i (s.withText text) = .next (t.withText text) := by
  cases i with
  | brk | eret | ecall _ => exact ⟨_, rfl, rfl⟩
  | sw _ _ _ | sh _ _ _ | sb _ _ _ => exact ⟨_, rfl, congrArg _ (store_withText s text ..)⟩
  | lw _ _ _ | lh _ _ _ | lb _ _ _ | lhu _ _ _ | lbu _ _ _ =>
    exact ⟨_, rfl, congrArg _ (load_withText s text ..)⟩
  | addi _ _ _ | subi _ _ _ | andi _ _ _ | xori _ _ _ | ori _ _ _ | muli _ _ _ | fci _ _ | add _ _ _ | sub _ _ _
  | and _ _ _ | xor _ _ _ | or _ _ _ | mul _ _ _ | lui _ _ | lif _ _ =>
    exact ⟨_, rfl, congrArg _ (writeNext_withText s text ..)⟩
  | slli _ _ _ | srli _ _ _ | srai _ _ _ | sll _ _ _ | srl _ _ _ | sra _ _ _ | icf _ _ | roundf _ _ | ceilf _ _
  | floorf _ _ | addf _ _ _ | subf _ _ _ | mulf _ _ _ | divf _ _ _ | sqrtf _ _ =>
    exact ⟨_, rfl, congrArg _ (writeValue_withText s text ..)⟩
  | divi _ _ _ | remi _ _ _ => exact ⟨_, rfl, congrArg _ (divImm_withText s text ..)⟩
  | div _ _ _ | rem _ _ _ => exact ⟨_, rfl, congrArg _ (writeOrRaise_withText s text ..)⟩
  | jalr _ _ _ | jal _ _ => exact ⟨_, rfl, congrArg _ (link_withText s text ..)⟩
  | beq _ _ _ | bne _ _ _ | blt _ _ _ | bge _ _ _ | bltu _ _ _ | bgeu _ _ _ | bltf _ _ _ | bgef _ _ _ =>
    exact ⟨_, rfl, congrArg _ (branch_withText s text ..)⟩

/-- Settles O24, by `exec_withText`. -/
theorem instructionWordsAreNotData : Obligations.InstructionWordsAreNotData := by
  intro i s t text h
  obtain ⟨u, hu, commutes⟩ := exec_withText s text i
  rw [hu] at h
  cases h
  exact commutes

/-! ## Ends and reset -/

/-- The host does not resume a stop that is no breakpoint, nor one that `BREAK_RESUME` leaves final. -/
theorem hostResume_eq_none {s : State} {e : Exc} (stop : s.status = .stopped e)
    (final : e ≠ .breakpoint ∨ s.params.breakResume = false) : s.hostResume = none := by
  refine Option.eq_none_iff_forall_ne_some.mpr fun t resumed => ?_
  obtain ⟨status, resume, -⟩ := hostResume_eq_some.mp resumed
  rw [stop] at status
  cases status
  simp [resume] at final

/-- Settles O10: the step's own cases, with no resumption of a final stop. -/
theorem endedRunTakesNoStep : Obligations.EndedRunTakesNoStep := by
  refine ⟨fun s halted => ?_, fun s e stop final => ?_⟩
  · simp [step, halted]
  · simp [step, stop, hostResume_eq_none stop final]

/-- Settles O14: every clause computes on the one state. -/
theorem resetSatisfiesInvariant : Obligations.ResetSatisfiesInvariant := by
  unfold Obligations.ResetSatisfiesInvariant
  decide

end Sys2Proof.Machine
end

section
/-! The obligations of 20_memory.md: narrow and wide accesses to the data space, the loader (what it accepts, and where the
fields of a file lie), what no step changes, and the invariant before start-up and between runs. -/

namespace Sys2Proof.Machine

/-! ## Narrow and wide accesses (20_memory.md R40, R41) -/

/-- A read of `j` bytes that lies inside a wide write gives those bytes of the value. -/
theorem readLE_writeLE {m : Memory} (hm : m.wf = true) (a n v : Nat) : ∀ (j k : Nat), k + j ≤ n →
    (m.writeLE a n v).readLE (a + k) j = v / 256 ^ k % 256 ^ j
  | 0, k, _ => by simp [Memory.readLE, Nat.mod_one]
  | j + 1, k, h => by
    have first := readByte_writeLE_at n m a v k hm (by omega)
    have others := readLE_writeLE hm a n v j (k + 1) (by omega)
    rw [Memory.readLE, first, Nat.add_assoc, others, BitVec.toNat_ofNat, Nat.pow_succ 256 k, ← Nat.div_div_eq_div_mul,
      Nat.pow_succ' (m := 256), Nat.mod_mul]

/-- The lowest byte of a wide write is the last part of the value. -/
theorem writeLE_append {w : Nat} (m : Memory) (a n : Nat) (x : BitVec w) (b : Byte) :
    m.writeLE a (n + 1) (x ++ b).toNat = (m.writeByte a b).writeLE (a + 1) n x.toNat := by
  have low : BitVec.ofNat 8 (x ++ b).toNat = b := by
    apply BitVec.eq_of_toNat_eq
    rw [toNat_append_add, BitVec.toNat_ofNat]
    omega
  have high : (x ++ b).toNat / 256 = x.toNat := by
    rw [toNat_append_add]
    omega
  rw [Memory.writeLE, low, high]

/-- Four bytes written one after the other are one wide write of their concatenation. -/
theorem writeLE_four_bytes (m : Memory) (a : Nat) (b0 b1 b2 b3 : Byte) :
    m.writeLE a 4 (b3 ++ b2 ++ b1 ++ b0).toNat =
      (((m.writeByte a b0).writeByte (a + 1) b1).writeByte (a + 2) b2).writeByte (a + 3) b3 := by
  rw [writeLE_append, writeLE_append, writeLE_append, Memory.writeLE, Memory.writeLE, BitVec.ofNat_toNat,
    BitVec.setWidth_eq]

/-- Settles O33: a read inside one wide write, and four bytes as one wide write. -/
theorem mixedWidthAccess : Obligations.MixedWidthAccess := by
  refine ⟨fun m a v hm => ?_, fun m a b0 b1 b2 b3 hm => ?_⟩
  · have byte (k : Nat) (hk : k < 4) : (m.writeLE a 4 v.toNat).readByte (a + k) = v.extractLsb' (8 * k) 8 := by
      apply BitVec.eq_of_toNat_eq
      rw [readByte_writeLE_at 4 m a v.toNat k hm hk, toNat_field, BitVec.toNat_ofNat, Nat.pow_mul]
    have short (k : Nat) (hk : k + 2 ≤ 4) :
        (m.writeLE a 4 v.toNat).readLE (a + k) 2 = (v.extractLsb' (8 * k) 16).toNat := by
      rw [readLE_writeLE hm a 4 v.toNat 2 k hk, toNat_field, Nat.pow_mul, show 256 ^ 2 = 2 ^ 16 by decide]
    exact ⟨byte 0 (by omega), byte 1 (by omega), byte 2 (by omega), byte 3 (by omega), short 0 (by omega),
      short 2 (by omega)⟩
  · rw [← writeLE_four_bytes]
    have whole (w : Word) : (m.writeLE a 4 w.toNat).readLE a 4 = w.toNat := by
      have read := readLE_writeLE hm a 4 w.toNat 4 0 (by omega)
      rw [Nat.add_zero, Nat.pow_zero, Nat.div_one] at read
      exact read.trans (Nat.mod_eq_of_lt w.isLt)
    exact whole (b3 ++ b2 ++ b1 ++ b0)

/-! ## The fields of a file (20_memory.md R52, R53) -/

section
variable (bs : List Byte) (off n : Nat)

@[simp] theorem fileBytes_length : (fileBytes bs off n).length = n := by simp [fileBytes]
@[simp] theorem fileWords_length : (fileWords bs off n).length = n := by simp [fileWords]
@[simp] theorem fileSyms_length : (fileSyms bs off n).length = n := by simp [fileSyms]

theorem fileWords_getElem? {i : Nat} (h : i < n) : (fileWords bs off n)[i]? = some (fileWord bs (off + 4 * i)) := by
  simp [fileWords, h]

theorem fileSyms_getElem? {i : Nat} (h : i < n) : (fileSyms bs off n)[i]? =
    some { offset := fileWord bs (off + 64 * i), name := fileBytes bs (off + 64 * i + 4) 60 } := by
  simp [fileSyms, h]

/-- Bytes of a file that reaches over them are a stretch of the file. -/
theorem fileBytes_eq_take_drop (h : off + n ≤ bs.length) : fileBytes bs off n = (bs.drop off).take n := by
  apply List.ext_getElem
  · rw [fileBytes_length, List.length_take, List.length_drop]
    omega
  · intro i _ hi
    have hin : off + i < bs.length := by simp at hi; omega
    simp [fileBytes, fileByte, hin]

/-- A word of a file as a number, least significant byte first (20_memory.md R40). -/
theorem fileWord_toNat : (fileWord bs off).toNat = (fileByte bs off).toNat + 2 ^ 8 * (fileByte bs (off + 1)).toNat
    + 2 ^ 16 * (fileByte bs (off + 2)).toNat + 2 ^ 24 * (fileByte bs (off + 3)).toNat := by
  unfold fileWord
  simp only [toNat_append_add]
  omega

end

section
variable (bs : List Byte)

@[simp] theorem fileFields_dataLen : (fileFields bs).dataLen = fileWord bs 4 := rfl
@[simp] theorem fileFields_bssLen : (fileFields bs).bssLen = fileWord bs 8 := rfl
@[simp] theorem fileFields_resetVector : (fileFields bs).resetVector = fileWord bs 20 := rfl
@[simp] theorem fileFields_userdata : (fileFields bs).userdata = fileBytes bs 24 40 := rfl
@[simp] theorem fileFields_syms : (fileFields bs).syms = fileSyms bs 64 (fileWord bs 16).toNat := rfl
@[simp] theorem fileFields_data : (fileFields bs).data =
    fileBytes bs (64 + 64 * (fileWord bs 16).toNat) (fileWord bs 4).toNat := rfl
@[simp] theorem fileFields_text : (fileFields bs).text =
    fileWords bs (64 + 64 * (fileWord bs 16).toNat + (fileWord bs 4).toNat) (fileWord bs 12).toNat := rfl

end

/-! ## What the loader accepts (20_memory.md R55) -/

/-- A check that refuses lets the rest decide where it does not apply. -/
theorem check_eq_none {c : Prop} [Decidable c] {e : LoadError} {rest : Option LoadError} :
    (if c then some e else rest) = none ↔ ¬c ∧ rest = none := by
  split <;> simp_all

/-- The requirements on the fields. -/
theorem plgFile_error_eq_none {f : PlgFile} : f.error = none ↔
    f.dataLen.toNat % 16 = 0 ∧ f.bssLen.toNat % 16 = 0 ∧ f.dataLen.toNat + f.bssLen.toNat ≤ 2 ^ 32 ∧
      (∀ y ∈ f.syms, y.offset ≠ 0) ∧ (f.resetVector = 0 → f.text[0]? = some 0x00000001) := by
  have eret : encode .eret = 0x00000001 := by decide
  rw [PlgFile.error, check_eq_none, check_eq_none, check_eq_none, check_eq_none]
  refine and_congr not_not (and_congr not_not (and_congr not_lt (and_congr (by simp) ?_)))
  by_cases zero : f.resetVector = 0
  · rw [if_neg (not_not.mpr zero)]
    cases f.text with
    | nil => simp [zero]
    | cons w rest => simp [zero, eret]
  · rw [if_pos zero]
    simp only [zero, false_imp_iff]

/-- An accepted file begins with the magic, is as long as its header asks for, and its fields are as required; and what
the loader answers is its fields. -/
theorem parseFile_eq_ok {bs : List Byte} {f : PlgFile} : parseFile bs = .ok f ↔
    64 ≤ bs.length ∧ fileLength bs ≤ bs.length ∧ bs.take 4 = magic ∧ (fileFields bs).error = none ∧ fileFields bs = f := by
  unfold parseFile
  by_cases header : bs.length < 64
  · simp [header]
  have start : fileBytes bs 0 4 = bs.take 4 := fileBytes_eq_take_drop bs 0 4 (by omega)
  rw [if_neg header, start]
  by_cases hmagic : bs.take 4 = magic
  · by_cases short : bs.length < fileLength bs
    · simp [short, hmagic]
    · have long : 64 ≤ bs.length ∧ fileLength bs ≤ bs.length := by omega
      cases (fileFields bs).error <;> simp [short, hmagic, long]
  · simp [hmagic]

/-- Settles O57: the requirements on the bytes and those on the fields. -/
theorem loaderAcceptsExactlyTheValidFiles : Obligations.LoaderAcceptsExactlyTheValidFiles := by
  intro bs
  have accepted : (∃ f, parseFile bs = .ok f) ↔ 64 ≤ bs.length ∧ fileLength bs ≤ bs.length ∧ bs.take 4 = magic ∧
      (fileFields bs).error = none := by simp [parseFile_eq_ok]
  rw [accepted, plgFile_error_eq_none]
  rfl

/-- Settles O58: the stretches of the file lie inside the length its header asks for. -/
theorem fieldsOfAFile : Obligations.FieldsOfAFile := by
  refine ⟨fileWord_toNat, fun bs f accepted => ?_⟩
  obtain ⟨header, long, -, -, rfl⟩ := parseFile_eq_ok.mp accepted
  rw [fileLength] at long
  intro nd nt ns
  refine ⟨rfl, rfl, rfl, ?_, by simp [ns], fun i hi => ?_, ?_, by simp [nt], fun i hi => ?_⟩
  · rw [fileFields_userdata, fileBytes_eq_take_drop bs 24 40 header]
  · rw [fileFields_syms, fileSyms_getElem? bs 64 _ hi, fileBytes_eq_take_drop bs (64 + 64 * i + 4) 60 (by omega),
      show 64 + 64 * i + 4 = 68 + 64 * i by omega]
  · rw [fileFields_data, fileBytes_eq_take_drop bs _ _ (by omega)]
  · rw [fileFields_text, fileWords_getElem? bs _ _ hi]

/-! ## What no step changes (20_memory.md R59) -/

/-- Both states are of the same loaded file under the same parameters. -/
def SameFile (s t : State) : Prop := t.image = s.image ∧ t.params = s.params

theorem exec_sameFile {i : Instr} {s t : State} (h : exec i s = .next t) : SameFile s t := by
  cases shape_of_exec h with
  | raised e by_ eq => subst eq; exact ⟨rfl, rfl⟩
  | wrote rd v d dest jump wrote =>
    obtain ⟨-, -, -, -, image, params, -⟩ := wrote
    exact ⟨image, params⟩
  | stored rs1 imm n v store access checked eq => subst eq; exact ⟨rfl, rfl⟩
  | jumped jump regs zero data status image params => exact ⟨image, params⟩
  | halted instr eq => subst eq; exact ⟨rfl, rfl⟩
  | called n instr eq => subst eq; exact ⟨rfl, rfl⟩

theorem vmStep_sameFile {s t : State} (h : vmStep s = .next t) : SameFile s t := by
  rcases vmStep_cases s with ⟨-, hv⟩ | ⟨w, -, -, hv⟩ | ⟨w, i, -, -, hv⟩ <;> rw [hv] at h
  · cases h
    exact ⟨rfl, rfl⟩
  · cases h
    exact ⟨rfl, rfl⟩
  · exact exec_sameFile h

theorem applyReply_sameFile (s : State) (n : Imm15) (r : HostReply) : SameFile s (s.applyReply n r) := by
  rcases applyReply_cases s n r with ⟨-, h⟩ | ⟨-, h⟩ | ⟨-, h⟩ <;> rw [h]
  · exact ⟨by simp, by simp⟩
  · exact ⟨by simp, by simp⟩
  · exact ⟨rfl, rfl⟩

/-- Settles O17, by the three kinds of step. -/
theorem loadedFileNeverChanges : Obligations.LoadedFileNeverChanges := by
  intro s t h
  rcases step_next h with ⟨-, hv⟩ | ⟨n, -, rfl⟩ | ⟨-, -, rfl⟩
  · exact vmStep_sameFile hv
  · exact applyReply_sameFile s n _
  · exact ⟨rfl, rfl⟩

/-! ## The invariant before start-up (20_memory.md R61) -/

/-- A register write before start-up is the same write after it. -/
theorem start_setReg (l : Loaded) (r : Reg) (v : Word) (d : Nat) : (l.setReg r v).start d = (l.start d).setReg r v := by
  unfold Loaded.setReg State.setReg
  split <;> rfl

@[simp] theorem loaded_setReg_regs_zero (l : Loaded) (r : Reg) (v : Word) : (l.setReg r v).regs[0] = l.regs[0] := by
  have started := setReg_regs_zero (l.start 0) r v
  rwa [← start_setReg] at started

/-- The file's data fills the first `data_len` bytes of the data space, and its text has a `uint32` number of words. -/
theorem load_inv {bs : List Byte} {f : PlgFile} (accepted : parseFile bs = .ok f) (x : Vector Word 32) (p : Params) :
    (f.load x p).Inv := by
  obtain ⟨-, -, -, fields, rfl⟩ := parseFile_eq_ok.mp accepted
  obtain ⟨hdata, hbss, hsize, -⟩ := plgFile_error_eq_none.mp fields
  have dataLength : (fileFields bs).data.length = (fileFields bs).dataLen.toNat := by simp
  have textLength : (fileFields bs).text.length = (fileWord bs 12).toNat := by simp
  refine ⟨by simp, cellsOf_wf _ 0, fun c hc => ?_, hdata, hbss, hsize, ?_⟩
  · have inData : c.1 < 0 + (fileFields bs).data.length := cellsOf_bound _ 0 c hc
    rw [Nat.zero_add, dataLength] at inData
    exact Nat.lt_add_right _ inData
  · rw [load_image, PlgFile.image, textLength]
    exact (fileWord bs 12).isLt

theorem loaded_setReg_inv {l : Loaded} (hl : l.Inv) (r : Reg) (v : Word) : (l.setReg r v).Inv := by
  unfold Loaded.Inv
  rwa [loaded_setReg_regs_zero, loaded_setReg_data, loaded_setReg_image]

theorem loaded_setByte_inv {l m : Loaded} (hl : l.Inv) {a : Word} {b : Byte} (h : l.setByte a b = some m) : m.Inv := by
  obtain ⟨inside, rfl⟩ := loaded_setByte_eq_some.mp h
  obtain ⟨hzero, hwf, hbound, sizes⟩ := hl
  exact ⟨hzero, writeByte_wf hwf _ _, insertCell_bound hbound inside, sizes⟩

/-- Start-up adds the status `Running`, which claims nothing. -/
theorem start_inv {l : Loaded} (hl : l.Inv) (d : Nat) : (l.start d).Inv := by
  obtain ⟨hzero, hwf, hbound, hdata, hbss, hsize, htext⟩ := hl
  exact ⟨hzero, hwf, hbound, hdata, hbss, hsize, htext, statusHonest_of_running rfl⟩

/-- Settles O15: loading, each write of the host before start-up, and start-up. -/
theorem startedFileSatisfiesInvariant : Obligations.StartedFileSatisfiesInvariant := by
  refine ⟨fun bs f x p d accepted => ?_, fun l hl => ?_⟩
  · have loaded := load_inv accepted x p
    exact ⟨loaded, start_inv loaded d⟩
  · exact ⟨loaded_setReg_inv hl, fun _ _ _ => loaded_setByte_inv hl, start_inv hl⟩

/-! ## What the host does between runs (20_memory.md R61, 46_abi.md R227) -/

/-- Passing arguments writes registers alone, and never register 0 of the register file. -/
theorem passArgs_frame : ∀ (args : List Word) (s : State) (k : Nat), (s.passArgs k args).regs[0] = s.regs[0] ∧
    (s.passArgs k args).data = s.data ∧ (s.passArgs k args).image = s.image
  | [], _, _ => ⟨rfl, rfl, rfl⟩
  | v :: rest, s, k => by
    have tail := passArgs_frame rest (s.setReg (BitVec.ofNat 5 (4 + k)) v) (k + 1)
    rwa [setReg_regs_zero, setReg_data, setReg_image] at tail

/-- A host call that is not refused: the arguments, the return address, the symbol's offset, status `Running`. -/
theorem hostCall_eq_some {s t : State} {sym : Nat} {args : List Word} {ra : Word} :
    s.hostCall sym args ra = some t ↔ (s.hostHasControl = true ∧ args.length ≤ 8) ∧ ∃ y, s.image.syms[sym]? = some y ∧
      { (((s.passArgs 0 args).setReg 1 ra).jump y.offset) with status := .running } = t := by
  unfold State.hostCall
  split <;> simp_all

theorem hostSetReg_eq_some {s t : State} {r : Reg} {v : Word} :
    s.hostSetReg r v = some t ↔ s.hostHasControl = true ∧ s.setReg r v = t := by
  unfold State.hostSetReg
  split <;> simp_all

theorem hostSetByte_eq_some {s t : State} {a : Word} {b : Byte} :
    s.hostSetByte a b = some t ↔ (s.hostHasControl = true ∧ a.toNat < s.image.dataSize) ∧
      { s with data := s.data.writeByte a.toNat b } = t := by
  unfold State.hostSetByte
  split <;> simp_all

/-- What a status claims depends on the file, the parameters and the pc alone. -/
theorem statusHonest_congr {s t : State} (image : t.image = s.image) (params : t.params = s.params) (pc : t.pc = s.pc)
    (status : t.status = s.status) : t.statusHonest = s.statusHonest := by
  have fetch : t.fetch = s.fetch := by rw [State.fetch, State.fetch, image, pc]
  unfold State.statusHonest
  rw [status, current_congr image pc, fetch, pc, params, image]

variable {s t : State}

theorem hostCall_keeps_inv (hs : s.Inv) {sym : Nat} {args : List Word} {ra : Word}
    (h : s.hostCall sym args ra = some t) : t.Inv := by
  obtain ⟨-, y, -, rfl⟩ := hostCall_eq_some.mp h
  obtain ⟨zero, data, image⟩ := passArgs_frame args s 0
  exact inv_of_same_data hs (by simp [image]) (by simp [zero]) (by simp [data]) (statusHonest_of_running rfl)

theorem hostResume_keeps_inv (hs : s.Inv) (h : s.hostResume = some t) : t.Inv := by
  obtain ⟨-, -, rfl⟩ := hostResume_eq_some.mp h
  exact inv_of_same_data hs rfl rfl rfl (statusHonest_of_running rfl)

/-- The status stays, and a register's value is no part of what it claims. -/
theorem hostSetReg_keeps_inv (hs : s.Inv) {r : Reg} {v : Word} (h : s.hostSetReg r v = some t) : t.Inv := by
  obtain ⟨-, rfl⟩ := hostSetReg_eq_some.mp h
  obtain ⟨-, -, -, -, -, -, -, honest⟩ := id hs
  have same : (s.setReg r v).statusHonest = s.statusHonest := statusHonest_congr (by simp) (by simp) (by simp) (by simp)
  exact inv_of_same_data hs (by simp) (by simp) (by simp) (same.trans honest)

theorem hostSetByte_keeps_inv (hs : s.Inv) {a : Word} {b : Byte} (h : s.hostSetByte a b = some t) : t.Inv := by
  obtain ⟨⟨-, inside⟩, rfl⟩ := hostSetByte_eq_some.mp h
  obtain ⟨-, hwf, hbound, -, -, -, -, honest⟩ := id hs
  exact inv_of_same_image hs rfl rfl (writeByte_wf hwf _ _) (insertCell_bound hbound inside)
    ((statusHonest_congr rfl rfl rfl rfl).trans honest)

/-- Settles O16, one lemma for each of the host's four acts. -/
theorem hostActionsKeepInvariant : Obligations.HostActionsKeepInvariant := by
  intro s t hs act
  rcases act with ⟨k, args, ra, h⟩ | h | ⟨r, v, h⟩ | ⟨a, b, h⟩
  · exact hostCall_keeps_inv hs h
  · exact hostResume_keeps_inv hs h
  · exact hostSetReg_keeps_inv hs h
  · exact hostSetByte_keeps_inv hs h

end Sys2Proof.Machine
end

section
/-! The obligations of 30_encoding.md. Each of the six tables of the opcode map answers an instruction whose word is the one
it was given, so decoding and encoding are inverse to each other; what the special words decode to, and that no illegal
word decodes, is then read off the words of the instructions. -/

namespace Sys2Proof.Machine

/-! ## From an instruction to its word and back (30_encoding.md R83) -/

/-- Each table finds the instruction by the slot, and the fields read back are those put in. -/
theorem decode_encode {i : Instr} (legal : i.wf = true) : decode (encode i) = some i := by
  cases i with
  | brk | eret => decide
  | ecall => simp [encode, decode, decodeSystem, legalIf]
  | sw | sh | sb | lw | lh | lb | lhu | lbu => simp [encode, decode, decodeMemory]
  | divi | remi => simpa [encode, decode, decodeImmArith, legalIf, Instr.wf] using legal
  | addi | subi | andi | xori | ori | slli | srli | srai | muli | icf | fci | roundf | ceilf | floorf =>
    simp [encode, decode, decodeImmArith, legalIf]
  | add | sub | and | xor | or | sll | srl | sra | mul | div | rem | addf | subf | mulf | divf | sqrtf =>
    simp [encode, decode, decodeRegArith, legalIf]
  | jalr | beq | bne | blt | bge | bltu | bgeu | bltf | bgef => simp [encode, decode, decodeBranch]
  | lui | lif | jal => simp [encode, decode, decodeRi]

/-- Settles O1, table by table. -/
theorem decodeOfEncodeIsTheInstruction : Obligations.DecodeOfEncodeIsTheInstruction := fun _ => decode_encode

/-! ## From a word to its instruction and back -/

section
variable {w : Word} {i : Instr} {opc : BitVec 3} {opf : BitVec 4} {rd rs1 rs2 : Reg} {imm : Imm15}

/-- `encRri_fields` for fields whose values are known, as the decoder's tests make them. -/
theorem encRri_eq (hopc : opcOf w = opc) (hopf : opfOf w = opf) (hrd : rdOf w = rd) (hrs1 : rs1Of w = rs1)
    (himm : imm15Of w = imm) : encRri opc opf rd rs1 imm = w := by
  subst hopc hopf hrd hrs1 himm
  exact encRri_fields w

theorem encRrr_eq (hopc : opcOf w = 3#3) (hopf : opfOf w = opf) (hrs2 : rs2Of w = rs2) (himm : imm10Of w = 0) :
    encRrr opf (rdOf w) (rs1Of w) rs2 = w := by
  subst hopf hrs2
  exact encRrr_fields w hopc himm

theorem encRi_eq (hopc : opcOf w = 5#3) (hopf : opfOf w = opf) : encRi opf (rdOf w) (imm20Of w) = w := by
  subst hopf
  exact encRi_fields w hopc

theorem encode_of_decodeSystem (hopc : opcOf w = 0#3) (h : decodeSystem w = some i) : encode i = w := by
  unfold decodeSystem at h
  split at h
  case h_4 => cases h
  case h_3 hopf =>
    obtain ⟨zero, rfl⟩ := legalIf_eq_some.mp h
    simp only [Bool.and_eq_true, beq_iff_eq] at zero
    obtain ⟨hrs1, hrd⟩ := zero
    exact encRri_eq hopc hopf hrd hrs1 rfl
  all_goals
    next hopf =>
      obtain ⟨zero, rfl⟩ := legalIf_eq_some.mp h
      simp only [Bool.and_eq_true, beq_iff_eq] at zero
      obtain ⟨⟨himm, hrs1⟩, hrd⟩ := zero
      exact encRri_eq hopc hopf hrd hrs1 himm

theorem encode_of_decodeMemory (hopc : opcOf w = 1#3) (h : decodeMemory w = some i) : encode i = w := by
  unfold decodeMemory at h
  split at h
  case h_9 => cases h
  all_goals next hopf => cases h; exact encRri_eq hopc hopf rfl rfl rfl

theorem encode_of_decodeImmArith (hopc : opcOf w = 2#3) (h : decodeImmArith w = some i) : encode i = w := by
  unfold decodeImmArith at h
  split at h
  case h_17 => cases h
  case h_10 hopf | h_11 hopf =>
    obtain ⟨-, rfl⟩ := legalIf_eq_some.mp h
    exact encRri_eq hopc hopf rfl rfl rfl
  case h_12 hopf | h_13 hopf | h_14 hopf | h_15 hopf | h_16 hopf =>
    obtain ⟨zero, rfl⟩ := legalIf_eq_some.mp h
    exact encRri_eq hopc hopf rfl rfl (beq_iff_eq.mp zero)
  all_goals next hopf => cases h; exact encRri_eq hopc hopf rfl rfl rfl

theorem encode_of_decodeRegArith (hopc : opcOf w = 3#3) (h : decodeRegArith w = some i) : encode i = w := by
  unfold decodeRegArith at h
  split at h
  case h_17 => cases h
  case h_16 hopf =>
    obtain ⟨zero, rfl⟩ := legalIf_eq_some.mp h
    obtain ⟨himm, hrs2⟩ := (Bool.and_eq_true _ _).mp zero
    exact encRrr_eq hopc hopf (beq_iff_eq.mp hrs2) (beq_iff_eq.mp himm)
  all_goals
    next hopf =>
      obtain ⟨zero, rfl⟩ := legalIf_eq_some.mp h
      exact encRrr_eq hopc hopf rfl (beq_iff_eq.mp zero)

theorem encode_of_decodeBranch (hopc : opcOf w = 4#3) (h : decodeBranch w = some i) : encode i = w := by
  unfold decodeBranch at h
  split at h
  case h_10 => cases h
  all_goals next hopf => cases h; exact encRri_eq hopc hopf rfl rfl rfl

theorem encode_of_decodeRi (hopc : opcOf w = 5#3) (h : decodeRi w = some i) : encode i = w := by
  unfold decodeRi at h
  split at h
  case h_4 => cases h
  all_goals next hopf => cases h; exact encRi_eq hopc hopf

/-- Whatever the table, the decoder answers the instruction whose word it was given. -/
theorem encode_of_decode (h : decode w = some i) : encode i = w := by
  unfold decode at h
  split at h
  case h_1 hopc => exact encode_of_decodeSystem hopc h
  case h_2 hopc => exact encode_of_decodeMemory hopc h
  case h_3 hopc => exact encode_of_decodeImmArith hopc h
  case h_4 hopc => exact encode_of_decodeRegArith hopc h
  case h_5 hopc => exact encode_of_decodeBranch hopc h
  case h_6 hopc => exact encode_of_decodeRi hopc h
  case h_7 => cases h

/-- A legal instruction is decoded from its own word and from no other. -/
theorem decode_eq_some_iff (legal : i.wf = true) : decode w = some i ↔ w = encode i :=
  ⟨fun h => (encode_of_decode h).symm, fun h => h ▸ decode_encode legal⟩

end

/-- Settles O2, table by table; two words that decode alike are then the one word of what they decode to. -/
theorem encodeOfDecodeIsTheWord : Obligations.EncodeOfDecodeIsTheWord := fun _ _ h =>
  ⟨encode_of_decode h, wf_of_decode h⟩

/-! ## The special words (30_encoding.md R82) -/

theorem encode_ecall (n : Imm15) : encode (.ecall n) = n ++ 0x00002#17 := by
  apply BitVec.eq_of_toNat_eq
  rw [encode, encRri_toNat, toNat_append_add]
  simp only [BitVec.ofNat_eq_ofNat, BitVec.toNat_ofNat]
  omega

/-- Settles O4: the words of the three instructions, and the all-ones word's opcode 7 has no table. -/
theorem specialWords : Obligations.SpecialWords := by
  have brk : encode .brk = 0 := by decide
  have eret : encode .eret = 1 := by decide
  refine ⟨fun w => ?_, fun w => ?_, fun w n => ?_, by decide⟩
  · rw [decode_eq_some_iff rfl, brk]
  · rw [decode_eq_some_iff rfl, eret]
  · rw [decode_eq_some_iff rfl, encode_ecall]

/-! ## Illegal words (30_encoding.md R79 to R81) -/

section
variable (w : Word)

theorem slot_eq_fields : w.toNat % 128 = 16 * (opcOf w).toNat + (opfOf w).toNat := by
  rw [opcOf, opfOf, toNat_field, toNat_field]; omega

/-! The fields above the slot; the divisors 2^7, 2^17 and 2^22 are written as `simp` leaves them. -/

theorem registers_eq_fields : w.toNat / 0x80 % 0x400 = 32 * (rs1Of w).toNat + (rdOf w).toNat := by
  rw [rs1Of, rdOf, toNat_field, toNat_field]; omega

theorem above_rs1_eq_imm15 : w.toNat / 0x20000 = (imm15Of w).toNat := by
  rw [imm15Of, toNat_field]; omega

theorem above_rs1_eq_imm10_rs2 : w.toNat / 0x20000 = 32 * (imm10Of w).toNat + (rs2Of w).toNat := by
  rw [imm10Of, rs2Of, toNat_field, toNat_field]; omega

theorem above_rs2_eq_imm10 : w.toNat / 0x400000 = (imm10Of w).toNat := by
  rw [imm10Of, toNat_field]; omega

end

/-- The word of a legal instruction has a listed slot, zeros in the fields it does not use, and no excluded immediate. -/
theorem encode_not_illegal {i : Instr} (legal : i.wf = true) : ¬IllegalWord (encode i) := by
  cases i with
  | brk | eret => decide
  | ecall => simp [IllegalWord, encode, slot_eq_fields, registers_eq_fields]
  | sw | sh | sb | lw | lh | lb | lhu | lbu => simp [IllegalWord, encode, slot_eq_fields]
  | divi | remi =>
    simpa [IllegalWord, encode, slot_eq_fields, above_rs1_eq_imm15, Instr.wf, BitVec.toNat_eq] using legal
  | addi | subi | andi | xori | ori | slli | srli | srai | muli => simp [IllegalWord, encode, slot_eq_fields]
  | icf | fci | roundf | ceilf | floorf =>
    simp [IllegalWord, encode, slot_eq_fields, above_rs1_eq_imm15]
  | add | sub | and | xor | or | sll | srl | sra | mul | div | rem | addf | subf | mulf | divf =>
    simp [IllegalWord, encode, slot_eq_fields, above_rs2_eq_imm10]
  | sqrtf => simp [IllegalWord, encode, slot_eq_fields, above_rs1_eq_imm10_rs2]
  | jalr | beq | bne | blt | bge | bltu | bgeu | bltf | bgef => simp [IllegalWord, encode, slot_eq_fields]
  | lui | lif | jal => simp [IllegalWord, encode, slot_eq_fields]

/-- An illegal word decodes to nothing: it is no legal instruction's word. -/
theorem decode_eq_none_of_illegal {w : Word} (illegal : IllegalWord w) : decode w = none := by
  refine Option.eq_none_iff_forall_ne_some.mpr fun i h => encode_not_illegal (wf_of_decode h) ?_
  rwa [encode_of_decode h]

/-- Settles O8: the one case of a VM step whose fetched word does not decode. -/
theorem illegalWordStops : Obligations.IllegalWordStops := by
  intro s w running fetched illegal
  have hf : s.fetch = some w := fetched
  have hd := decode_eq_none_of_illegal illegal
  have stops : vmStep s = .next (s.raise (.invalidInstruction w)) := by simp [vmStep, hf, hd]
  rw [step, running]
  exact stops

end Sys2Proof.Machine
end

section
/-! The obligations of 40_system.md. The words of the three System instructions are read off the encoder; `ExecShape` says
that handing over to the host is `ecall`'s alone; resumption is the one transition out of a stop. -/

namespace Sys2Proof.Machine

/-! ## The System instructions -/

/-- The word that the encoder gives a legal instruction is the one word of it (30_encoding.md R83). -/
theorem isWord_of_encode {w : Word} {i : Instr} (legal : i.wf = true) (word : encode i = w) : IsWord w i :=
  ⟨word, word ▸ decode_encode legal⟩

/-- Settles O25: the words by the encoder, the effects by the three arms of `exec`. -/
theorem systemInstructions : Obligations.SystemInstructions := by
  intro s n
  have brk : IsWord 0x00000000 .brk := isWord_of_encode rfl (by decide)
  have eret : IsWord 0x00000001 .eret := isWord_of_encode rfl (by decide)
  have ecall : IsWord (n ++ 0x00002#17) (.ecall n) := isWord_of_encode rfl (encode_ecall n)
  exact ⟨⟨brk, rfl⟩, ⟨eret, rfl⟩, ⟨ecall, rfl⟩⟩

/-! ## Handing over to the host -/

/-- An instruction that hands over to the host is the `ecall` of that number: every other shape of an execution stops the
VM, halts it or leaves it running. -/
theorem eq_ecall_of_exec_inHost {i : Instr} {s t : State} {n : Imm15} (running : s.status = .running)
    (h : exec i s = .next t) (inHost : t.status = .inHost n) : i = .ecall n ∧ t = { s with status := .inHost n } := by
  have notRunning : t.status ≠ s.status := by simp [running, inHost]
  cases shape_of_exec h with
  | raised e by_ eq => subst eq; cases inHost
  | wrote rd v d dest jump wrote =>
    obtain ⟨-, -, -, status, -⟩ := wrote
    exact absurd status notRunning
  | stored rs1 imm k v store access checked eq => subst eq; exact absurd rfl notRunning
  | jumped jump regs zero data status => exact absurd status notRunning
  | halted instr eq => subst eq; cases inHost
  | called k instr eq => subst eq; cases inHost; exact ⟨instr, rfl⟩

/-- Settles O20: a fetch fault and an illegal word stop the VM, so a decoded `ecall` was executed, which has one word. -/
theorem onlyEcallCallsTheHost : Obligations.OnlyEcallCallsTheHost := by
  intro s t n running h inHost
  have hstep : vmStep s = .next t := by rwa [step, running] at h
  rcases vmStep_cases s with ⟨-, hv⟩ | ⟨w, -, -, hv⟩ | ⟨w, i, fetched, decoded, hv⟩ <;> rw [hv] at hstep
  · cases hstep
    cases inHost
  · cases hstep
    cases inHost
  · obtain ⟨rfl, frame⟩ := eq_ecall_of_exec_inHost running hstep inHost
    have word : n ++ 0x00002#17 = w := (encode_ecall n).symm.trans (encode_of_decode decoded)
    exact ⟨word ▸ fetched, frame⟩

/-! ## Resumption after a breakpoint -/

/-- The resumed state, with `trunc_32(pc + 1)` written on numbers (40_system.md R101). -/
theorem resumeBreak_eq (s : State) :
    s.resumeBreak = { s with pc := BitVec.ofNat 32 (s.pc.toNat + 1), status := .running } := by
  have nextWord : BitVec.ofNat 32 (s.pc.toNat + 1) = s.pc + 1 := by bv_omega
  rw [nextWord]
  rfl

/-- Settles O11: the one case in which the host resumes, which is then what the step answers. -/
theorem breakpointIsTheOneResumableStop : Obligations.BreakpointIsTheOneResumableStop := by
  refine ⟨fun s stop resumable => ?_, fun s final => ?_⟩
  · have resumed : s.hostResume = some s.resumeBreak := hostResume_eq_some.mpr ⟨stop, resumable, rfl⟩
    rw [← resumeBreak_eq]
    exact ⟨resumed, by simp [step, stop, resumed]⟩
  · refine Option.eq_none_iff_forall_ne_some.mpr fun t resumed => ?_
    obtain ⟨stop, resumable, -⟩ := hostResume_eq_some.mp resumed
    simp [stop, resumable] at final

end Sys2Proof.Machine
end

section
/-! The obligations of 41_memory_ops.md. A store and a load are each described once, for every width; what is left for an
instruction is its word, its width and, for a load, how the bytes read are extended. -/

namespace Sys2Proof.Machine

/-! ## Words of the memory instructions -/

/-- An RRI word, its opcode and function (the slot of 30_encoding.md R78) in one piece. -/
theorem encRri_eq_append (opc : BitVec 3) (opf : BitVec 4) (rd rs1 : Reg) (imm : Imm15) :
    encRri opc opf rd rs1 imm = imm ++ rs1 ++ rd ++ (opc ++ opf) := by
  apply BitVec.eq_of_toNat_eq
  rw [encRri_toNat]
  simp only [toNat_append_add]
  omega

/-- Settles O5: each word is the encoder's for the legal instruction it stands for. -/
theorem exampleWordsDecode : Obligations.ExampleWordsDecode :=
  ⟨(decode_eq_some_iff rfl).mpr (by decide), (decode_eq_some_iff rfl).mpr (by decide),
    (decode_eq_some_iff rfl).mpr (by decide), (decode_eq_some_iff rfl).mpr (by decide),
    (decode_eq_some_iff rfl).mpr (by decide), (decode_eq_some_iff rfl).mpr (by decide)⟩

/-! ## The effective address (41_memory_ops.md R110) -/

theorem zext15_eq_ofNat (imm : Imm15) : zext15 imm = BitVec.ofNat 32 imm.toNat := by
  apply BitVec.eq_of_toNat_eq
  simp [zext15]

theorem sext15_eq_ofInt (imm : Imm15) : sext15 imm = BitVec.ofInt 32 imm.toInt := rfl

/-- Bit 14 clear: the two extensions agree. -/
theorem sext15_of_lt {imm : Imm15} (h : imm.toNat < 2 ^ 14) : sext15 imm = BitVec.ofNat 32 imm.toNat := by
  rw [sext15_eq_ofInt, BitVec.toInt_eq_toNat_of_lt (by omega), BitVec.ofInt_natCast]

/-- Bit 14 set: the sign-extended offset is 2^15 less. -/
theorem sext15_of_ge {imm : Imm15} (h : 2 ^ 14 ≤ imm.toNat) : sext15 imm = BitVec.ofInt 32 (imm.toNat - 2 ^ 15) := by
  have signed : imm.toInt = imm.toNat - 2 ^ 15 := by
    rw [BitVec.toInt_eq_toNat_cond, if_neg (by omega)]
    rfl
  rw [sext15_eq_ofInt, signed]

/-- A sum modulo 2^32, written on numbers. -/
theorem add_ofNat_eq (v : Word) (n : Nat) : v + BitVec.ofNat 32 n = BitVec.ofNat 32 (v.toNat + n) := by
  rw [BitVec.ofNat_add, BitVec.ofNat_toNat, BitVec.setWidth_eq]

theorem add_ofInt_eq (v : Word) (k : Int) : v + BitVec.ofInt 32 k = BitVec.ofInt 32 (v.toNat + k) := by
  rw [BitVec.ofInt_add, BitVec.ofInt_natCast, BitVec.ofNat_toNat, BitVec.setWidth_eq]

/-- Settles O29: the offset as a number under either extension, then the sum modulo 2^32. -/
theorem effectiveAddress : Obligations.EffectiveAddress := by
  intro s rs1 imm
  refine ⟨fun zext => ?_, fun sext low => ?_, fun sext high => ?_⟩
  · rw [State.effAddr, zext, memOffset, zext15_eq_ofNat, add_ofNat_eq]
  · rw [State.effAddr, sext, memOffset, sext15_of_lt low, add_ofNat_eq]
  · rw [State.effAddr, sext, memOffset, sext15_of_ge high, add_ofInt_eq, Int.add_sub_assoc]

/-! ## Accesses that pass the checks (20_memory.md R44, R45) -/

section
variable {s : State} {a : Word} {n : Width}

/-- The checks refuse nothing that is aligned, or need not be, and wholly inside the data space. -/
theorem checkAccess_eq_none (aligned : a.toNat % n.bytes = 0 ∨ s.params.unalignedSupport = true)
    (inside : a.toNat + n.bytes ≤ s.image.dataSize) : s.checkAccess a n = none := by
  rcases checkAccess_cases s a n with ⟨-, mis, unsupported⟩ | ⟨-, -, outside⟩ | ⟨passed, -⟩
  · simp [mis, unsupported] at aligned
  · omega
  · exact passed

/-! ## Stores -/

/-- The low `n` bytes of a word, least significant first: what a store of `n` bytes stores (20_memory.md R45). -/
def lowBytes (v : Word) (n : Nat) : List Byte := (List.range n).map fun k => v.extractLsb' (8 * k) 8

@[simp] theorem lowBytes_length (v : Word) (n : Nat) : (lowBytes v n).length = n := by simp [lowBytes]

theorem lowBytes_getElem?_eq_some {v : Word} {n k : Nat} {b : Byte} :
    (lowBytes v n)[k]? = some b ↔ k < n ∧ v.extractLsb' (8 * k) 8 = b := by
  simp [lowBytes, List.getElem?_eq_some_iff]

/-- Byte `k` of a wide write is byte `k` of the word. -/
theorem readByte_writeLE_word {m : Memory} (hm : m.wf = true) (a n k : Nat) (v : Word) (hk : k < n) :
    (m.writeLE a n v.toNat).readByte (a + k) = v.extractLsb' (8 * k) 8 := by
  apply BitVec.eq_of_toNat_eq
  rw [readByte_writeLE_at n m a v.toNat k hm hk, toNat_field, BitVec.toNat_ofNat, Nat.pow_mul]

/-- A store that passes the checks stores the low bytes of the word and goes on. -/
theorem store_wroteBytes (hm : s.data.wf = true) (passed : s.checkAccess a n = none) (v : Word) :
    WroteBytes s (s.store a n v) a.toNat (lowBytes v n.bytes) := by
  rcases store_cases s a n v with ⟨e, refused, -⟩ | ⟨-, stored⟩
  · rw [passed] at refused
    cases refused
  · rw [stored]
    refine ⟨fun k b stored_k => ?_, fun x outside => ?_, writeLE_wf _ _ _ hm, rfl, rfl, rfl, rfl, rfl, rfl⟩
    · obtain ⟨hk, rfl⟩ := lowBytes_getElem?_eq_some.mp stored_k
      exact readByte_writeLE_word hm _ _ k v hk
    · rw [lowBytes_length] at outside
      exact readByte_writeLE_other _ _ _ _ _ outside

/-! ## Loads -/

/-- A load that passes the checks writes the extended number it read and goes on. -/
theorem load_wroteRegister (passed : s.checkAccess a n = none) (rd : Reg) (ext : Nat → Word) :
    WroteRegister s (s.load rd a n ext) rd (ext (s.data.readLE a.toNat n.bytes)) 0 := by
  rcases load_cases s rd a n ext with ⟨e, refused, -⟩ | ⟨-, loaded⟩
  · rw [passed] at refused
    cases refused
  · rw [loaded]
    exact writeNext_wrote s rd _

end

/-! The number read, as the bytes put together, least significant first (20_memory.md R40). -/

section
variable (m : Memory) (a : Nat)

theorem readLE_one : m.readLE a 1 = (m.readByte a).toNat := rfl

/-- The lowest byte of a wide read is the last part of the number. -/
theorem readLE_succ_eq_append {w n : Nat} {x : BitVec w} (rest : m.readLE (a + 1) n = x.toNat) :
    m.readLE a (n + 1) = (x ++ m.readByte a).toNat := by
  rw [Memory.readLE, rest, toNat_append_add]
  omega

theorem readLE_two : m.readLE a 2 = (m.readByte (a + 1) ++ m.readByte a).toNat :=
  readLE_succ_eq_append m a (readLE_one m (a + 1))

theorem readLE_four : m.readLE a 4 =
    (m.readByte (a + 3) ++ m.readByte (a + 2) ++ m.readByte (a + 1) ++ m.readByte a).toNat :=
  readLE_succ_eq_append m a (readLE_succ_eq_append m (a + 1) (readLE_two m (a + 2)))

end

/-! The extensions of a number read (41_memory_ops.md R115 to R119). -/

theorem zextLoaded_toNat (v : Word) : zextLoaded v.toNat = v := by
  rw [zextLoaded, BitVec.ofNat_toNat, BitVec.setWidth_eq]

theorem sextShort_toNat (v : BitVec 16) : sextShort v.toNat = v.signExtend 32 := by
  rw [sextShort, BitVec.ofNat_toNat, BitVec.setWidth_eq]

theorem sextByte_toNat (v : Byte) : sextByte v.toNat = v.signExtend 32 := by
  rw [sextByte, BitVec.ofNat_toNat, BitVec.setWidth_eq]

theorem zextLoaded_short (hi lo : Byte) : zextLoaded (hi ++ lo).toNat = 0#16 ++ hi ++ lo := by
  rw [← zextLoaded_toNat (0#16 ++ hi ++ lo)]
  simp only [toNat_append_add, BitVec.toNat_ofNat, Nat.zero_mod, Nat.zero_mul, Nat.zero_add]

theorem zextLoaded_byte (b : Byte) : zextLoaded b.toNat = 0#24 ++ b := by
  rw [← zextLoaded_toNat (0#24 ++ b)]
  simp only [toNat_append_add, BitVec.toNat_ofNat, Nat.zero_mod, Nat.zero_mul, Nat.zero_add]

/-! ## The obligations -/

/-- Settles O30: the words by the encoder, the effect by `store_wroteBytes` at each width. -/
theorem stores : Obligations.Stores := by
  intro s rd rs1 imm a b
  refine ⟨isWord_of_encode rfl (encRri_eq_append ..), isWord_of_encode rfl (encRri_eq_append ..),
    isWord_of_encode rfl (encRri_eq_append ..), fun hm => ⟨fun aligned inside => ?_, fun aligned inside => ?_,
      fun inside => ?_⟩⟩
  · have passed := checkAccess_eq_none (n := .word) aligned inside
    exact ⟨_, rfl, store_wroteBytes hm passed (s.getReg rd)⟩
  · have passed := checkAccess_eq_none (n := .short) aligned inside
    exact ⟨_, rfl, store_wroteBytes hm passed (s.getReg rd)⟩
  · have passed := checkAccess_eq_none (n := .byte) (.inl (Nat.mod_one a)) inside
    exact ⟨_, rfl, store_wroteBytes hm passed (s.getReg rd)⟩

/-- Settles O31: the words by the encoder, the effect by `load_wroteRegister` at each width, the value by the extension of
the bytes read. -/
theorem loads : Obligations.Loads := by
  intro s rd rs1 imm a b
  have word : s.data.readLE a 4 = (b 3 ++ b 2 ++ b 1 ++ b 0).toNat := readLE_four s.data a
  have short : s.data.readLE a 2 = (b 1 ++ b 0).toNat := readLE_two s.data a
  have byte : s.data.readLE a 1 = (b 0).toNat := readLE_one s.data a
  refine ⟨⟨isWord_of_encode rfl (encRri_eq_append ..), isWord_of_encode rfl (encRri_eq_append ..),
    isWord_of_encode rfl (encRri_eq_append ..), isWord_of_encode rfl (encRri_eq_append ..),
    isWord_of_encode rfl (encRri_eq_append ..)⟩, fun aligned inside => ?_, fun aligned inside => ?_, fun inside => ?_⟩
  · have passed := checkAccess_eq_none (n := .word) aligned inside
    rw [← zextLoaded_toNat (b 3 ++ b 2 ++ b 1 ++ b 0), ← word]
    exact ⟨_, rfl, load_wroteRegister passed rd zextLoaded⟩
  · have passed := checkAccess_eq_none (n := .short) aligned inside
    rw [← sextShort_toNat, ← zextLoaded_short, ← short]
    exact ⟨⟨_, rfl, load_wroteRegister passed rd sextShort⟩, ⟨_, rfl, load_wroteRegister passed rd zextLoaded⟩⟩
  · have passed := checkAccess_eq_none (n := .byte) (.inl (Nat.mod_one a)) inside
    rw [← sextByte_toNat, ← zextLoaded_byte, ← byte]
    exact ⟨⟨_, rfl, load_wroteRegister passed rd sextByte⟩, ⟨_, rfl, load_wroteRegister passed rd zextLoaded⟩⟩

end Sys2Proof.Machine
end

section
/-! The integer obligations of 42_immediate_arithmetic.md and their register forms in 43_register_arithmetic.md. What an
arm of `exec` that writes a result leaves is said once; what is left for an instruction is its word and its result on
numbers. -/

namespace Sys2Proof.Machine

/-! ## Words of the register forms -/

/-- An RRR word, its opcode and function (the slot of 30_encoding.md R78) in one piece. -/
theorem encRrr_eq_append (opf : BitVec 4) (rd rs1 rs2 : Reg) :
    encRrr opf rd rs1 rs2 = 0#10 ++ rs2 ++ rs1 ++ rd ++ (3#3 ++ opf) := by
  apply BitVec.eq_of_toNat_eq
  rw [encRrr_toNat]
  simp only [toNat_append_add, BitVec.toNat_ofNat]
  omega

/-! ## Arms of `exec` that write a result -/

section
variable {i : Instr} {s : State} {site : DrawSite} {a b : Word} {rd : Reg}

theorem completes_of_writeNext {v : Word} (arm : exec i s = .next (s.writeNext rd v)) : Completes i s rd v :=
  ⟨_, arm, writeNext_wrote s rd v⟩

/-- The same with the value as a statement writes it. -/
theorem completes_of_writeNext_eq {v w : Word} (arm : exec i s = .next (s.writeNext rd v)) (value : v = w) :
    Completes i s rd w :=
  value ▸ completes_of_writeNext arm

theorem completes_of_known {r : Value} {v : Word} (arm : exec i s = .next (s.writeValue site a b rd r))
    (known : r = .known v) : Completes i s rd v := by
  subst known
  exact completes_of_writeNext arm

/-- Any result is written; what is known of the settled word is known of the register. -/
theorem completesFree_of_settle {r : Value} {p : Word → Prop} (arm : exec i s = .next (s.writeValue site a b rd r))
    (settled : p (s.settle site a b r)) : CompletesFree i s rd p :=
  ⟨_, _, _, arm, writeValue_wrote s site a b rd r, settled⟩

theorem completes_of_ok_known {r : Except Exc Value} {v : Word}
    (arm : exec i s = .next (s.writeOrRaise site a b rd r)) (known : r = .ok (.known v)) : Completes i s rd v := by
  subst known
  exact completes_of_writeNext arm

end

/-! ## Addition and subtraction (R131, R132) -/

/-- A difference modulo 2^32, written on numbers. -/
theorem sub_eq_ofInt (v w : Word) : v - w = BitVec.ofInt 32 (v.toNat - w.toNat) := by
  apply BitVec.eq_of_toInt_eq
  rw [BitVec.toInt_sub, BitVec.toInt_ofInt, BitVec.toInt_eq_toNat_bmod, BitVec.toInt_eq_toNat_bmod, Int.bmod_sub_bmod,
    Int.sub_bmod_bmod]

theorem add_eq_ofNat (v w : Word) : v + w = BitVec.ofNat 32 (v.toNat + w.toNat) := by
  rw [← add_ofNat_eq, BitVec.ofNat_toNat, BitVec.setWidth_eq]

/-- The zero-extended immediate is the same number. -/
theorem zext15_toNat (imm : Imm15) : (zext15 imm).toNat = imm.toNat := by
  rw [zext15_eq_ofNat, BitVec.toNat_ofNat]
  omega

/-- Settles O34: the words by the encoder, each sum and difference on numbers. -/
theorem addAndSubtract : Obligations.AddAndSubtract := by
  intro s rd rs1 rs2 imm
  refine ⟨⟨isWord_of_encode rfl (encRrr_eq_append ..), ?add⟩, ⟨isWord_of_encode rfl (encRrr_eq_append ..), ?sub⟩,
    ⟨isWord_of_encode rfl (encRri_eq_append ..), ?addi⟩, isWord_of_encode rfl (encRri_eq_append ..), ?subi⟩
  case add => exact completes_of_writeNext_eq rfl (add_eq_ofNat _ _)
  case sub => exact completes_of_writeNext_eq rfl (sub_eq_ofInt _ _)
  case addi => exact completes_of_writeNext_eq rfl (by rw [add_eq_ofNat, zext15_toNat])
  case subi => exact completes_of_writeNext_eq rfl (by rw [sub_eq_ofInt, zext15_toNat])

/-! ## Bitwise logic (R133 to R135) -/

/-- Bits 14 and above of the sign-extended immediate are its bit 14. -/
theorem sext15_getLsbD (imm : Imm15) {k : Nat} (hk : k < 32) : (sext15 imm).getLsbD k = imm.getLsbD (min k 14) := by
  rw [sext15, BitVec.getLsbD_signExtend, decide_eq_true hk, Bool.true_and]
  by_cases low : k < 15
  · rw [if_pos low, Nat.min_eq_left (by omega)]
  · rw [if_neg low, Nat.min_eq_right (by omega), BitVec.msb_eq_getLsbD_last]

/-- Three instructions that combine `x[rs1]` with the word `w` bit by bit, `bit k` being bit `k` of `w`. -/
theorem bitwise_results {and xor or : Instr} {s : State} {rd rs1 : Reg} {w : Word} {bit : Nat → Bool}
    (bits : ∀ k < 32, w.getLsbD k = bit k) (hand : exec and s = .next (s.writeNext rd (s.getReg rs1 &&& w)))
    (hxor : exec xor s = .next (s.writeNext rd (s.getReg rs1 ^^^ w)))
    (hor : exec or s = .next (s.writeNext rd (s.getReg rs1 ||| w))) :
    ∃ a x o : Word, (Completes and s rd a ∧ Completes xor s rd x ∧ Completes or s rd o) ∧
      ∀ k < 32, a.getLsbD k = ((s.getReg rs1).getLsbD k && bit k) ∧
        x.getLsbD k = ((s.getReg rs1).getLsbD k ^^ bit k) ∧ o.getLsbD k = ((s.getReg rs1).getLsbD k || bit k) := by
  refine ⟨_, _, _, ⟨completes_of_writeNext hand, completes_of_writeNext hxor, completes_of_writeNext hor⟩,
    fun k hk => ?_⟩
  rw [BitVec.getLsbD_and, BitVec.getLsbD_xor, BitVec.getLsbD_or, bits k hk]
  exact ⟨rfl, rfl, rfl⟩

/-- Settles O35: the words by the encoder, the bits by `bitwise_results` for the register and for the immediate. -/
theorem bitwiseLogic : Obligations.BitwiseLogic := by
  intro s rd rs1 rs2 imm
  refine ⟨⟨isWord_of_encode rfl (encRrr_eq_append ..), isWord_of_encode rfl (encRrr_eq_append ..),
    isWord_of_encode rfl (encRrr_eq_append ..), isWord_of_encode rfl (encRri_eq_append ..),
    isWord_of_encode rfl (encRri_eq_append ..), isWord_of_encode rfl (encRri_eq_append ..)⟩, ?_⟩
  rw [List.forall_mem_cons, List.forall_mem_singleton]
  exact ⟨bitwise_results (w := s.getReg rs2) (fun _ _ => rfl) rfl rfl rfl,
    bitwise_results (w := sext15 imm) (fun _ => sext15_getLsbD imm) rfl rfl rfl⟩

/-! ## Shifts (R136) -/

theorem shiftLeft_eq_ofNat (v : Word) (n : Nat) : v <<< n = BitVec.ofNat 32 (v.toNat * 2 ^ n) := by
  apply BitVec.eq_of_toNat_eq
  rw [BitVec.toNat_shiftLeft, BitVec.toNat_ofNat, Nat.shiftLeft_eq]

theorem ushiftRight_eq_ofNat (v : Word) (n : Nat) : v >>> n = BitVec.ofNat 32 (v.toNat / 2 ^ n) := by
  rw [← Nat.shiftRight_eq_div_pow, ← BitVec.toNat_ushiftRight, BitVec.ofNat_toNat, BitVec.setWidth_eq]

theorem sshiftRight_eq_ofInt (v : Word) (n : Nat) : v.sshiftRight n = BitVec.ofInt 32 (v.toInt / 2 ^ n) := by
  rw [← BitVec.ofInt_toInt (x := v.sshiftRight n), BitVec.toInt_sshiftRight, Int.shiftRight_eq_div_pow]
  norm_cast

/-- An arithmetic shift by 32 or more leaves copies of bit 31. -/
theorem sshiftRight_of_ge {n : Nat} (v : Word) (h : 32 ≤ n) : v.sshiftRight n = if v.msb then 0xFFFFFFFF else 0 := by
  cases sign : v.msb with
  | true => rw [BitVec.sshiftRight_eq_of_msb_true sign, BitVec.ushiftRight_eq_zero h]; rfl
  | false => rw [BitVec.sshiftRight_eq_of_msb_false sign, BitVec.ushiftRight_eq_zero h]; rfl

/-! The policies agree on the amounts below 32; a larger amount has a known result under two of them. -/

theorem shiftBy_of_lt {n : Nat} (h : n < 32) (p : ShiftPolicy) (f : Nat → Word) (big : Word) :
    shiftBy p f big n = .known (f n) := if_pos h

theorem shiftBy_mathematical_of_ge {n : Nat} (h : ¬n < 32) (f : Nat → Word) (big : Word) :
    shiftBy .mathematical f big n = .known big := if_neg h

theorem shiftBy_mask5 (f : Nat → Word) (big : Word) (n : Nat) : shiftBy .mask5 f big n = .known (f (n % 32)) := by
  by_cases h : n < 32
  · rw [shiftBy_of_lt h, Nat.mod_eq_of_lt h]
  · exact if_neg h

/-- A shift under every `SHIFT_POLICY`: `f` is the exact formula `g` for every amount, large ones included. -/
theorem shiftResult_of_shiftBy {i : Instr} {s : State} {site : DrawSite} {a b : Word} {rd : Reg} {f g : Nat → Word}
    {big : Word} {n : Nat}
    (arm : exec i s = .next (s.writeValue site a b rd (shiftBy s.params.shiftPolicy f big n)))
    (formula : ∀ k, f k = g k) (large : 32 ≤ n → f n = big) : ShiftResult i s rd g n := by
  refine ⟨fun amount => completes_of_known arm ?_, fun policy => completes_of_known arm ?_,
    fun _ _ => completesFree_of_settle arm trivial⟩
  · by_cases h : n < 32
    · rw [shiftBy_of_lt h, formula]
    · rw [amount.resolve_left h, shiftBy_mathematical_of_ge h, ← large (by omega), formula]
  · rw [policy, shiftBy_mask5, formula]

section
variable {i : Instr} {s : State} {site : DrawSite} {b : Word} {rd rs1 : Reg} {n : Nat}

theorem shiftResult_shl (arm : exec i s = .next (s.writeValue site (s.getReg rs1) b rd
    (shl s.params.shiftPolicy (s.getReg rs1) n))) :
    ShiftResult i s rd (fun k => BitVec.ofNat 32 ((s.getReg rs1).toNat * 2 ^ k)) n :=
  shiftResult_of_shiftBy arm (shiftLeft_eq_ofNat _) BitVec.shiftLeft_eq_zero

theorem shiftResult_shrl (arm : exec i s = .next (s.writeValue site (s.getReg rs1) b rd
    (shrl s.params.shiftPolicy (s.getReg rs1) n))) :
    ShiftResult i s rd (fun k => BitVec.ofNat 32 ((s.getReg rs1).toNat / 2 ^ k)) n :=
  shiftResult_of_shiftBy arm (ushiftRight_eq_ofNat _) BitVec.ushiftRight_eq_zero

theorem shiftResult_shra (arm : exec i s = .next (s.writeValue site (s.getReg rs1) b rd
    (shra s.params.shiftPolicy (s.getReg rs1) n))) :
    ShiftResult i s rd (fun k => BitVec.ofInt 32 ((s.getReg rs1).toInt / 2 ^ k)) n :=
  shiftResult_of_shiftBy arm (sshiftRight_eq_ofInt _) (sshiftRight_of_ge _)

end

/-- Settles O36: the words by the encoder, each of the three shifts for both kinds of amount. -/
theorem shifts : Obligations.Shifts := fun _ _ _ _ _ =>
  ⟨⟨isWord_of_encode rfl (encRri_eq_append ..), shiftResult_shl rfl⟩,
    ⟨isWord_of_encode rfl (encRri_eq_append ..), shiftResult_shrl rfl⟩,
    ⟨isWord_of_encode rfl (encRri_eq_append ..), shiftResult_shra rfl⟩,
    ⟨isWord_of_encode rfl (encRrr_eq_append ..), shiftResult_shl rfl⟩,
    ⟨isWord_of_encode rfl (encRrr_eq_append ..), shiftResult_shrl rfl⟩,
    ⟨isWord_of_encode rfl (encRrr_eq_append ..), shiftResult_shra rfl⟩⟩

/-! ## Multiplication (R140) -/

/-- The low half of the product does not depend on how the first operand is read. -/
theorem mulLow_eq_signed (a b : Word) : mulLow a b = BitVec.ofInt 32 (a.toInt * b.toInt) := by
  rw [BitVec.ofInt_mul, BitVec.ofInt_toInt, BitVec.ofInt_toInt, mulLow]

theorem mulLow_eq_mixed (a b : Word) : mulLow a b = BitVec.ofInt 32 (a.toNat * b.toInt) := by
  rw [BitVec.ofInt_mul, BitVec.ofInt_natCast, BitVec.ofNat_toNat, BitVec.setWidth_eq, BitVec.ofInt_toInt, mulLow]

theorem mulLow_eq_unsigned (a b : Word) : mulLow a b = BitVec.ofNat 32 (a.toNat * b.toNat) := by
  simp only [mulLow, BitVec.ofNat_mul, BitVec.ofNat_toNat, BitVec.setWidth_eq]

/-- The sign-extended immediate is the same signed number. -/
theorem sext15_toInt (imm : Imm15) : (sext15 imm).toInt = imm.toInt := BitVec.toInt_signExtend_of_le (by decide)

/-- Settles O37: the words by the encoder, the product under each reading. -/
theorem multiply : Obligations.Multiply := by
  intro s rd rs1 rs2 imm
  refine ⟨⟨isWord_of_encode rfl (encRri_eq_append ..), ?_, ?_⟩, isWord_of_encode rfl (encRrr_eq_append ..), ?_, ?_⟩
  · exact completes_of_writeNext_eq rfl (by rw [mulLow_eq_signed, sext15_toInt])
  · exact completes_of_writeNext_eq rfl (by rw [mulLow_eq_mixed, sext15_toInt])
  · exact completes_of_writeNext_eq rfl (mulLow_eq_unsigned _ _)
  · exact completes_of_writeNext_eq rfl (mulLow_eq_signed _ _)

/-! ## Division (R141) -/

theorem divOverflows_iff {a b : Word} : divOverflows a b = true ↔ a.toInt = -2 ^ 31 ∧ b.toInt = -1 := by
  have least : a = 0x80000000 ↔ a.toInt = -2 ^ 31 := BitVec.toInt_inj.symm
  have minusOne : b = 0xFFFFFFFF ↔ b.toInt = -1 := BitVec.toInt_inj.symm
  rw [divOverflows, Bool.and_eq_true, beq_iff_eq, beq_iff_eq, least, minusOne]

theorem truncating_fault {a b : Word} (overflow : divOverflows a b = true) (f : Int → Int → Int) :
    truncating .fault f a b = .error .divideOverflow := if_pos overflow

theorem truncating_unspecified {a b : Word} (overflow : divOverflows a b = true) (f : Int → Int → Int) :
    truncating .unspecified f a b = .ok .free := if_pos overflow

/-- Where the result is a number, it is the exact one modulo 2^32. -/
theorem truncating_eq_known {p : DivOverflow} {a b : Word} (f : Int → Int → Int)
    (fits : p = .wrap ∨ ¬(a.toInt = -2 ^ 31 ∧ b.toInt = -1)) :
    truncating p f a b = .ok (.known (BitVec.ofInt 32 (f a.toInt b.toInt))) := by
  by_cases overflow : divOverflows a b = true
  · obtain rfl := fits.resolve_right (not_not_intro (divOverflows_iff.mp overflow))
    exact if_pos overflow
  · exact if_neg overflow

theorem truncatingReg_of_ne {b : Word} (h : b ≠ 0) (p : Params) (f : Int → Int → Int) (a : Word) :
    truncatingReg p f a b = truncating p.divOverflow f a b := if_neg h

theorem trem_eq_tmod (a b : Int) : trem a b = a.tmod b := by
  rw [trem, tdiv, Int.tmod_def, mul_comm]

/-- The remainder has the dividend's sign. -/
theorem trem_mul_nonneg (a b : Int) : 0 ≤ trem a b * a := by
  rw [trem_eq_tmod]
  rcases le_total 0 a with h | h
  · exact mul_nonneg (Int.tmod_nonneg b h) h
  · refine mul_nonneg_of_nonpos_of_nonpos ?_ h
    have opposite : 0 ≤ (-a).tmod b := Int.tmod_nonneg b (by omega)
    rw [Int.neg_tmod] at opposite
    omega

theorem abs_trem_lt (a : Int) {b : Int} (h : b ≠ 0) : |trem a b| < |b| := by
  rw [trem_eq_tmod, ← Int.natCast_natAbs, ← Int.natCast_natAbs, Int.natAbs_tmod]
  exact_mod_cast Nat.mod_lt _ (Int.natAbs_pos.mpr h)

/-- Two instructions that write the truncated quotient and its remainder have the results of one division. -/
theorem divisionResult_of_completes {i j : Instr} {s : State} {rd : Reg} {a b : Int} (nonzero : b ≠ 0)
    (quotient : Completes i s rd (BitVec.ofInt 32 (tdiv a b)))
    (remainder : Completes j s rd (BitVec.ofInt 32 (trem a b))) : DivisionResult i j s rd a b :=
  ⟨tdiv a b, trem a b, by rw [trem]; omega, abs_trem_lt a nonzero, trem_mul_nonneg a b, quotient, remainder⟩

/-! The arms of `exec` that divide, where the divisor is not 0. -/

theorem exec_div_of_ne {s : State} {rs2 : Reg} (h : s.getReg rs2 ≠ 0) (rd rs1 : Reg) :
    exec (.div rd rs1 rs2) s = .next (s.writeOrRaise .div (s.getReg rs1) (s.getReg rs2) rd
      (truncating s.params.divOverflow tdiv (s.getReg rs1) (s.getReg rs2))) := by
  rw [← truncatingReg_of_ne h]; rfl

theorem exec_rem_of_ne {s : State} {rs2 : Reg} (h : s.getReg rs2 ≠ 0) (rd rs1 : Reg) :
    exec (.rem rd rs1 rs2) s = .next (s.writeOrRaise .rem (s.getReg rs1) (s.getReg rs2) rd
      (truncating s.params.divOverflow trem (s.getReg rs1) (s.getReg rs2))) := by
  rw [← truncatingReg_of_ne h]; rfl

theorem exec_divi_of_ne {imm : Imm15} (h : imm ≠ 0) (rd rs1 : Reg) (s : State) :
    exec (.divi rd rs1 imm) s = .next (s.writeOrRaise .divi (s.getReg rs1) (sext15 imm) rd
      (truncating s.params.divOverflow tdiv (s.getReg rs1) (sext15 imm))) :=
  congrArg Host.Outcome.next (if_neg h)

theorem exec_remi_of_ne {imm : Imm15} (h : imm ≠ 0) (rd rs1 : Reg) (s : State) :
    exec (.remi rd rs1 imm) s = .next (s.writeOrRaise .remi (s.getReg rs1) (sext15 imm) rd
      (truncating s.params.divOverflow trem (s.getReg rs1) (sext15 imm))) :=
  congrArg Host.Outcome.next (if_neg h)

/-- Settles O38: the words by the encoder, the results by `truncating_eq_known`. -/
theorem divideImmediate : Obligations.DivideImmediate := by
  intro s rd rs1 imm nonzero
  have legal : (imm != 0) = true := bne_iff_ne.mpr nonzero
  refine ⟨⟨isWord_of_encode legal (encRri_eq_append ..), isWord_of_encode legal (encRri_eq_append ..)⟩, fun fits => ?_⟩
  rw [← sext15_toInt] at fits ⊢
  have divisor : (sext15 imm).toInt ≠ 0 := by rwa [sext15_toInt, ← BitVec.toInt_zero, Ne, BitVec.toInt_inj]
  exact divisionResult_of_completes divisor
    (completes_of_ok_known (exec_divi_of_ne nonzero rd rs1 s) (truncating_eq_known tdiv fits))
    (completes_of_ok_known (exec_remi_of_ne nonzero rd rs1 s) (truncating_eq_known trem fits))

/-- The overflow of any truncating operation, where it does not wrap. -/
theorem overflow_of_truncating {i : Instr} {s : State} {site : DrawSite} {a b : Word} {rd : Reg} {f : Int → Int → Int}
    (arm : exec i s = .next (s.writeOrRaise site a b rd (truncating s.params.divOverflow f a b)))
    (least : a.toInt = -2 ^ 31) (minusOne : b.toInt = -1) :
    (s.params.divOverflow = .fault → exec i s = .next { s with status := .stopped .divideOverflow }) ∧
      (s.params.divOverflow = .unspecified → CompletesFree i s rd fun _ => True) := by
  have overflow : divOverflows a b = true := divOverflows_iff.mpr ⟨least, minusOne⟩
  refine ⟨fun policy => ?_, fun policy => ?_⟩
  · rwa [policy, truncating_fault overflow] at arm
  · rw [policy, truncating_unspecified overflow] at arm
    exact completesFree_of_settle (site := site) (a := a) (b := b) (r := .free) arm trivial

/-- Settles O41: each of the four instructions is a truncating operation on -2^31 and -1. -/
theorem divideOverflow : Obligations.DivideOverflow := by
  intro s rd rs1 rs2 least i hi
  have register (minusOne : (s.getReg rs2).toInt = -1) : s.getReg rs2 ≠ 0 := by
    rintro zero
    rw [zero] at minusOne
    cases minusOne
  have immediate : (sext15 (-1)).toInt = -1 := by decide
  rcases hi with ⟨rfl | rfl, minusOne⟩ | rfl | rfl
  · exact overflow_of_truncating (exec_div_of_ne (register minusOne) rd rs1) least minusOne
  · exact overflow_of_truncating (exec_rem_of_ne (register minusOne) rd rs1) least minusOne
  · exact overflow_of_truncating (exec_divi_of_ne (by decide) rd rs1 s) least immediate
  · exact overflow_of_truncating (exec_remi_of_ne (by decide) rd rs1 s) least immediate

end Sys2Proof.Machine
end

section
/-! Binary32 patterns and their rounding (47_float_numerics.md R240 to R243), for every obligation that speaks of
floats: what `unpack` reads from the fields of a pattern, which magnitudes are floats at all, and that `roundF32` gives the
nearest one. -/

namespace Sys2Proof.Machine

/-! ## The fields of a pattern (R240) -/

section
variable (v : Word)

theorem signOf_eq : signOf v = decide (2 ^ 31 ≤ v.toNat) := BitVec.msb_eq_decide v

theorem expOf_eq : expOf v = v.toNat / 2 ^ 23 % 256 := toNat_field v 23 8

theorem fracOf_eq : fracOf v = v.toNat % 2 ^ 23 := by
  rw [fracOf, toNat_field, Nat.pow_zero, Nat.div_one]

theorem expOf_lt : expOf v < 256 := (v.extractLsb' 23 8).isLt

theorem fracOf_lt : fracOf v < 2 ^ 23 := (v.extractLsb' 0 23).isLt

end

/-! ## The value of a pattern (R241), row by row of the table -/

section
variable {v : Word}

theorem unpack_of_subnormal (e : expOf v = 0) : unpack v = .finite (signOf v) (fracOf v) := by
  simp [unpack, e]

theorem unpack_of_normal (pos : 0 < expOf v) (lt : expOf v < 255) :
    unpack v = .finite (signOf v) ((2 ^ 23 + fracOf v) * 2 ^ (expOf v - 1)) := by
  rw [unpack, if_neg (by omega), if_neg (by omega)]

theorem unpack_of_infWord (h : InfWord v) : unpack v = .inf (signOf v) := by
  have e : expOf v = 255 := by rw [expOf_eq]; omega
  have f : fracOf v = 0 := by rw [fracOf_eq]; omega
  rw [unpack, if_pos e, if_pos f]

theorem unpack_of_nanWord (h : NanWord v) : unpack v = .nan := by
  obtain ⟨e, f⟩ := h
  rw [← expOf_eq] at e
  rw [← fracOf_eq] at f
  rw [unpack, if_pos e, if_neg f]

theorem unpack_of_zeroWord (h : ZeroWord v) : unpack v = .finite (signOf v) 0 := by
  have e : expOf v = 0 := by rw [expOf_eq]; omega
  have f : fracOf v = 0 := by rw [fracOf_eq]; omega
  rw [unpack_of_subnormal e, f]

/-- A finite value was read from a subnormal or from a normal pattern. -/
theorem unpack_eq_finite {neg : Bool} {m : Nat} (h : unpack v = .finite neg m) :
    (expOf v = 0 ∧ m = fracOf v) ∨
      (0 < expOf v ∧ expOf v < 255 ∧ m = (2 ^ 23 + fracOf v) * 2 ^ (expOf v - 1)) := by
  unfold unpack at h
  split at h
  · split at h <;> cases h
  · split at h
    · cases h; exact .inl ⟨‹_›, rfl⟩
    · cases h
      have := expOf_lt v
      exact .inr ⟨by omega, by omega, rfl⟩

/-- The magnitudes of finite floats: whole multiples of `2 ^ sh` units, but for those below the binade whose last place
that is. -/
theorem finite_dvd_or_lt {neg : Bool} {n : Nat} (h : unpack v = .finite neg n) (sh : Nat) :
    2 ^ sh ∣ n ∨ n < 2 ^ 23 * 2 ^ sh := by
  have frac := fracOf_lt v
  have one_le : 1 ≤ 2 ^ sh := Nat.one_le_two_pow
  rcases unpack_eq_finite h with ⟨-, rfl⟩ | ⟨pos, -, rfl⟩
  · exact .inr (by omega)
  · rcases le_or_gt sh (expOf v - 1) with coarse | fine
    · exact .inl (Dvd.dvd.mul_left (Nat.pow_dvd_pow 2 coarse) _)
    · refine .inr ?_
      calc (2 ^ 23 + fracOf v) * 2 ^ (expOf v - 1)
          < 2 ^ 24 * 2 ^ (expOf v - 1) := Nat.mul_lt_mul_of_pos_right (by omega) (by positivity)
        _ = 2 ^ 23 * 2 ^ (expOf v - 1 + 1) := by ring
        _ ≤ 2 ^ 23 * 2 ^ sh := Nat.mul_le_mul_left _ (Nat.pow_le_pow_right (by decide) fine)

end

/-! ## Patterns from a sign and bits 30:0 -/

theorem packBits_toNat (neg : Bool) {p : Nat} (h : p < 2 ^ 31) : (packBits neg p).toNat = neg.toNat * 2 ^ 31 + p := by
  rw [packBits, toNat_append_add, BitVec.toNat_ofBool, BitVec.toNat_ofNat, Nat.mod_eq_of_lt h]

theorem signOf_packBits (neg : Bool) {p : Nat} (h : p < 2 ^ 31) : signOf (packBits neg p) = neg := by
  rw [signOf_eq, packBits_toNat neg h]
  cases neg with
  | true => exact decide_eq_true (by rw [Bool.toNat_true]; omega)
  | false => exact decide_eq_false (by rw [Bool.toNat_false]; omega)

theorem expOf_packBits (neg : Bool) {p : Nat} (h : p < 2 ^ 31) : expOf (packBits neg p) = p / 2 ^ 23 := by
  rw [expOf_eq, packBits_toNat neg h]
  omega

theorem fracOf_packBits (neg : Bool) {p : Nat} (h : p < 2 ^ 31) : fracOf (packBits neg p) = p % 2 ^ 23 := by
  rw [fracOf_eq, packBits_toNat neg h]
  omega

theorem unpack_infOf (neg : Bool) : unpack (infOf neg) = .inf neg := by
  cases neg <;> decide

/-- Counting `q` last places of `2 ^ sh` units on from `sh` binades gives the pattern of `q * 2 ^ sh` units, the carry
into the next binade at `q = 2 ^ 24` included. -/
theorem unpack_packBits (neg : Bool) {sh q : Nat} (le : q ≤ 2 ^ 24) (low : sh = 0 ∨ 2 ^ 23 ≤ q)
    (finite : sh * 2 ^ 23 + q < 0x7F800000) : unpack (packBits neg (sh * 2 ^ 23 + q)) = .finite neg (q * 2 ^ sh) := by
  have lt : sh * 2 ^ 23 + q < 2 ^ 31 := by omega
  have sign := signOf_packBits neg lt
  have exp := expOf_packBits neg lt
  have frac := fracOf_packBits neg lt
  by_cases subnormal : q < 2 ^ 23
  · obtain rfl := low.resolve_right (by omega)
    rw [unpack_of_subnormal (by omega), sign, frac, Nat.zero_mul, Nat.zero_add, Nat.mod_eq_of_lt subnormal,
      Nat.pow_zero, Nat.mul_one]
  · rw [unpack_of_normal (by omega) (by omega), sign, frac, exp]
    rcases Nat.lt_or_eq_of_le le with within | rfl
    · have place : (sh * 2 ^ 23 + q) / 2 ^ 23 - 1 = sh := by omega
      have significand : 2 ^ 23 + (sh * 2 ^ 23 + q) % 2 ^ 23 = q := by omega
      rw [place, significand]
    · have place : (sh * 2 ^ 23 + 2 ^ 24) / 2 ^ 23 - 1 = sh + 1 := by omega
      have significand : 2 ^ 23 + (sh * 2 ^ 23 + 2 ^ 24) % 2 ^ 23 = 2 ^ 23 := by omega
      have carry : 2 ^ 23 * 2 ^ (sh + 1) = 2 ^ 24 * 2 ^ sh := by ring
      rw [place, significand, carry]

theorem unpack_zeroOf (neg : Bool) : unpack (zeroOf neg) = .finite neg 0 := by
  cases neg <;> decide

/-! ## Rounding to a whole number of last places (R242) -/

/-- `q` is the whole number nearest to `num / den`, an even one where two are equally near. -/
def NearestEven (num den q : Nat) : Prop :=
  2 * num ≤ 2 * (q * den) + den ∧ 2 * (q * den) ≤ 2 * num + den ∧
    (2 * num = 2 * (q * den) + den ∨ 2 * (q * den) = 2 * num + den → q % 2 = 0)

theorem divNearestEven_nearestEven (num : Nat) {den : Nat} (pos : 0 < den) :
    NearestEven num den (divNearestEven num den) := by
  have split_num := Nat.div_add_mod' num den
  have rest_lt := Nat.mod_lt num pos
  simp only [divNearestEven]
  split
  · rw [NearestEven, Nat.add_one_mul (num / den)]
    omega
  · rw [NearestEven]
    omega

/-- A whole quotient is the nearest. -/
theorem NearestEven.eq_of_mul {c den q : Nat} (h : NearestEven (c * den) den q) (pos : 0 < den) : q = c := by
  obtain ⟨ge, le, -⟩ := h
  have ge : 2 * c < 2 * q + 2 := Nat.lt_of_mul_lt_mul_right (a := den) (by linarith)
  have le : 2 * q < 2 * c + 2 := Nat.lt_of_mul_lt_mul_right (a := den) (by linarith)
  omega

/-- The last place that `roundMag` rounds to is `2 ^ lastPlace` units. -/
def lastPlace (whole : Nat) : Nat := if whole < 2 ^ 24 then 0 else whole.log2 - 23

theorem roundMag_eq (num den : Nat) : roundMag num den =
    lastPlace (num / den) * 2 ^ 23 + divNearestEven num (den * 2 ^ lastPlace (num / den)) := rfl

/-- A number has at most 24 bits before its last place, and just 24 above the subnormal range. -/
theorem lastPlace_spec (whole : Nat) : whole < 2 ^ 24 * 2 ^ lastPlace whole ∧
    (lastPlace whole = 0 ∨ 2 ^ 23 * 2 ^ lastPlace whole ≤ whole) := by
  unfold lastPlace
  split
  · exact ⟨by omega, .inl rfl⟩
  · have bits : 24 ≤ whole.log2 := (Nat.le_log2 (by omega)).mpr (by omega)
    rw [← pow_add, ← pow_add, show 24 + (whole.log2 - 23) = whole.log2 + 1 by omega,
      show 23 + (whole.log2 - 23) = whole.log2 by omega]
    exact ⟨Nat.lt_log2_self, .inr (Nat.log2_self_le (by omega))⟩

/-- What `roundMag` answers: `q` last places of `2 ^ sh` units, `q` with 24 bits at most, counted on from `sh`
binades. -/
theorem roundMag_spec (num : Nat) {den : Nat} (pos : 0 < den) : ∃ sh q, roundMag num den = sh * 2 ^ 23 + q ∧
    NearestEven num (den * 2 ^ sh) q ∧ q ≤ 2 ^ 24 ∧ num < 2 ^ 24 * (den * 2 ^ sh) ∧
    (sh = 0 ∨ 2 ^ 23 ≤ q ∧ 2 ^ 23 * (den * 2 ^ sh) ≤ num) := by
  obtain ⟨high, low⟩ := lastPlace_spec (num / den)
  have pos' : 0 < den * 2 ^ lastPlace (num / den) := by positivity
  have nearest := divNearestEven_nearestEven num pos'
  refine ⟨_, _, roundMag_eq num den, nearest, ?_⟩
  generalize lastPlace (num / den) = sh at *
  generalize divNearestEven num (den * 2 ^ sh) = q at *
  obtain ⟨ge, le, -⟩ := nearest
  have high : num < 2 ^ 24 * (den * 2 ^ sh) := by
    rw [mul_left_comm, mul_comm]; exact (Nat.div_lt_iff_lt_mul pos).mp high
  refine ⟨?_, high, low.imp_right fun low => ?_⟩
  · have : 2 * q < 2 * 2 ^ 24 + 1 := Nat.lt_of_mul_lt_mul_right (a := den * 2 ^ sh) (by linarith)
    omega
  · have low : 2 ^ 23 * (den * 2 ^ sh) ≤ num := by
      rw [mul_left_comm, mul_comm]; exact (Nat.le_div_iff_mul_le pos).mp low
    have : 2 * 2 ^ 23 < 2 * q + 2 := Nat.lt_of_mul_lt_mul_right (a := den * 2 ^ sh) (by linarith)
    exact ⟨by omega, low⟩

/-! ## The nearest float (R242) -/

/-- Floats beside `q` last places of `2 ^ sh` units: another one is at least a last place away, but for those below the
least magnitude of its binade. -/
theorem float_apart {f : Word} {g : Bool} {n sh q : Nat} (hf : unpack f = .finite g n) (low : sh = 0 ∨ 2 ^ 23 ≤ q) :
    n = q * 2 ^ sh ∨ n + 2 ^ sh ≤ q * 2 ^ sh ∨ q * 2 ^ sh + 2 ^ sh ≤ n ∨ (sh ≠ 0 ∧ q = 2 ^ 23 ∧ n < q * 2 ^ sh) := by
  have apart {a b : Nat} (ha : 2 ^ sh ∣ a) (hb : 2 ^ sh ∣ b) (lt : a < b) : a + 2 ^ sh ≤ b := by
    have := Nat.le_of_dvd (by omega) (Nat.dvd_sub hb ha)
    omega
  have whole : 2 ^ sh ∣ q * 2 ^ sh := Nat.dvd_mul_left _ _
  have multiple (h : 2 ^ sh ∣ n) : n = q * 2 ^ sh ∨ n + 2 ^ sh ≤ q * 2 ^ sh ∨ q * 2 ^ sh + 2 ^ sh ≤ n := by
    rcases Nat.lt_trichotomy n (q * 2 ^ sh) with lt | eq | gt
    · exact .inr (.inl (apart h whole lt))
    · exact .inl eq
    · exact .inr (.inr (apart whole h gt))
  by_cases zero : sh = 0
  · subst zero
    have := multiple (one_dvd n)
    tauto
  · rcases finite_dvd_or_lt hf sh with dvd | lt
    · have := multiple dvd
      tauto
    · rcases Nat.eq_or_lt_of_le (low.resolve_left zero) with rfl | more
      · exact .inr (.inr (.inr ⟨zero, rfl, lt⟩))
      · have : (2 ^ 23 + 1) * 2 ^ sh ≤ q * 2 ^ sh := Nat.mul_le_mul_right _ more
        omega

/-- No float lies nearer than the nearest number of last places, and one that lies equally near leaves the even
number. -/
theorem midpoint_of_nearestEven {num den sh q : Nat} (nearest : NearestEven num (den * 2 ^ sh) q)
    (low : sh = 0 ∨ 2 ^ 23 ≤ q ∧ 2 ^ 23 * (den * 2 ^ sh) ≤ num) {f : Word} {g : Bool} {n : Nat}
    (hf : unpack f = .finite g n) :
    (n < q * 2 ^ sh → (n + q * 2 ^ sh) * den ≤ 2 * num) ∧ (q * 2 ^ sh < n → 2 * num ≤ (n + q * 2 ^ sh) * den) ∧
      (n ≠ q * 2 ^ sh → (n + q * 2 ^ sh) * den = 2 * num → q % 2 = 0) := by
  obtain ⟨ge, le, tie⟩ := nearest
  have scaled : q * (den * 2 ^ sh) = q * 2 ^ sh * den := by ring
  have place : 0 < 2 ^ sh := by positivity
  rcases float_apart hf (low.imp_right And.left) with eq | below | above | ⟨inner, rfl, lt⟩
  · exact ⟨by omega, by omega, by omega⟩
  · have := Nat.mul_le_mul_right den below
    exact ⟨fun _ => by linarith, by omega, fun _ mid => tie (.inr (by linarith))⟩
  · have := Nat.mul_le_mul_right den above
    exact ⟨by omega, fun _ => by linarith, fun _ mid => tie (.inl (by linarith))⟩
  · obtain ⟨-, least⟩ := low.resolve_left inner
    have := Nat.mul_le_mul_right den lt.le
    exact ⟨fun _ => by linarith, by omega, fun _ _ => rfl⟩

/-- The last places counted on reach the pattern of infinity just where the number reaches the threshold (R242): there
the last place is `2 ^ 253` units and the number rounds up, a tie included, to 2^24 of them. -/
theorem reaches_infinity_iff {num den sh q : Nat} (nearest : NearestEven num (den * 2 ^ sh) q) (le : q ≤ 2 ^ 24)
    (high : num < 2 ^ 24 * (den * 2 ^ sh)) (low : sh = 0 ∨ 2 ^ 23 ≤ q ∧ 2 ^ 23 * (den * 2 ^ sh) ≤ num) :
    0x7F800000 ≤ sh * 2 ^ 23 + q ↔ (2 ^ 25 - 1) * 2 ^ 252 * den ≤ num := by
  obtain ⟨near_above, near_below, tie⟩ := nearest
  rcases Nat.lt_trichotomy sh 253 with small | rfl | large
  · have place : den * 2 ^ sh ≤ den * 2 ^ 252 := Nat.mul_le_mul_left _ (Nat.pow_le_pow_right (by decide) (by omega))
    exact iff_of_false (by omega) (by omega)
  · have reaches : 0x7F800000 ≤ 253 * 2 ^ 23 + q ↔ q = 2 ^ 24 := by omega
    rw [reaches]
    refine ⟨fun eq => by subst eq; omega, fun reached => ?_⟩
    by_contra ne
    have : q * (den * 2 ^ 253) ≤ (2 ^ 24 - 1) * (den * 2 ^ 253) := Nat.mul_le_mul_right _ (by omega)
    have even : q % 2 = 0 := tie (.inl (by omega))
    have : q * (den * 2 ^ 253) ≤ (2 ^ 24 - 2) * (den * 2 ^ 253) := Nat.mul_le_mul_right _ (by omega)
    omega
  · obtain ⟨full, least⟩ := low.resolve_left (by omega)
    have place : den * 2 ^ 254 ≤ den * 2 ^ sh := Nat.mul_le_mul_left _ (Nat.pow_le_pow_right (by decide) large)
    exact iff_of_true (by omega) (by omega)

theorem packBits_getLsbD_zero (neg : Bool) {p : Nat} (h : p < 2 ^ 31) :
    (packBits neg p).getLsbD 0 = decide (p % 2 = 1) := by
  rw [BitVec.getLsbD, packBits_toNat neg h, Nat.testBit_zero, decide_eq_decide]
  omega

/-- `roundF32` gives the float nearest to the number, a tie the even pattern, infinity from the threshold on (R242). -/
theorem roundF32_nearestFloat (neg : Bool) (num : Nat) {den : Nat} (pos : 0 < den) :
    NearestFloat neg num den (roundF32 neg num den) := by
  obtain ⟨sh, q, mag, nearest, le, high, low⟩ := roundMag_spec num pos
  have threshold := reaches_infinity_iff nearest le high low
  rw [roundF32, mag]
  rcases le_or_gt 0x7F800000 (sh * 2 ^ 23 + q) with inf | finite
  · rw [Nat.min_eq_right inf]
    exact .inl ⟨unpack_infOf neg, threshold.mp inf⟩
  · rw [Nat.min_eq_left finite.le]
    refine .inr ⟨q * 2 ^ sh, unpack_packBits neg le (low.imp_right And.left) finite,
      lt_of_not_ge (mt threshold.mpr (by omega)), fun f g n hf => ?_⟩
    obtain ⟨below, above, tie⟩ := midpoint_of_nearestEven nearest low hf
    refine ⟨below, above, fun ne mid => ?_⟩
    have even : q % 2 = 0 := tie ne mid
    rw [packBits_getLsbD_zero neg (by omega), decide_eq_false (by omega)]

/-- A whole number of magnitude 2^24 or less is a float, and rounds to itself. -/
theorem unpack_roundF32_whole (neg : Bool) {k : Nat} (le : k ≤ 2 ^ 24) :
    unpack (roundF32 neg (k * 2 ^ 149) 1) = .finite neg (k * 2 ^ 149) := by
  obtain ⟨sh, q, mag, nearest, q_le, -, low⟩ := roundMag_spec (k * 2 ^ 149) Nat.one_pos
  rw [Nat.one_mul] at nearest low
  have least : sh = 0 ∨ 2 ^ 23 * 2 ^ sh ≤ 2 ^ 24 * 2 ^ 149 :=
    low.imp_right fun ⟨_, least⟩ => least.trans (Nat.mul_le_mul_right _ le)
  have sh_le : sh ≤ 150 := by
    by_contra gt
    have : 2 ^ 151 ≤ 2 ^ sh := Nat.pow_le_pow_right (by decide) (by omega)
    omega
  have dvd : 2 ^ sh ∣ k * 2 ^ 149 := by
    rcases Nat.lt_or_eq_of_le sh_le with lt | rfl
    · exact Dvd.dvd.mul_left (Nat.pow_dvd_pow 2 (by omega)) k
    · obtain rfl : k = 2 ^ 24 := by omega
      exact ⟨2 ^ 23, by norm_num⟩
  obtain ⟨c, whole⟩ := dvd
  rw [whole, mul_comm] at nearest
  obtain rfl := nearest.eq_of_mul (by positivity)
  have finite : sh * 2 ^ 23 + q < 0x7F800000 := by omega
  rw [roundF32, mag, Nat.min_eq_left finite.le, unpack_packBits neg q_le (low.imp_right And.left) finite, whole,
    mul_comm]

end Sys2Proof.Machine
end

section
/-! The obligations of 42_immediate_arithmetic.md on floats: conversion between integers and floats, and rounding to an
integral float (47_float_numerics.md R247 to R249). -/

namespace Sys2Proof.Machine

/-! ## From integer to float (R247) -/

/-- A nonzero integer, read as signed, is rounded to nearest. -/
theorem i32ToF32_of_ne {v : Word} (h : v ≠ 0) :
    i32ToF32 v = roundF32 (decide (v.toInt < 0)) (v.toInt.natAbs * 2 ^ 149) 1 := by
  rw [i32ToF32, if_neg h, BitVec.msb_eq_toInt]
  rfl

/-- Settles O53: rounding gives the nearest float, and a whole number up to 2^24 itself. -/
theorem integerToFloat : Obligations.IntegerToFloat := by
  intro s rd rs1
  refine ⟨isWord_of_encode rfl (encRri_eq_append ..), _, completes_of_writeNext rfl, ?_⟩
  generalize s.getReg rs1 = v
  by_cases zero : v = 0
  · subst zero
    exact ⟨fun _ => rfl, fun nonzero => absurd rfl nonzero, fun _ => by decide⟩
  · rw [i32ToF32_of_ne zero]
    exact ⟨fun h => absurd h zero, fun _ => roundF32_nearestFloat _ _ Nat.one_pos, unpack_roundF32_whole _⟩

/-! ## From float to integer (R248) -/

theorem signedUnits_true (m : Nat) : signedUnits true m = -(m : Int) := rfl

theorem signedUnits_false (m : Nat) : signedUnits false m = m := rfl

/-- Truncation toward zero takes the whole units of 1.0 and keeps the sign. -/
theorem signedUnits_tdiv_one (neg : Bool) (m : Nat) :
    (signedUnits neg m).tdiv (2 ^ 149) = signedUnits neg (m / one) := by
  cases neg with
  | true => exact Int.neg_tdiv ..
  | false => rfl

theorem f32ToI32_of_inside {a : Word} {neg : Bool} {m : Nat} (h : unpack a = .finite neg m) (p : IcfInvalid)
    (inside : -2 ^ 31 ≤ signedUnits neg (m / one) ∧ signedUnits neg (m / one) ≤ 2 ^ 31 - 1) :
    f32ToI32 p a = .known (BitVec.ofInt 32 (signedUnits neg (m / one))) := by
  simp only [f32ToI32, h]
  exact if_pos inside

/-- Outside the range the sign of the truncated number is the operand's. -/
theorem signedUnits_neg_iff_of_outside {neg : Bool} {k : Nat}
    (outside : signedUnits neg k < -2 ^ 31 ∨ 2 ^ 31 - 1 < signedUnits neg k) : signedUnits neg k < 0 ↔ neg = true := by
  cases neg with
  | true => exact iff_of_true (by rw [signedUnits_true] at *; omega) rfl
  | false => exact iff_of_false (by rw [signedUnits_false]; omega) Bool.false_ne_true

/-! Operands with no int32, where `ICF_INVALID` saturates. -/

theorem f32ToI32_saturate_of_outside {a : Word} {neg : Bool} {m : Nat} (h : unpack a = .finite neg m)
    (outside : signedUnits neg (m / one) < -2 ^ 31 ∨ 2 ^ 31 - 1 < signedUnits neg (m / one)) :
    f32ToI32 .saturate a = .known (if signedUnits neg (m / one) < 0 then 0x80000000 else 0x7FFFFFFF) := by
  simp only [f32ToI32, h, signedUnits_neg_iff_of_outside outside]
  exact if_neg (by omega)

theorem f32ToI32_saturate_of_inf {a : Word} {neg : Bool} (h : unpack a = .inf neg) :
    f32ToI32 .saturate a = .known (if neg then 0x80000000 else 0x7FFFFFFF) := by
  simp only [f32ToI32, h]

theorem f32ToI32_saturate_of_nan {a : Word} (h : unpack a = .nan) : f32ToI32 .saturate a = .known 0 := by
  simp only [f32ToI32, h]

/-- `icf` goes on whatever the operand is, so only the saturated value is left to say of an operand with no int32. -/
theorem icf_of_saturate {s : State} {rd rs1 : Reg} {v : Word}
    (saturated : f32ToI32 .saturate (s.getReg rs1) = .known v) :
    (s.params.icfInvalid = .draw → CompletesFree (.icf rd rs1) s rd fun _ => True) ∧
      (s.params.icfInvalid = .saturate → Completes (.icf rd rs1) s rd v) :=
  ⟨fun _ => completesFree_of_settle rfl trivial, fun policy => completes_of_known rfl (policy ▸ saturated)⟩

/-- Settles O55: the word by the encoder, the result by the class of the operand. -/
theorem floatToInteger : Obligations.FloatToInteger := by
  intro s rd rs1
  refine ⟨isWord_of_encode rfl (encRri_eq_append ..), fun neg m finite => ?_, fun neg inf => ?_, fun nan => ?_⟩
  · rw [signedUnits_tdiv_one]
    exact ⟨fun inside => completes_of_known rfl (f32ToI32_of_inside finite _ inside),
      fun outside => icf_of_saturate (f32ToI32_saturate_of_outside finite outside)⟩
  · exact icf_of_saturate (f32ToI32_saturate_of_inf inf)
  · exact icf_of_saturate (f32ToI32_saturate_of_nan (unpack_of_nanWord nan))

/-! ## Rounding to an integral float (R249) -/

/-! The three directions, on magnitudes: to the nearest, away from zero, and toward zero. -/

section
variable (neg : Bool) (m : Nat)

theorem integralMag_nearestAway :
    integralMag .nearestAway neg m = if one ≤ 2 * (m % one) then m / one + 1 else m / one := by
  simp [integralMag]

theorem integralMag_outward {d : Direction} (h : d = .up ∧ neg = false ∨ d = .down ∧ neg = true) :
    integralMag d neg m = if m % one = 0 then m / one else m / one + 1 := by
  rcases h with ⟨rfl, rfl⟩ | ⟨rfl, rfl⟩ <;> simp [integralMag]

theorem integralMag_inward {d : Direction} (h : d = .up ∧ neg = true ∨ d = .down ∧ neg = false) :
    integralMag d neg m = m / one := by
  rcases h with ⟨rfl, rfl⟩ | ⟨rfl, rfl⟩ <;> simp [integralMag]

theorem integralMag_le (d : Direction) : integralMag d neg m ≤ m / one + 1 := by
  cases d with
  | nearestAway => rw [integralMag_nearestAway]; split <;> omega
  | up => cases neg with
    | true => rw [integralMag_inward _ _ (.inl ⟨rfl, rfl⟩)]; omega
    | false => rw [integralMag_outward _ _ (.inl ⟨rfl, rfl⟩)]; split <;> omega
  | down => cases neg with
    | true => rw [integralMag_outward _ _ (.inr ⟨rfl, rfl⟩)]; split <;> omega
    | false => rw [integralMag_inward _ _ (.inr ⟨rfl, rfl⟩)]; omega

/-- A whole number of units of 1.0 is its own rounding, in every direction. -/
theorem integralMag_of_dvd {m : Nat} (dvd : one ∣ m) (d : Direction) : integralMag d neg m = m / one := by
  have part : m % one = 0 := Nat.mod_eq_zero_of_dvd dvd
  have pos : one ≠ 0 := by decide
  cases d <;> simp [integralMag, part, pos]

end

/-! The same as signed numbers of units, as the three instructions need them. -/

section
variable (neg : Bool) (m : Nat)

theorem abs_signedUnits_sub (n : Nat) : |signedUnits neg m - signedUnits neg n| = |(m : Int) - n| := by
  cases neg with
  | true => rw [signedUnits_true, signedUnits_true, neg_sub_neg, abs_sub_comm]
  | false => rfl

theorem integralMag_nearestAway_spec :
    2 * |signedUnits neg m - signedUnits neg (integralMag .nearestAway neg m * 2 ^ 149)| ≤ 2 ^ 149 ∧
      (2 * |signedUnits neg m - signedUnits neg (integralMag .nearestAway neg m * 2 ^ 149)| = 2 ^ 149 →
        m < integralMag .nearestAway neg m * 2 ^ 149) := by
  rw [abs_signedUnits_sub, integralMag_nearestAway, one]
  split
  · rw [abs_of_nonpos (by omega)]
    omega
  · rw [abs_of_nonneg (by omega)]
    omega

theorem integralMag_outward_spec {d : Direction} (h : d = .up ∧ neg = false ∨ d = .down ∧ neg = true) :
    m ≤ integralMag d neg m * 2 ^ 149 ∧ integralMag d neg m * 2 ^ 149 < m + 2 ^ 149 := by
  rw [integralMag_outward neg m h, one]
  split <;> omega

theorem integralMag_inward_spec {d : Direction} (h : d = .up ∧ neg = true ∨ d = .down ∧ neg = false) :
    integralMag d neg m * 2 ^ 149 ≤ m ∧ m < integralMag d neg m * 2 ^ 149 + 2 ^ 149 := by
  rw [integralMag_inward neg m h, one]
  omega

theorem integralMag_up_spec :
    signedUnits neg (integralMag .up neg m * 2 ^ 149) - 2 ^ 149 < signedUnits neg m ∧
      signedUnits neg m ≤ signedUnits neg (integralMag .up neg m * 2 ^ 149) := by
  cases neg with
  | true =>
    have := integralMag_inward_spec true m (.inl ⟨rfl, rfl⟩)
    rw [signedUnits_true, signedUnits_true]
    omega
  | false =>
    have := integralMag_outward_spec false m (.inl ⟨rfl, rfl⟩)
    rw [signedUnits_false, signedUnits_false]
    omega

theorem integralMag_down_spec :
    signedUnits neg (integralMag .down neg m * 2 ^ 149) ≤ signedUnits neg m ∧
      signedUnits neg m < signedUnits neg (integralMag .down neg m * 2 ^ 149) + 2 ^ 149 := by
  cases neg with
  | true =>
    have := integralMag_outward_spec true m (.inr ⟨rfl, rfl⟩)
    rw [signedUnits_true, signedUnits_true]
    omega
  | false =>
    have := integralMag_inward_spec false m (.inr ⟨rfl, rfl⟩)
    rw [signedUnits_false, signedUnits_false]
    omega

end

/-! The three instructions' result. -/

section
variable {a : Word} {neg : Bool} {m : Nat}

/-- A zero and a float of exponent 150 or more give themselves. -/
theorem f32Integral_self (h : unpack a = .finite neg m) (self : m = 0 ∨ 150 ≤ expOf a) (d : Direction) :
    f32Integral d a = .known a := by
  simp only [f32Integral, h]
  exact if_pos self

theorem f32Integral_of_inf (h : unpack a = .inf neg) (d : Direction) : f32Integral d a = .known a := by
  simp only [f32Integral, h]

theorem f32Integral_of_nan (h : unpack a = .nan) (d : Direction) : f32Integral d a = .nan := by
  simp only [f32Integral, h]

/-- A float that gives itself is of integral value. -/
theorem one_dvd_of_self (h : unpack a = .finite neg m) (self : m = 0 ∨ 150 ≤ expOf a) : one ∣ m := by
  rcases unpack_eq_finite h with ⟨e, rfl⟩ | ⟨-, -, rfl⟩
  · rw [self.resolve_right (by omega)]
    exact dvd_zero one
  · have := self.resolve_left (by positivity)
    exact Dvd.dvd.mul_left (Nat.pow_dvd_pow 2 (by omega)) _

/-- A float of a smaller exponent is less than 2^23. -/
theorem whole_lt_of_exp_lt (h : unpack a = .finite neg m) (small : expOf a < 150) : m / one < 2 ^ 23 := by
  have frac := fracOf_lt a
  rw [one, Nat.div_lt_iff_lt_mul (by positivity)]
  rcases unpack_eq_finite h with ⟨-, rfl⟩ | ⟨-, -, rfl⟩
  · omega
  · calc (2 ^ 23 + fracOf a) * 2 ^ (expOf a - 1)
        ≤ (2 ^ 23 + fracOf a) * 2 ^ 148 := Nat.mul_le_mul_left _ (Nat.pow_le_pow_right (by decide) (by omega))
      _ < 2 ^ 23 * 2 ^ 149 := by omega

/-- On a finite float the result is the integral magnitude with the operand's sign, exactly. -/
theorem f32Integral_of_finite (h : unpack a = .finite neg m) (d : Direction) :
    ∃ w, f32Integral d a = .known w ∧ unpack w = .finite neg (integralMag d neg m * 2 ^ 149) := by
  by_cases self : m = 0 ∨ 150 ≤ expOf a
  · have dvd := one_dvd_of_self h self
    refine ⟨a, f32Integral_self h self d, ?_⟩
    rw [integralMag_of_dvd neg dvd, h]
    exact congrArg _ (Nat.div_mul_cancel dvd).symm
  · have small := whole_lt_of_exp_lt h (by omega)
    have mag_le := integralMag_le neg m d
    have answer : f32Integral d a = .known (if integralMag d neg m = 0 then zeroOf neg
        else roundF32 neg (integralMag d neg m * one) 1) := by
      simp only [f32Integral, h]
      exact if_neg self
    refine ⟨_, answer, ?_⟩
    split
    · rw [‹integralMag d neg m = 0›, Nat.zero_mul, unpack_zeroOf]
    · exact unpack_roundF32_whole neg (by omega)

end

/-! ## NaN results (R243) -/

theorem nanWord_nanBits (p : NanPattern) : NanWord (nanBits p) := by
  have payload := p.payload.isLt
  have bits : (nanBits p).toNat = (p.sign.toNat * 2 ^ 8 + 255) * 2 ^ 23 + (p.payload.val + 1) := by
    rw [nanBits, toNat_append_add, toNat_append_add, BitVec.toNat_ofBool, BitVec.toNat_ofNat, BitVec.toNat_ofNat]
    omega
  rw [NanWord, bits]
  omega

section
variable (s : State) (site : DrawSite) (a b : Word)

theorem settle_nan_canonical (policy : s.params.nanResult = .canonical) : s.settle site a b .nan = 0x7FC00000 := by
  simp only [State.settle, policy]

theorem settle_nan_draw (policy : s.params.nanResult = .draw) :
    s.settle site a b .nan = nanBits (Config.nanResult s.draws site a b) := by
  simp only [State.settle, policy]

/-- A NaN result settles to a NaN pattern, the canonical one where `NAN_RESULT` says so. -/
theorem nanResultOf_settle : NanResultOf s (s.settle site a b .nan) := by
  cases policy : s.params.nanResult with
  | canonical => rw [settle_nan_canonical s site a b policy]; exact ⟨by decide, fun _ => rfl⟩
  | draw =>
    rw [settle_nan_draw s site a b policy]
    exact ⟨nanWord_nanBits _, fun canonical => by cases policy.symm.trans canonical⟩

end

/-! ## The instructions -/

/-- An arm of `exec` that rounds to an integral float, on the operands that give themselves and on a NaN. -/
theorem integral_special {i : Instr} {s : State} {site : DrawSite} {rd rs1 : Reg} {d : Direction}
    (arm : exec i s = .next (s.writeValue site (s.getReg rs1) 0 rd (f32Integral d (s.getReg rs1)))) :
    (InfWord (s.getReg rs1) ∨ ZeroWord (s.getReg rs1) ∨
      (150 ≤ (s.getReg rs1).toNat / 2 ^ 23 % 256 ∧ FiniteWord (s.getReg rs1)) → Completes i s rd (s.getReg rs1)) ∧
    (NanWord (s.getReg rs1) → CompletesFree i s rd (NanResultOf s)) := by
  refine ⟨fun self => completes_of_known arm ?_, fun nan => ?_⟩
  · rcases self with inf | zero | ⟨large, finite⟩
    · exact f32Integral_of_inf (unpack_of_infWord inf) d
    · exact f32Integral_self (unpack_of_zeroWord zero) (.inl rfl) d
    · rw [FiniteWord, ← expOf_eq] at finite
      rw [← expOf_eq] at large
      have lt := expOf_lt (s.getReg rs1)
      exact f32Integral_self (unpack_of_normal (by omega) (by omega)) (.inr large) d
  · rw [f32Integral_of_nan (unpack_of_nanWord nan)] at arm
    exact completesFree_of_settle arm (nanResultOf_settle s site _ _)

/-- Settles O56: the words by the encoder, the integral value by the direction, the rest by `integral_special`. -/
theorem roundToIntegral : Obligations.RoundToIntegral := by
  intro s rd rs1
  refine ⟨⟨isWord_of_encode rfl (encRri_eq_append ..), isWord_of_encode rfl (encRri_eq_append ..),
    isWord_of_encode rfl (encRri_eq_append ..)⟩, fun neg m finite => ⟨?round, ?ceil, ?floor⟩, ?special⟩
  case round =>
    obtain ⟨w, known, value⟩ := f32Integral_of_finite finite .nearestAway
    exact ⟨w, _, completes_of_known rfl known, value, integralMag_nearestAway_spec neg m⟩
  case ceil =>
    obtain ⟨w, known, value⟩ := f32Integral_of_finite finite .up
    exact ⟨w, _, completes_of_known rfl known, value, integralMag_up_spec neg m⟩
  case floor =>
    obtain ⟨w, known, value⟩ := f32Integral_of_finite finite .down
    exact ⟨w, _, completes_of_known rfl known, value, integralMag_down_spec neg m⟩
  case special =>
    rw [List.forall_mem_cons, List.forall_mem_cons, List.forall_mem_singleton]
    exact ⟨integral_special rfl, integral_special rfl, integral_special rfl⟩

end Sys2Proof.Machine
end

section
/-! The obligations of 43_register_arithmetic.md on division by a register and on the five float operations
(47_float_numerics.md R244, R245). Rounding is `roundF32_nearestFloat`; what is left for a float operation is the exact
number it rounds. -/

namespace Sys2Proof.Machine

/-! ## Division by a register (R170 to R172) -/

theorem truncatingReg_zero_fault {p : Params} (policy : p.divZero = .fault) (f : Int → Int → Int) (a : Word) :
    truncatingReg p f a 0 = .error .divideByZero := by
  rw [truncatingReg, if_pos rfl, policy]

theorem truncatingReg_zero_unspecified {p : Params} (policy : p.divZero = .unspecified) (f : Int → Int → Int)
    (a : Word) : truncatingReg p f a 0 = .ok .free := by
  rw [truncatingReg, if_pos rfl, policy]

/-- The zero divisor of any truncating operation, under both values of `DIV_ZERO`. -/
theorem zeroDivisor_of_truncatingReg {i : Instr} {s : State} {site : DrawSite} {a b : Word} {rd : Reg}
    {f : Int → Int → Int} (arm : exec i s = .next (s.writeOrRaise site a b rd (truncatingReg s.params f a b)))
    (zero : b = 0) :
    (s.params.divZero = .fault → exec i s = .next { s with status := .stopped .divideByZero }) ∧
      (s.params.divZero = .unspecified → CompletesFree i s rd fun _ => True) := by
  subst zero
  refine ⟨fun policy => ?_, fun policy => ?_⟩
  · rwa [truncatingReg_zero_fault policy] at arm
  · rw [truncatingReg_zero_unspecified policy] at arm
    exact completesFree_of_settle (r := .free) arm trivial

/-- Settles O40: `div` and `rem` are truncating operations on two registers. -/
theorem divideByZero : Obligations.DivideByZero := by
  intro s rd rs1 rs2 zero
  rw [List.forall_mem_cons, List.forall_mem_singleton]
  exact ⟨zeroDivisor_of_truncatingReg rfl zero, zeroDivisor_of_truncatingReg rfl zero⟩

/-- Settles O39: the words by the encoder, the results by `truncating_eq_known`. -/
theorem divideRegister : Obligations.DivideRegister := by
  intro s rd rs1 rs2
  refine ⟨⟨isWord_of_encode rfl (encRrr_eq_append ..), isWord_of_encode rfl (encRrr_eq_append ..)⟩,
    fun nonzero fits => ?_⟩
  have divisor : (s.getReg rs2).toInt ≠ 0 := by rwa [← BitVec.toInt_zero, Ne, BitVec.toInt_inj]
  exact divisionResult_of_completes divisor
    (completes_of_ok_known (exec_div_of_ne nonzero rd rs1) (truncating_eq_known tdiv fits))
    (completes_of_ok_known (exec_rem_of_ne nonzero rd rs1) (truncating_eq_known trem fits))

/-! ## Signs of patterns (R240, R241) -/

theorem zeroOf_eq (neg : Bool) : zeroOf neg = if neg then 0x80000000 else 0 := by
  cases neg <;> rfl

/-- There is one zero of each sign. -/
theorem zeroOf_signOf {v : Word} (zero : ZeroWord v) : zeroOf (signOf v) = v := by
  apply BitVec.eq_of_toNat_eq
  rw [zeroOf, packBits_toNat _ (by decide), signOf_eq]
  have bits : v.toNat < 2 ^ 32 := v.isLt
  rcases lt_or_ge v.toNat (2 ^ 31) with positive | negative
  · rw [decide_eq_false (not_le_of_gt positive), Bool.toNat_false, Nat.zero_mul]; omega
  · rw [decide_eq_true negative, Bool.toNat_true]; omega

section
variable (v : Word)

theorem signOf_flipSign : signOf (flipSign v) = !signOf v := by
  rw [signOf, flipSign, BitVec.msb_xor]
  exact Bool.xor_true _

theorem expOf_flipSign : expOf (flipSign v) = expOf v := by
  rw [expOf, flipSign, BitVec.extractLsb'_xor]
  exact congrArg BitVec.toNat BitVec.xor_zero

theorem fracOf_flipSign : fracOf (flipSign v) = fracOf v := by
  rw [fracOf, flipSign, BitVec.extractLsb'_xor]
  exact congrArg BitVec.toNat BitVec.xor_zero

end

section
variable {v : Word} {neg : Bool} {m : Nat}

/-- The sign of a finite value is the pattern's. -/
theorem sign_of_unpack_finite (h : unpack v = .finite neg m) : neg = signOf v := by
  unfold unpack at h
  split at h
  · split at h <;> cases h
  · split at h <;> cases h <;> rfl

/-- The sign of an infinity is the pattern's. -/
theorem sign_of_unpack_inf (h : unpack v = .inf neg) : neg = signOf v := by
  unfold unpack at h
  split at h
  · split at h <;> cases h
    rfl
  · split at h <;> cases h

theorem unpack_flipSign_of_finite (h : unpack v = .finite neg m) : unpack (flipSign v) = .finite (!neg) m := by
  rw [sign_of_unpack_finite h, ← signOf_flipSign]
  rcases unpack_eq_finite h with ⟨subnormal, rfl⟩ | ⟨pos, lt, rfl⟩
  · rw [← fracOf_flipSign]
    exact unpack_of_subnormal ((expOf_flipSign v).trans subnormal)
  · rw [← expOf_flipSign] at pos lt ⊢
    rw [← fracOf_flipSign]
    exact unpack_of_normal pos lt

end

/-! ## Addition and subtraction (R174, R175) -/

section
variable {a b : Word} {na nb : Bool} {ma mb : Nat}

theorem f32Add_of_finite (ha : unpack a = .finite na ma) (hb : unpack b = .finite nb mb) :
    f32Add a b = .known (addFinite na ma nb mb) := by
  simp only [f32Add, ha, hb]

theorem f32Sub_of_finite (ha : unpack a = .finite na ma) (hb : unpack b = .finite nb mb) :
    f32Sub a b = .known (addFinite na ma (!nb) mb) :=
  f32Add_of_finite ha (unpack_flipSign_of_finite hb)

/-- An exact zero is +0 unless both terms are -0 (R244 item 5). -/
theorem addFinite_of_eq_zero (zero : signedUnits na ma + signedUnits nb mb = 0) :
    addFinite na ma nb mb = if ma = 0 ∧ mb = 0 ∧ na = true ∧ nb = true then 0x80000000 else 0 := by
  rw [addFinite, if_pos zero, zeroOf_eq]
  simp only [Bool.and_eq_true, beq_iff_eq, and_assoc]

theorem addFinite_of_ne_zero (nonzero : signedUnits na ma + signedUnits nb mb ≠ 0) :
    addFinite na ma nb mb = roundF32 (decide (signedUnits na ma + signedUnits nb mb < 0))
      (signedUnits na ma + signedUnits nb mb).natAbs 1 := if_neg nonzero

/-- An instruction that writes a rounded sum writes its zero, or the float nearest to it. -/
theorem sum_of_addFinite {i : Instr} {s : State} {rd : Reg} (sum : Completes i s rd (addFinite na ma nb mb)) :
    let r := signedUnits na ma + signedUnits nb mb
    (r = 0 → Completes i s rd (if ma = 0 ∧ mb = 0 ∧ na = true ∧ nb = true then 0x80000000 else 0)) ∧
      (r ≠ 0 → ∃ w, Completes i s rd w ∧ NearestFloat (decide (r < 0)) r.natAbs 1 w) :=
  ⟨fun zero => addFinite_of_eq_zero zero ▸ sum, fun nonzero =>
    ⟨_, sum, addFinite_of_ne_zero nonzero ▸ roundF32_nearestFloat _ _ Nat.one_pos⟩⟩

end

/-- Settles O48: the words by the encoder; a difference is the sum with the second sign flipped. -/
theorem addAndSubtractFloats : Obligations.AddAndSubtractFloats := by
  intro s rd rs1 rs2
  refine ⟨⟨isWord_of_encode rfl (encRrr_eq_append ..), isWord_of_encode rfl (encRrr_eq_append ..)⟩,
    fun na nb ma mb ha hb => ?_⟩
  rw [List.forall_mem_cons, List.forall_mem_singleton]
  exact ⟨sum_of_addFinite (completes_of_known rfl (f32Add_of_finite ha hb)),
    sum_of_addFinite (completes_of_known rfl (f32Sub_of_finite ha hb))⟩

/-! ## Multiplication and division (R176, R177) -/

section
variable {a b : Word} {na nb : Bool} {ma mb : Nat}

theorem f32Mul_of_finite (ha : unpack a = .finite na ma) (hb : unpack b = .finite nb mb) : f32Mul a b =
    .known (if ma * mb = 0 then zeroOf (na ^^ nb) else roundF32 (na ^^ nb) (ma * mb) (2 ^ 149)) := by
  simp only [f32Mul, ha, hb, one]

theorem f32Div_of_finite (ha : unpack a = .finite na ma) (hb : unpack b = .finite nb mb) (nonzero : mb ≠ 0) :
    f32Div a b = .known (if ma = 0 then zeroOf (na ^^ nb) else roundF32 (na ^^ nb) (ma * 2 ^ 149) mb) := by
  simp only [f32Div, ha, hb, one, if_neg nonzero]

end

/-- Settles O49: the words by the encoder, a zero by its sign, any other result by rounding the exact number. -/
theorem multiplyAndDivideFloats : Obligations.MultiplyAndDivideFloats := by
  intro s rd rs1 rs2
  refine ⟨⟨isWord_of_encode rfl (encRrr_eq_append ..), isWord_of_encode rfl (encRrr_eq_append ..)⟩,
    fun na nb ma mb ha hb => ?_⟩
  have product : Completes (.mulf rd rs1 rs2) s rd _ := completes_of_known rfl (f32Mul_of_finite ha hb)
  have quotient (nonzero : mb ≠ 0) : Completes (.divf rd rs1 rs2) s rd _ :=
    completes_of_known rfl (f32Div_of_finite ha hb nonzero)
  rw [← zeroOf_eq]
  refine ⟨fun zero => ?_, fun nonzero => ?_, fun zero divisor => ?_, fun nonzero divisor => ?_⟩
  · rwa [if_pos zero] at product
  · rw [if_neg nonzero] at product
    exact ⟨_, product, roundF32_nearestFloat _ _ (by positivity)⟩
  · have quotient := quotient divisor
    rwa [if_pos zero] at quotient
  · have quotient := quotient divisor
    rw [if_neg nonzero] at quotient
    exact ⟨_, quotient, roundF32_nearestFloat _ _ (Nat.pos_of_ne_zero divisor)⟩

/-! ## The whole square root (R245) -/

/-- Each bit decided leaves the root between what is found and what can still be added. -/
theorem isqrtFrom_eq_sqrt {n : Nat} (k : Nat) {root : Nat} (below : root * root ≤ n)
    (above : n < (root + 2 ^ k) * (root + 2 ^ k)) : isqrtFrom n k root = n.sqrt := by
  induction k generalizing root with
  | zero => exact Nat.eq_sqrt.mpr ⟨below, above⟩
  | succ k ih =>
    rw [isqrtFrom]
    split
    · exact ih ‹_› (by rwa [add_assoc, ← two_mul, ← pow_succ'])
    · exact ih below (by omega)

theorem isqrt_eq_sqrt {n : Nat} (lt : n < 2 ^ 426) : isqrt n = n.sqrt :=
  isqrtFrom_eq_sqrt 213 (Nat.zero_le n) (by omega)

/-- Twice the square root of `n`, the odd number standing for a root that is not whole. -/
def twiceSqrt (n : Nat) : Nat := if n.sqrt * n.sqrt = n then 2 * n.sqrt else 2 * n.sqrt + 1

theorem twiceSqrt_cases (n : Nat) :
    (n.sqrt * n.sqrt = n ∧ twiceSqrt n = 2 * n.sqrt) ∨ twiceSqrt n = 2 * n.sqrt + 1 := by
  unfold twiceSqrt
  split
  · exact .inl ⟨‹_›, rfl⟩
  · exact .inr rfl

/-- `sqrtFinite` rounds half of `twiceSqrt`. -/
theorem sqrtFinite_eq_roundF32 {m : Nat} (lt : m * 2 ^ 149 < 2 ^ 426) :
    sqrtFinite m = roundF32 false (twiceSqrt (m * 2 ^ 149)) 2 := by
  rw [twiceSqrt, ← isqrt_eq_sqrt lt]
  rfl

section
variable {n t : Nat}

/-! Every number but an odd `twiceSqrt` itself lies on the same side of `twiceSqrt` as of twice the root. -/

theorem sq_le_of_le_twiceSqrt (le : t ≤ twiceSqrt n) (even : t = twiceSqrt n → t % 2 = 0) : t ^ 2 ≤ 4 * n := by
  have root : n.sqrt * n.sqrt ≤ n := Nat.sqrt_le n
  have double : t ≤ 2 * n.sqrt := by
    rcases twiceSqrt_cases n with ⟨-, eq⟩ | eq <;> omega
  calc t ^ 2 ≤ (2 * n.sqrt) ^ 2 := Nat.pow_le_pow_left double 2
    _ = 4 * (n.sqrt * n.sqrt) := by ring
    _ ≤ 4 * n := Nat.mul_le_mul_left 4 root

theorem le_sq_of_twiceSqrt_le (le : twiceSqrt n ≤ t) (even : t = twiceSqrt n → t % 2 = 0) : 4 * n ≤ t ^ 2 := by
  have next : n < (n.sqrt + 1) * (n.sqrt + 1) := Nat.lt_succ_sqrt n
  rcases twiceSqrt_cases n with ⟨whole, eq⟩ | eq
  · rw [eq] at le
    calc 4 * n = (2 * n.sqrt) ^ 2 := by rw [mul_pow, sq n.sqrt, whole]; rfl
      _ ≤ t ^ 2 := Nat.pow_le_pow_left le 2
  · have double : 2 * (n.sqrt + 1) ≤ t := by omega
    calc 4 * n ≤ 4 * ((n.sqrt + 1) * (n.sqrt + 1)) := Nat.mul_le_mul_left 4 next.le
      _ = (2 * (n.sqrt + 1)) ^ 2 := by ring
      _ ≤ t ^ 2 := Nat.pow_le_pow_left double 2

end

/-! ## The nearest float to a square root -/

/-- The magnitude of a float is less than 2^128, in units. -/
theorem finite_lt {v : Word} {neg : Bool} {m : Nat} (h : unpack v = .finite neg m) : m < 2 ^ 277 := by
  have frac := fracOf_lt v
  rcases unpack_eq_finite h with ⟨-, rfl⟩ | ⟨-, lt, rfl⟩
  · omega
  · calc (2 ^ 23 + fracOf v) * 2 ^ (expOf v - 1)
        ≤ (2 ^ 23 + fracOf v) * 2 ^ 253 := Nat.mul_le_mul_left _ (Nat.pow_le_pow_right (by decide) (by omega))
      _ < 2 ^ 277 := by omega

/-- A float of 2^24 units or more is an even number of them. -/
theorem finite_even_of_le {v : Word} {neg : Bool} {m : Nat} (h : unpack v = .finite neg m) (le : 2 ^ 24 ≤ m) :
    m % 2 = 0 := by
  have := finite_dvd_or_lt h 1
  omega

/-- 2^24 units is a float. -/
theorem unpack_two_pow_24 : unpack 0x01000000 = .finite false (2 ^ 24) := by decide

/-- A large number halfway between its nearest float and another is even as their sum: an odd float is less than 2^24
units, and 2^24 units is itself a float, nearer than that one. -/
theorem midpoint_even {neg sign g : Bool} {num k n : Nat} {w f : Word} (nearest : NearestFloat neg num 2 w)
    (large : 2 ^ 26 ≤ num) (hk : unpack w = .finite sign k) (hn : unpack f = .finite g n) (mid : n + k = num) :
    (n + k) % 2 = 0 := by
  obtain ⟨inf, -⟩ | ⟨m, value, -, nearest⟩ := nearest
  · cases inf.symm.trans hk
  · cases value.symm.trans hk
    obtain ⟨below, above, -⟩ := nearest _ _ _ unpack_two_pow_24
    have normal : 2 ^ 24 ≤ n ∧ 2 ^ 24 ≤ k := by omega
    have := finite_even_of_le hn normal.1
    have := finite_even_of_le hk normal.2
    omega

/-- A midpoint of two floats is even, so the odd `twiceSqrt` lies on the same side of it as twice the root. -/
theorem nearestSqrt_sqrtFinite {a : Word} {neg : Bool} {m : Nat} (h : unpack a = .finite neg m) (pos : m ≠ 0) :
    NearestSqrt m (sqrtFinite m) := by
  have lt := finite_lt h
  have bound : (m * 2 ^ 149).sqrt < 2 ^ 213 := Nat.sqrt_lt.mpr (by omega)
  have large : 2 ^ 74 ≤ (m * 2 ^ 149).sqrt := Nat.le_sqrt.mpr (by omega)
  rw [sqrtFinite_eq_roundF32 (by omega)]
  have num := twiceSqrt_cases (m * 2 ^ 149)
  obtain ⟨-, overflow⟩ | ⟨k, hk, -, nearest⟩ :=
    roundF32_nearestFloat false (twiceSqrt (m * 2 ^ 149)) Nat.two_pos
  · omega
  · refine ⟨k, hk, fun f g n hn => ?_⟩
    obtain ⟨below, above, -⟩ := nearest f g n hn
    have even := midpoint_even (roundF32_nearestFloat _ _ Nat.two_pos) (by omega) hk hn
    exact ⟨fun less => sq_le_of_le_twiceSqrt (by have := below less; omega) even,
      fun more => le_sq_of_twiceSqrt_le (by have := above more; omega) even⟩

/-! ## Square roots (R178) -/

/-- The word of `sqrtf`, its unused second register and the ten bits above in one piece (R80). -/
theorem encRrr_zero_eq_append (opf : BitVec 4) (rd rs1 : Reg) :
    encRrr opf rd rs1 0 = 0#15 ++ rs1 ++ rd ++ (3#3 ++ opf) := by
  rw [encRrr_eq_append]
  rfl

section
variable {a : Word}

theorem f32Sqrt_of_zeroWord (zero : ZeroWord a) : f32Sqrt a = .known a := by
  simp only [f32Sqrt, unpack_of_zeroWord zero, if_pos, zeroOf_signOf zero]

theorem f32Sqrt_of_positive {m : Nat} (h : unpack a = .finite false m) (pos : m ≠ 0) :
    f32Sqrt a = .known (sqrtFinite m) := by
  simp only [f32Sqrt, h, if_neg pos, Bool.false_eq_true, if_false]

/-- A finite pattern of value 0 is a zero. -/
theorem zeroWord_of_unpack {neg : Bool} (h : unpack a = .finite neg 0) : ZeroWord a := by
  rcases unpack_eq_finite h with ⟨exp, frac⟩ | ⟨-, -, value⟩
  · rw [expOf_eq] at exp
    rw [fracOf_eq] at frac
    omega
  · have : (2 ^ 23 + fracOf a) * 2 ^ (expOf a - 1) ≠ 0 := by positivity
    exact absurd value.symm this

/-- A NaN has no root, nor has a negative number or -infinity. -/
theorem f32Sqrt_eq_nan (h : NanWord a ∨ (2 ^ 31 ≤ a.toNat ∧ ¬ZeroWord a)) : f32Sqrt a = .nan := by
  rcases h with nan | ⟨negative, nonzero⟩
  · simp only [f32Sqrt, unpack_of_nanWord nan]
  · have sign : signOf a = true := by rw [signOf_eq, decide_eq_true negative]
    cases value : unpack a with
    | nan => simp only [f32Sqrt, value]
    | inf neg =>
      obtain rfl := (sign_of_unpack_inf value).trans sign
      simp only [f32Sqrt, value, if_true]
    | finite neg m =>
      obtain rfl := (sign_of_unpack_finite value).trans sign
      have pos : m ≠ 0 := by
        rintro rfl
        exact nonzero (zeroWord_of_unpack value)
      simp only [f32Sqrt, value, if_neg pos, if_true]

end

/-- Settles O50: the word by the encoder, the result by the class of the operand. -/
theorem squareRoot : Obligations.SquareRoot := by
  intro s rd rs1
  refine ⟨isWord_of_encode rfl (encRrr_zero_eq_append ..), fun zero => ?_, fun m positive nonzero => ?_, fun inf => ?_,
    fun invalid => ?_⟩
  · exact completes_of_known rfl (f32Sqrt_of_zeroWord zero)
  · exact ⟨_, completes_of_known rfl (f32Sqrt_of_positive positive nonzero), nearestSqrt_sqrtFinite positive nonzero⟩
  · have root : f32Sqrt 0x7F800000 = .known 0x7F800000 := by decide
    exact completes_of_known rfl (inf ▸ root)
  · refine completesFree_of_settle rfl ?_
    rw [f32Sqrt_eq_nan invalid]
    exact nanResultOf_settle s ..

end Sys2Proof.Machine
end

section
/-! The obligations of 44_jalr_branches.md on the eight branches. What a branch leaves is said once, for any condition;
what is left for a branch is its word and when its condition holds. For the float branches that is R246: the order of
values is the order of the patterns read as signed magnitudes. -/

namespace Sys2Proof.Machine

/-! ## What a branch leaves (R190) -/

/-- The sum modulo 2^32, written on numbers. -/
theorem branchTarget_eq_ofInt (s : State) (imm : Imm15) :
    s.branchTarget imm = BitVec.ofInt 32 ((s.pc.toNat : Int) + imm.toInt) := by
  rw [State.branchTarget, sext15_eq_ofInt, add_ofInt_eq]

theorem branchesWhen_of_iff {i : Instr} {s : State} {taken : Bool} {imm : Imm15} {c : Prop}
    (arm : exec i s = .next (s.branch taken imm)) (cond : taken = true ↔ c) : BranchesWhen i s imm c := by
  refine ⟨fun holds => ?_, fun fails => ?_⟩
  · rw [arm, branch_eq, if_pos (cond.mpr holds), branchTarget_eq_ofInt]
  · rw [arm, branch_eq, if_neg (mt cond.mp fails), ← add_ofNat_eq]
    rfl

/-! ## Integer branches (R192 to R197) -/

/-- Settles O44: the words by the encoder, each condition as the comparison it decides. -/
theorem integerBranches : Obligations.IntegerBranches := by
  intro s rs1 rs2 imm
  refine ⟨⟨isWord_of_encode rfl (encRri_eq_append ..), ?beq⟩, ⟨isWord_of_encode rfl (encRri_eq_append ..), ?bne⟩,
    ⟨isWord_of_encode rfl (encRri_eq_append ..), ?blt⟩, ⟨isWord_of_encode rfl (encRri_eq_append ..), ?bge⟩,
    ⟨isWord_of_encode rfl (encRri_eq_append ..), ?bltu⟩, isWord_of_encode rfl (encRri_eq_append ..), ?bgeu⟩
  case beq => exact branchesWhen_of_iff rfl beq_iff_eq
  case bne => exact branchesWhen_of_iff rfl bne_iff_ne
  case blt => exact branchesWhen_of_iff rfl decide_eq_true_iff
  case bge => exact branchesWhen_of_iff rfl decide_eq_true_iff
  case bltu => exact branchesWhen_of_iff rfl decide_eq_true_iff
  case bgeu => exact branchesWhen_of_iff rfl decide_eq_true_iff

/-! ## Magnitudes rise with bits 30:0 of the pattern (R241) -/

/-- The units that bits 30:0 of a finite pattern stand for, the exponent being `p / 2 ^ 23`. -/
def magnitudeUnits (p : Nat) : Nat := if p < 2 ^ 23 then p else (2 ^ 23 + p % 2 ^ 23) * 2 ^ (p / 2 ^ 23 - 1)

/-- From one pattern to the next the fraction rises, or it carries into the exponent. -/
theorem magnitudeUnits_strictMono : StrictMono magnitudeUnits := by
  refine strictMono_nat_of_lt_succ fun p => ?_
  have pos : 0 < 2 ^ (p / 2 ^ 23 - 1) := by positivity
  by_cases subnormal : p + 1 < 2 ^ 23
  · rw [magnitudeUnits, magnitudeUnits, if_pos subnormal, if_pos (by omega)]
    exact Nat.lt_succ_self p
  · by_cases last : p < 2 ^ 23
    · obtain rfl : p = 2 ^ 23 - 1 := by omega
      decide
    · rw [magnitudeUnits, magnitudeUnits, if_neg subnormal, if_neg last]
      by_cases carry : p % 2 ^ 23 = 2 ^ 23 - 1
      · have frac : (p + 1) % 2 ^ 23 = 0 := by omega
        have exp : (p + 1) / 2 ^ 23 - 1 = p / 2 ^ 23 - 1 + 1 := by omega
        rw [frac, exp, carry, Nat.pow_succ (m := p / 2 ^ 23 - 1)]
        omega
      · have frac : (p + 1) % 2 ^ 23 = p % 2 ^ 23 + 1 := by omega
        have exp : (p + 1) / 2 ^ 23 = p / 2 ^ 23 := by omega
        rw [frac, exp]
        exact Nat.mul_lt_mul_of_pos_right (by omega) pos

theorem unpack_of_finiteWord {v : Word} (h : FiniteWord v) :
    unpack v = .finite (signOf v) (magnitudeUnits (v.toNat % 2 ^ 31)) := by
  by_cases subnormal : expOf v = 0
  · have exp := expOf_eq v
    have bits : v.toNat % 2 ^ 31 = fracOf v := by rw [fracOf_eq]; omega
    rw [unpack_of_subnormal subnormal, bits, magnitudeUnits, if_pos (fracOf_lt v)]
  · rw [expOf_eq] at subnormal
    have exp : v.toNat % 2 ^ 31 / 2 ^ 23 = expOf v := by rw [expOf_eq]; omega
    have frac : v.toNat % 2 ^ 31 % 2 ^ 23 = fracOf v := by rw [fracOf_eq]; omega
    rw [unpack_of_normal (by rw [expOf_eq]; omega) (by rw [expOf_eq]; omega), magnitudeUnits, if_neg (by omega), exp,
      frac]

/-! ## Comparing signed magnitudes -/

section
variable {na nb : Bool} {m n k : Nat}

/-- A rising function of the magnitude that keeps 0 keeps the order of signed magnitudes, both zeros being equal. -/
theorem signedUnits_lt_iff_of_strictMono {f : Nat → Nat} (mono : StrictMono f) (zero : f 0 = 0) :
    signedUnits na (f m) < signedUnits nb (f n) ↔ signedUnits na m < signedUnits nb n := by
  have magnitudes : f m < f n ↔ m < n := mono.lt_iff_lt
  have reversed : f n < f m ↔ n < m := mono.lt_iff_lt
  have left : 0 < f m ↔ 0 < m := by simpa only [zero] using mono.lt_iff_lt (a := 0) (b := m)
  have right : 0 < f n ↔ 0 < n := by simpa only [zero] using mono.lt_iff_lt (a := 0) (b := n)
  cases na <;> cases nb <;> simp only [signedUnits_true, signedUnits_false] <;> omega

theorem signedUnits_bounds (neg : Bool) (m : Nat) : -(m : Int) ≤ signedUnits neg m ∧ signedUnits neg m ≤ m := by
  cases neg with
  | true => rw [signedUnits_true]; omega
  | false => rw [signedUnits_false]; omega

/-- The larger magnitude decides by its sign: on the left it is the smaller number where it is negative. -/
theorem signedUnits_lt_iff_of_gt (h : n < k) : signedUnits na k < signedUnits nb n ↔ na = true := by
  obtain ⟨lower, upper⟩ := signedUnits_bounds nb n
  cases na with
  | true => exact iff_of_true (by rw [signedUnits_true]; omega) rfl
  | false => exact iff_of_false (by rw [signedUnits_false]; omega) Bool.false_ne_true

theorem signedUnits_lt_iff_of_lt (h : m < k) : signedUnits na m < signedUnits nb k ↔ nb = false := by
  obtain ⟨lower, upper⟩ := signedUnits_bounds na m
  cases nb with
  | true => exact iff_of_false (by rw [signedUnits_true]; omega) nofun
  | false => exact iff_of_true (by rw [signedUnits_false]; omega) rfl

theorem signedUnits_lt_same_iff (pos : 0 < k) : signedUnits na k < signedUnits nb k ↔ na = true ∧ nb = false := by
  cases na <;> cases nb <;> simp [signedUnits, pos]

end

/-! ## The integer recipe (R246) -/

section
variable {v : Word}

theorem infWord_or_finiteWord (h : ¬NanWord v) : InfWord v ∨ FiniteWord v := by
  omega

theorem isNan_iff : isNan v = true ↔ NanWord v := by
  rw [isNan, beq_iff_eq]
  refine ⟨fun value => ?_, unpack_of_nanWord⟩
  by_contra number
  rcases infWord_or_finiteWord number with inf | finite
  · rw [unpack_of_infWord inf] at value
    cases value
  · rw [unpack_of_finiteWord finite] at value
    cases value

/-- The order key is the pattern read as a sign and a magnitude. -/
theorem orderKey_eq (v : Word) : orderKey v = signedUnits (signOf v) (v.toNat % 2 ^ 31) := rfl

theorem orderKey_of_infWord (h : InfWord v) : orderKey v = signedUnits (signOf v) 0x7F800000 := by
  rw [orderKey_eq, h]

theorem magnitude_lt_of_finiteWord (h : FiniteWord v) : v.toNat % 2 ^ 31 < 0x7F800000 := by
  omega

end

section
variable {a b : Word}

/-- Patterns that are no NaN compare as their order keys: finite ones because magnitudes rise with bits 30:0, infinities
because those bits are larger than any finite pattern's. -/
theorem f32Lt_iff_orderKey (ha : ¬NanWord a) (hb : ¬NanWord b) : f32Lt a b = true ↔ orderKey a < orderKey b := by
  rcases infWord_or_finiteWord ha with infA | finA <;> rcases infWord_or_finiteWord hb with infB | finB
  case inl.inl =>
    rw [orderKey_of_infWord infA, orderKey_of_infWord infB, signedUnits_lt_same_iff (by decide)]
    simp [f32Lt, unpack_of_infWord infA, unpack_of_infWord infB]
  case inl.inr =>
    rw [orderKey_of_infWord infA, orderKey_eq b, signedUnits_lt_iff_of_gt (magnitude_lt_of_finiteWord finB)]
    simp [f32Lt, unpack_of_infWord infA, unpack_of_finiteWord finB]
  case inr.inl =>
    rw [orderKey_eq a, orderKey_of_infWord infB, signedUnits_lt_iff_of_lt (magnitude_lt_of_finiteWord finA)]
    simp [f32Lt, unpack_of_finiteWord finA, unpack_of_infWord infB]
  case inr.inr =>
    rw [orderKey_eq a, orderKey_eq b, ← signedUnits_lt_iff_of_strictMono magnitudeUnits_strictMono rfl]
    simp [f32Lt, unpack_of_finiteWord finA, unpack_of_finiteWord finB]

theorem f32Lt_eq_false_of_nanWord (h : NanWord a ∨ NanWord b) : f32Lt a b = false := by
  rcases h with nanA | nanB
  · simp only [f32Lt, unpack_of_nanWord nanA]
  · cases value : unpack a <;> simp only [f32Lt, value, unpack_of_nanWord nanB]

theorem f32Lt_iff : f32Lt a b = true ↔ ¬NanWord a ∧ ¬NanWord b ∧ orderKey a < orderKey b := by
  by_cases nan : NanWord a ∨ NanWord b
  · rw [f32Lt_eq_false_of_nanWord nan]
    exact iff_of_false Bool.false_ne_true fun ⟨numberA, numberB, _⟩ => nan.elim numberA numberB
  · obtain ⟨numberA, numberB⟩ := not_or.mp nan
    rw [f32Lt_iff_orderKey numberA numberB, and_iff_right numberA, and_iff_right numberB]

theorem f32Ge_iff {p : Bool} :
    f32Ge p a b = true ↔ if NanWord a ∨ NanWord b then p = true else orderKey a ≥ orderKey b := by
  have test : (isNan a || isNan b) = true ↔ NanWord a ∨ NanWord b := by rw [Bool.or_eq_true, isNan_iff, isNan_iff]
  by_cases nan : NanWord a ∨ NanWord b
  · rw [f32Ge, if_pos (test.mpr nan), if_pos nan]
  · obtain ⟨numberA, numberB⟩ := not_or.mp nan
    rw [f32Ge, if_neg (mt test.mp nan), if_neg nan, Bool.not_eq_true', ← Bool.not_eq_true,
      f32Lt_iff_orderKey numberA numberB, not_lt]

end

/-! ## Float branches (R198, R199) -/

/-- Settles O45: the words by the encoder, the conditions by `f32Lt_iff` and `f32Ge_iff`. -/
theorem floatBranches : Obligations.FloatBranches := by
  intro s rs1 rs2 imm
  exact ⟨⟨isWord_of_encode rfl (encRri_eq_append ..), branchesWhen_of_iff rfl f32Lt_iff⟩,
    isWord_of_encode rfl (encRri_eq_append ..), branchesWhen_of_iff rfl f32Ge_iff⟩

end Sys2Proof.Machine
end

section
/-! The obligations of 45_ri.md (`lui`, `lif`, `jal`), with `jalr` of 44_jalr_branches.md, the other linking jump. What a
linking jump leaves is said once; what is left for an instruction is its word and its value or target on numbers. -/

namespace Sys2Proof.Machine

/-! ## Words and immediates of the RI form (30_encoding.md R74, R76) -/

/-- An RI word, its opcode and function (the slot of 30_encoding.md R78) in one piece. -/
theorem encRi_eq_append (opf : BitVec 4) (rd : Reg) (imm : Imm20) : encRi opf rd imm = imm ++ rd ++ (5#3 ++ opf) := by
  apply BitVec.eq_of_toNat_eq
  rw [encRi_toNat]
  simp only [toNat_append_add, BitVec.toNat_ofNat]
  omega

theorem zext20_eq_ofNat (imm : Imm20) : zext20 imm = BitVec.ofNat 32 imm.toNat := by
  apply BitVec.eq_of_toNat_eq
  simp [zext20]

/-- The sign-extended immediate is the same signed number. -/
theorem sext20_toInt (imm : Imm20) : (sext20 imm).toInt = imm.toInt := BitVec.toInt_signExtend_of_le (by decide)

/-! ## Jumps that leave a link (R191, R213) -/

/-- The target as a statement writes it; `link` takes it from the state before. -/
theorem links_of_link_eq {i : Instr} {s : State} {rd : Reg} {t target : Word}
    (arm : exec i s = .next (s.link rd t)) (value : t = target) : Links i s rd target := by
  subst value
  obtain ⟨regs, pc, _, data, status, image, params, draws⟩ := link_spec s rd t
  exact ⟨_, arm, regs, pc, data, status, image, params, draws⟩

/-- Settles O43: the words by the encoder, each target on numbers. -/
theorem jumpAndLink : Obligations.JumpAndLink := by
  refine ⟨fun s rd imm => ⟨isWord_of_encode rfl (encRi_eq_append ..), ?jal⟩,
    fun s rd rs1 imm => ⟨isWord_of_encode rfl (encRri_eq_append ..), ?jalr⟩⟩
  case jal => exact links_of_link_eq rfl (zext20_eq_ofNat imm)
  case jalr =>
    have target : s.getReg rs1 + zext15 imm = BitVec.ofNat 32 ((s.getReg rs1).toNat + imm.toNat) := by
      rw [zext15_eq_ofNat, add_ofNat_eq]
    exact links_of_link_eq rfl target

/-! ## The float of an immediate (R212) -/

/-- Conversion is exact on the integers up to magnitude 2^24 (R247). -/
theorem unpack_i32ToF32_of_natAbs_le {v : Word} (le : v.toInt.natAbs ≤ 2 ^ 24) :
    unpack (i32ToF32 v) = .finite (decide (v.toInt < 0)) (v.toInt.natAbs * 2 ^ 149) := by
  by_cases zero : v = 0
  · subst zero
    decide
  · rw [i32ToF32_of_ne zero]
    exact unpack_roundF32_whole _ le

/-- Settles O54: a signed 20-bit number has magnitude at most 2^19, so its conversion is exact. -/
theorem loadImmediateFloat : Obligations.LoadImmediateFloat := by
  intro s rd imm
  refine ⟨isWord_of_encode rfl (encRi_eq_append ..), _, completes_of_writeNext rfl, ?zero, ?value⟩
  case zero =>
    rintro rfl
    rfl
  case value =>
    have lower : -2 ^ 19 ≤ imm.toInt := imm.le_toInt
    have upper : imm.toInt < 2 ^ 19 := imm.toInt_lt
    have small : (sext20 imm).toInt.natAbs ≤ 2 ^ 24 := by
      rw [sext20_toInt]
      omega
    rw [unpack_i32ToF32_of_natAbs_le small, sext20_toInt]

/-! ## The upper immediate (R211) -/

/-- Twelve zero bits below the immediate multiply it by 2^12. -/
theorem append_zeros_eq_ofNat (imm : Imm20) : imm ++ 0#12 = BitVec.ofNat 32 (imm.toNat * 2 ^ 12) := by
  apply BitVec.eq_of_toNat_eq
  rw [toNat_append_add, BitVec.toNat_ofNat, BitVec.toNat_ofNat]
  omega

/-- Settles O42: the word by the encoder, the value on numbers. -/
theorem loadUpperImmediate : Obligations.LoadUpperImmediate := fun _ _ imm =>
  ⟨isWord_of_encode rfl (encRi_eq_append ..), completes_of_writeNext_eq rfl (append_zeros_eq_ofNat imm)⟩

end Sys2Proof.Machine
end

section
/-! The obligation of 46_abi.md. Passing arguments is said once, as what a register reads afterwards: an argument register
its argument, any other register its old value. -/

namespace Sys2Proof.Machine

/-! ## Passing arguments (R223, R227) -/

/-- The parameters and the draw counter are no registers either; the rest of the frame is `passArgs_frame`. -/
theorem passArgs_params_draws : ∀ (args : List Word) (s : State) (k : Nat),
    (s.passArgs k args).params = s.params ∧ (s.passArgs k args).draws = s.draws
  | [], _, _ => ⟨rfl, rfl⟩
  | v :: rest, s, k => by
    have tail := passArgs_params_draws rest (s.setReg (BitVec.ofNat 5 (4 + k)) v) (k + 1)
    rwa [setReg_params, setReg_draws] at tail

/-- The number of an argument register that exists. -/
theorem argReg_toNat {n : Nat} (small : 4 + n < 32) : (BitVec.ofNat 5 (4 + n)).toNat = 4 + n := by
  rw [BitVec.toNat_ofNat, Nat.mod_eq_of_lt small]

/-- `zero`, `ra`, `sp` and `fp` pass no argument. -/
theorem argReg_ne_of_lt {n : Nat} (small : 4 + n < 32) {r : Reg} (low : r.toNat < 4) : BitVec.ofNat 5 (4 + n) ≠ r := by
  rintro rfl
  rw [argReg_toNat small] at low
  omega

/-- A register below the first argument register or past the last one keeps its value. -/
theorem getReg_passArgs_of_outside {r : Reg} : ∀ (args : List Word) (s : State) (k : Nat), 4 + k + args.length ≤ 32 →
    r.toNat < 4 + k ∨ 4 + k + args.length ≤ r.toNat → (s.passArgs k args).getReg r = s.getReg r
  | [], _, _, _, _ => rfl
  | v :: rest, s, k, room, outside => by
    rw [List.length_cons] at room outside
    have other : r ≠ BitVec.ofNat 5 (4 + k) := by
      rintro rfl
      rw [argReg_toNat (by omega)] at outside
      omega
    calc ((s.setReg (BitVec.ofNat 5 (4 + k)) v).passArgs (k + 1) rest).getReg r
      _ = (s.setReg (BitVec.ofNat 5 (4 + k)) v).getReg r :=
        getReg_passArgs_of_outside rest _ _ (by omega) (by omega)
      _ = s.getReg r := by rw [getReg_setReg, if_neg fun same => other same.1]

/-- An argument register reads its argument: no later argument is written over it. -/
theorem getReg_passArgs_of_arg {v : Word} : ∀ (args : List Word) (s : State) (k j : Nat), 4 + k + args.length ≤ 32 →
    args[j]? = some v → (s.passArgs k args).getReg (BitVec.ofNat 5 (4 + (k + j))) = v
  | [], _, _, _, _, arg => nomatch arg
  | a :: rest, s, k, 0, room, arg => by
    rw [List.length_cons] at room
    obtain rfl : a = v := Option.some.inj arg
    have number : (BitVec.ofNat 5 (4 + k)).toNat = 4 + k := argReg_toNat (by omega)
    have notZero : BitVec.ofNat 5 (4 + k) ≠ 0 := argReg_ne_of_lt (by omega) (by decide)
    calc ((s.setReg (BitVec.ofNat 5 (4 + k)) a).passArgs (k + 1) rest).getReg (BitVec.ofNat 5 (4 + k))
      _ = (s.setReg (BitVec.ofNat 5 (4 + k)) a).getReg (BitVec.ofNat 5 (4 + k)) :=
        getReg_passArgs_of_outside rest _ _ (by omega) (.inl (by omega))
      _ = a := by rw [getReg_setReg, if_pos ⟨rfl, notZero⟩]
  | a :: rest, s, k, j + 1, room, arg => by
    rw [List.length_cons] at room
    have tail := getReg_passArgs_of_arg rest (s.setReg (BitVec.ofNat 5 (4 + k)) a) (k + 1) j (by omega) arg
    rwa [show k + 1 + j = k + (j + 1) by omega] at tail

/-! ## The host call (R227, 70_reset_and_hazards.md R293) -/

/-- A register of a call's first state: the return address in `ra`, any other as the arguments left it. -/
theorem hostCall_getReg {s t : State} {sym : Nat} {args : List Word} {ra : Word} (call : s.hostCall sym args ra = some t)
    (r : Reg) : t.getReg r = if r = 1 then ra else (s.passArgs 0 args).getReg r := by
  obtain ⟨-, y, -, rfl⟩ := hostCall_eq_some.mp call
  have written := getReg_setReg (s.passArgs 0 args) 1 r ra
  by_cases link : r = 1
  · subst link
    exact written
  · rw [if_neg link]
    rwa [if_neg fun same => link same.1] at written

/-- Settles O28: eight arguments end at register 11, and none is passed in `ra`. -/
theorem hostCallEntersTheSymbol : Obligations.HostCallEntersTheSymbol := by
  intro s k y args ra control symbol few
  have call := (hostCall_eq_some (ra := ra)).mpr ⟨⟨control, few⟩, y, symbol, rfl⟩
  have reads := hostCall_getReg call
  obtain ⟨-, data, image⟩ := passArgs_frame args s 0
  obtain ⟨params, draws⟩ := passArgs_params_draws args s 0
  refine ⟨_, call, rfl, rfl, reads 1, ?arguments, ?others, ?frame⟩
  case arguments =>
    intro j v arg
    obtain ⟨inside, -⟩ := List.getElem?_eq_some_iff.mp arg
    have notLink : BitVec.ofNat 5 (4 + j) ≠ 1 := argReg_ne_of_lt (by omega) (by decide)
    have value := getReg_passArgs_of_arg args s 0 j (by omega) arg
    rw [reads, if_neg notLink]
    rwa [Nat.zero_add] at value
  case others =>
    intro r notLink outside
    rw [reads, if_neg notLink]
    exact getReg_passArgs_of_outside args s 0 (by omega) outside
  case frame => simp [data, image, params, draws]

end Sys2Proof.Machine
end

section
/-! The obligations of 47_float_numerics.md: the format with its rounding, and the rows of R244 where an operand is a NaN,
an infinity or a zero that the result depends on. What an operation gives there is said once, by the classes of the
operands. -/

namespace Sys2Proof.Machine

/-! ## Classes and signs of patterns (R240, R241) -/

section
variable {v w : Word}

/-! The classes that the statements write on the pattern's number, by its fields. -/

theorem nanWord_iff : NanWord v ↔ expOf v = 255 ∧ fracOf v ≠ 0 := by
  rw [expOf_eq, fracOf_eq]

theorem finiteWord_iff : FiniteWord v ↔ expOf v ≠ 255 := by
  rw [expOf_eq]

theorem infWord_iff : InfWord v ↔ expOf v = 255 ∧ fracOf v = 0 := by
  rw [expOf_eq, fracOf_eq]
  omega

/-! Flipping the sign leaves the class of a pattern as it is. -/

theorem nanWord_flipSign : NanWord (flipSign v) ↔ NanWord v := by
  rw [nanWord_iff, nanWord_iff, expOf_flipSign, fracOf_flipSign]

theorem infWord_flipSign : InfWord (flipSign v) ↔ InfWord v := by
  rw [infWord_iff, infWord_iff, expOf_flipSign, fracOf_flipSign]

theorem finiteWord_flipSign : FiniteWord (flipSign v) ↔ FiniteWord v := by
  rw [finiteWord_iff, finiteWord_iff, expOf_flipSign]

theorem flipSign_ne_self (v : Word) : flipSign v ≠ v := fun same => by
  have sign := signOf_flipSign v
  rw [same] at sign
  exact Bool.self_ne_not _ sign

/-- There is one infinity of each sign. -/
theorem infOf_signOf (inf : InfWord v) : infOf (signOf v) = v := by
  apply BitVec.eq_of_toNat_eq
  have bits : v.toNat < 2 ^ 32 := v.isLt
  rw [infOf, packBits_toNat _ (by decide), signOf_eq]
  rcases lt_or_ge v.toNat (2 ^ 31) with positive | negative
  · rw [decide_eq_false (not_le_of_gt positive), Bool.toNat_false]; omega
  · rw [decide_eq_true negative, Bool.toNat_true]; omega

theorem signOf_eq_iff_of_infWord (hv : InfWord v) (hw : InfWord w) : signOf v = signOf w ↔ v = w :=
  ⟨fun sign => by rw [← infOf_signOf hv, sign, infOf_signOf hw], congrArg signOf⟩

/-- Two infinities are equal or of opposite signs. -/
theorem flipSign_eq_of_infWord_of_ne (hv : InfWord v) (hw : InfWord w) (ne : v ≠ w) : flipSign v = w := by
  rw [← signOf_eq_iff_of_infWord (infWord_flipSign.mpr hv) hw, signOf_flipSign, Bool.not_eq]
  exact mt (signOf_eq_iff_of_infWord hv hw).mp ne

/-- A finite pattern is a zero just where its magnitude is 0. -/
theorem magnitudeUnits_eq_zero_iff : magnitudeUnits (v.toNat % 2 ^ 31) = 0 ↔ ZeroWord v :=
  magnitudeUnits_strictMono.injective.eq_iff' rfl

/-- The sign bit alone is the zero of that sign. -/
theorem and_signBit_eq_zeroOf (v : Word) : v &&& 0x80000000 = zeroOf (signOf v) := by
  rw [show (0x80000000 : Word) = BitVec.twoPow 32 31 from rfl, BitVec.and_twoPow, zeroOf_eq]
  rfl

theorem xor_and_signBit_eq_zeroOf (v w : Word) : (v ^^^ w) &&& 0x80000000 = zeroOf (signOf v ^^ signOf w) := by
  rw [and_signBit_eq_zeroOf, signOf, BitVec.msb_xor]
  rfl

theorem infinity_or_zeroOf (neg : Bool) : 0x7F800000 ||| zeroOf neg = infOf neg := by
  cases neg <;> rfl

end

/-! ## The format and its rounding (R241, R242) -/

/-- Settles O46, row by row of the table. -/
theorem valueOfAPattern : Obligations.ValueOfAPattern := by
  intro w
  rw [← expOf_eq, ← fracOf_eq, ← signOf_eq]
  refine ⟨fun exp => ?subnormal, fun ⟨pos, le⟩ => ?normal, fun exp frac => ?inf, fun exp frac => ?nan⟩
  case subnormal => exact unpack_of_subnormal exp
  case normal => exact unpack_of_normal pos (Nat.lt_succ_of_le le)
  case inf => exact unpack_of_infWord (infWord_iff.mpr ⟨exp, frac⟩)
  case nan => exact unpack_of_nanWord (nanWord_iff.mpr ⟨exp, frac⟩)

/-- Settles O47: the pattern counts the last places nearest to the number (`roundMag_spec`), and no float lies nearer than
those (`midpoint_of_nearestEven`), which is `roundF32_nearestFloat`. -/
theorem roundingIsToNearestEven : Obligations.RoundingIsToNearestEven :=
  fun neg num _ _ pos => roundF32_nearestFloat neg num pos

/-! ## NaN results (R243, R244 items 1 and 2) -/

section
variable {a b : Word}

/-- A NaN operand makes a NaN, whatever the operation and the other operand. -/
theorem arithmetic_of_nanWord (h : NanWord a ∨ NanWord b) :
    f32Add a b = .nan ∧ f32Mul a b = .nan ∧ f32Div a b = .nan := by
  rcases h with nanA | nanB
  · simp only [f32Add, f32Mul, f32Div, unpack_of_nanWord nanA, and_self]
  · cases value : unpack a <;> simp only [f32Add, f32Mul, f32Div, value, unpack_of_nanWord nanB, and_self]

theorem f32Add_eq_nan (h : NanWord a ∨ NanWord b ∨ (InfWord a ∧ InfWord b ∧ a ≠ b)) : f32Add a b = .nan := by
  rcases or_assoc.mpr h with nan | ⟨infA, infB, ne⟩
  · obtain ⟨sum, -, -⟩ := arithmetic_of_nanWord nan
    exact sum
  · simp only [f32Add, unpack_of_infWord infA, unpack_of_infWord infB,
      if_neg (mt (signOf_eq_iff_of_infWord infA infB).mp ne)]

/-- A difference is the sum with the second sign flipped: equal infinities become opposite ones. -/
theorem f32Sub_eq_nan (h : NanWord a ∨ NanWord b ∨ (InfWord a ∧ InfWord b ∧ a = b)) : f32Sub a b = .nan := by
  refine f32Add_eq_nan (h.imp_right (Or.imp nanWord_flipSign.mpr ?_))
  rintro ⟨infA, infB, rfl⟩
  exact ⟨infA, infWord_flipSign.mpr infB, (flipSign_ne_self a).symm⟩

theorem f32Mul_eq_nan (h : NanWord a ∨ NanWord b ∨ (ZeroWord a ∧ InfWord b) ∨ (InfWord a ∧ ZeroWord b)) :
    f32Mul a b = .nan := by
  rcases or_assoc.mpr h with nan | ⟨zeroA, infB⟩ | ⟨infA, zeroB⟩
  · obtain ⟨-, product, -⟩ := arithmetic_of_nanWord nan
    exact product
  · simp only [f32Mul, unpack_of_zeroWord zeroA, unpack_of_infWord infB, if_true]
  · simp only [f32Mul, unpack_of_infWord infA, unpack_of_zeroWord zeroB, if_true]

theorem f32Div_eq_nan (h : NanWord a ∨ NanWord b ∨ (ZeroWord a ∧ ZeroWord b) ∨ (InfWord a ∧ InfWord b)) :
    f32Div a b = .nan := by
  rcases or_assoc.mpr h with nan | ⟨zeroA, zeroB⟩ | ⟨infA, infB⟩
  · obtain ⟨-, -, quotient⟩ := arithmetic_of_nanWord nan
    exact quotient
  · simp only [f32Div, unpack_of_zeroWord zeroA, unpack_of_zeroWord zeroB, if_true]
  · simp only [f32Div, unpack_of_infWord infA, unpack_of_infWord infB]

end

theorem completesFree_of_nan {i : Instr} {s : State} {site : DrawSite} {a b : Word} {rd : Reg} {r : Value}
    (arm : exec i s = .next (s.writeValue site a b rd r)) (nan : r = .nan) : CompletesFree i s rd (NanResultOf s) :=
  completesFree_of_settle arm (nan ▸ nanResultOf_settle s site a b)

/-- Settles O51: each operation gives a NaN there, and a NaN result is written as any other. -/
theorem nanResultsOfArithmetic : Obligations.NanResultsOfArithmetic := fun _ _ _ _ =>
  ⟨fun h => completesFree_of_nan rfl (f32Add_eq_nan h), fun h => completesFree_of_nan rfl (f32Sub_eq_nan h),
    fun h => completesFree_of_nan rfl (f32Mul_eq_nan h), fun h => completesFree_of_nan rfl (f32Div_eq_nan h)⟩

/-! ## Infinite operands and division by a zero (R244 items 3 and 4) -/

section
variable {a b : Word}

theorem f32Add_of_inf_left (infA : InfWord a) (h : FiniteWord b ∨ b = a) : f32Add a b = .known a := by
  rcases h with finiteB | rfl
  · simp only [f32Add, unpack_of_infWord infA, unpack_of_finiteWord finiteB, infOf_signOf infA]
  · simp only [f32Add, unpack_of_infWord infA, if_true, infOf_signOf infA]

theorem f32Add_of_inf_right (finiteA : FiniteWord a) (infB : InfWord b) : f32Add a b = .known b := by
  simp only [f32Add, unpack_of_finiteWord finiteA, unpack_of_infWord infB, infOf_signOf infB]

/-- A difference is the sum with the second sign flipped: opposite infinities become equal ones. -/
theorem f32Sub_of_inf_left (infA : InfWord a) (h : FiniteWord b ∨ (InfWord b ∧ b ≠ a)) : f32Sub a b = .known a :=
  f32Add_of_inf_left infA (h.imp finiteWord_flipSign.mpr fun ⟨infB, ne⟩ => flipSign_eq_of_infWord_of_ne infB infA ne)

theorem f32Sub_of_inf_right (finiteA : FiniteWord a) (infB : InfWord b) : f32Sub a b = .known (flipSign b) :=
  f32Add_of_inf_right finiteA (infWord_flipSign.mpr infB)

theorem f32Mul_eq_inf
    (h : (InfWord a ∧ (InfWord b ∨ (FiniteWord b ∧ ¬ZeroWord b))) ∨ (FiniteWord a ∧ ¬ZeroWord a ∧ InfWord b)) :
    f32Mul a b = .known (infOf (signOf a ^^ signOf b)) := by
  rcases h with ⟨infA, infB | ⟨finiteB, nonzero⟩⟩ | ⟨finiteA, nonzero, infB⟩
  · simp only [f32Mul, unpack_of_infWord infA, unpack_of_infWord infB]
  · simp only [f32Mul, unpack_of_infWord infA, unpack_of_finiteWord finiteB,
      if_neg (mt magnitudeUnits_eq_zero_iff.mp nonzero)]
  · simp only [f32Mul, unpack_of_finiteWord finiteA, unpack_of_infWord infB,
      if_neg (mt magnitudeUnits_eq_zero_iff.mp nonzero)]

theorem f32Div_eq_inf (h : (InfWord a ∧ FiniteWord b) ∨ (FiniteWord a ∧ ¬ZeroWord a ∧ ZeroWord b)) :
    f32Div a b = .known (infOf (signOf a ^^ signOf b)) := by
  rcases h with ⟨infA, finiteB⟩ | ⟨finiteA, nonzero, zeroB⟩
  · simp only [f32Div, unpack_of_infWord infA, unpack_of_finiteWord finiteB]
  · simp only [f32Div, unpack_of_finiteWord finiteA, unpack_of_zeroWord zeroB, if_true,
      if_neg (mt magnitudeUnits_eq_zero_iff.mp nonzero)]

theorem f32Div_eq_zero (finiteA : FiniteWord a) (infB : InfWord b) :
    f32Div a b = .known (zeroOf (signOf a ^^ signOf b)) := by
  simp only [f32Div, unpack_of_finiteWord finiteA, unpack_of_infWord infB]

end

/-- Settles O52: each result by the classes of the operands; the statement's `sign` is the zero of the sign that a product
or a quotient has. -/
theorem infinitiesInArithmetic : Obligations.InfinitiesInArithmetic := by
  intro s rd rs1 rs2 a b sign
  have zero : sign = zeroOf (signOf a ^^ signOf b) := xor_and_signBit_eq_zeroOf a b
  rw [zero, infinity_or_zeroOf]
  exact ⟨fun infA h => completes_of_known rfl (f32Add_of_inf_left infA h),
    fun finiteA infB => completes_of_known rfl (f32Add_of_inf_right finiteA infB),
    fun infA h => completes_of_known rfl (f32Sub_of_inf_left infA h),
    fun finiteA infB => completes_of_known rfl (f32Sub_of_inf_right finiteA infB),
    fun h => completes_of_known rfl (f32Mul_eq_inf h), fun h => completes_of_known rfl (f32Div_eq_inf h),
    fun finiteA infB => completes_of_known rfl (f32Div_eq_zero finiteA infB)⟩

end Sys2Proof.Machine
end

section
/-! The obligations of 60_exceptions.md: the words the decoder refuses, how a VM step starts and what it can end in, the
accesses that stop, what the host can and cannot do while it serves a call, and the observable trace. -/

namespace Sys2Proof.Machine

/-! ## The words the decoder refuses (R261)

Each table is followed through its slots: a slot that it does not list is cause 1 or 2, a test that fails is cause 3 or 4.
Slots and fields are compared as numbers, as R261 states them. -/

section
variable {w : Word}

theorem legalIf_eq_none {ok : Bool} {i : Instr} : legalIf ok i = none ↔ ok = false := by
  cases ok <;> simp [legalIf]

theorem beq_zero_eq_false {n : Nat} {f : BitVec n} : (f == 0) = false ↔ f.toNat ≠ 0 := by
  simp [BitVec.toNat_eq]

theorem bne_zero_eq_false {n : Nat} {f : BitVec n} : (f != 0) = false ↔ f.toNat = 0 := by
  simp [BitVec.toNat_eq]

theorem slot_of_opc {m : Nat} (hopc : opcOf w = BitVec.ofNat 3 m) : w.toNat % 128 = 16 * (m % 8) + (opfOf w).toNat := by
  rw [slot_eq_fields, hopc, BitVec.toNat_ofNat]

theorem slot_of_opc_opf {m n : Nat} (hopc : opcOf w = BitVec.ofNat 3 m) (hopf : opfOf w = BitVec.ofNat 4 n) :
    w.toNat % 128 = 16 * (m % 8) + n % 16 := by
  rw [slot_of_opc hopc, hopf, BitVec.toNat_ofNat]

theorem above_opc_eq_fields (w : Word) :
    w.toNat / 2 ^ 7 = 2 ^ 10 * (imm15Of w).toNat + 2 ^ 5 * (rs1Of w).toNat + (rdOf w).toNat := by
  rw [imm15Of, rs1Of, rdOf, toNat_field, toNat_field, toNat_field]; omega

theorem illegalWord_of_decodeSystem (hopc : opcOf w = 0#3) (h : decodeSystem w = none) : IllegalWord w := by
  unfold decodeSystem at h
  split at h
  case h_4 =>
    have unlisted : 0x3 ≤ (opfOf w).toNat := by
      generalize opfOf w = opf at *
      decide +revert
    have slot := slot_of_opc hopc
    exact .inr (.inl (by omega))
  case h_3 hopf =>
    have slot := slot_of_opc_opf hopc hopf
    have fields := registers_eq_fields w
    simp only [legalIf_eq_none, Bool.and_eq_false_iff, beq_zero_eq_false] at h
    exact .inr (.inr (.inl (.inr (.inl (by omega)))))
  all_goals
    next hopf =>
      have slot := slot_of_opc_opf hopc hopf
      have fields := above_opc_eq_fields w
      simp only [legalIf_eq_none, Bool.and_eq_false_iff, beq_zero_eq_false] at h
      exact .inr (.inr (.inl (.inl (by omega))))

theorem illegalWord_of_decodeMemory (hopc : opcOf w = 1#3) (h : decodeMemory w = none) : IllegalWord w := by
  unfold decodeMemory at h
  split at h
  case h_9 =>
    have unlisted : (opfOf w).toNat ∈ [0x0, 0x4, 0x8] ∨ 0xB ≤ (opfOf w).toNat := by
      generalize opfOf w = opf at *
      decide +revert
    have slot := slot_of_opc hopc
    rcases unlisted with reserved | beyond
    · simp only [List.mem_cons, List.not_mem_nil, or_false] at reserved
      exact .inl (by omega)
    · exact .inr (.inl (by omega))
  all_goals cases h

theorem illegalWord_of_decodeImmArith (hopc : opcOf w = 2#3) (h : decodeImmArith w = none) : IllegalWord w := by
  have imm := above_rs1_eq_imm15 w
  unfold decodeImmArith at h
  split at h
  case h_10 hopf | h_11 hopf =>
    have slot := slot_of_opc_opf hopc hopf
    rw [legalIf_eq_none, bne_zero_eq_false] at h
    exact .inr (.inr (.inr (by omega)))
  case h_12 hopf | h_13 hopf | h_14 hopf | h_15 hopf | h_16 hopf =>
    have slot := slot_of_opc_opf hopc hopf
    rw [legalIf_eq_none, beq_zero_eq_false] at h
    exact .inr (.inr (.inl (.inr (.inr (.inl (by omega))))))
  case h_17 =>
    have unlisted : 0x10 ≤ (opfOf w).toNat := by
      generalize opfOf w = opf at *
      decide +revert
    exact absurd (opfOf w).isLt (Nat.not_lt.mpr unlisted)
  all_goals cases h

theorem illegalWord_of_decodeRegArith (hopc : opcOf w = 3#3) (h : decodeRegArith w = none) : IllegalWord w := by
  unfold decodeRegArith at h
  split at h
  case h_16 hopf =>
    have slot := slot_of_opc_opf hopc hopf
    have fields := above_rs1_eq_imm10_rs2 w
    simp only [legalIf_eq_none, Bool.and_eq_false_iff, beq_zero_eq_false] at h
    exact .inr (.inr (.inl (.inr (.inr (.inr (.inr (by omega)))))))
  case h_17 =>
    have unlisted : 0x10 ≤ (opfOf w).toNat := by
      generalize opfOf w = opf at *
      decide +revert
    exact absurd (opfOf w).isLt (Nat.not_lt.mpr unlisted)
  all_goals
    next hopf =>
      have slot := slot_of_opc_opf hopc hopf
      have imm := above_rs2_eq_imm10 w
      rw [legalIf_eq_none, beq_zero_eq_false] at h
      exact .inr (.inr (.inl (.inr (.inr (.inr (.inl (by omega)))))))

theorem illegalWord_of_decodeBranch (hopc : opcOf w = 4#3) (h : decodeBranch w = none) : IllegalWord w := by
  unfold decodeBranch at h
  split at h
  case h_10 =>
    have unlisted : 0x9 ≤ (opfOf w).toNat := by
      generalize opfOf w = opf at *
      decide +revert
    have slot := slot_of_opc hopc
    exact .inr (.inl (by omega))
  all_goals cases h

theorem illegalWord_of_decodeRi (hopc : opcOf w = 5#3) (h : decodeRi w = none) : IllegalWord w := by
  unfold decodeRi at h
  split at h
  case h_4 =>
    have unlisted : 0x3 ≤ (opfOf w).toNat := by
      generalize opfOf w = opf at *
      decide +revert
    have slot := slot_of_opc hopc
    exact .inr (.inl (by omega))
  all_goals cases h

/-- Opcodes 6 and 7 have no table: their slots start at 0x60. -/
theorem illegalWord_of_decode (h : decode w = none) : IllegalWord w := by
  unfold decode at h
  split at h
  case h_1 hopc => exact illegalWord_of_decodeSystem hopc h
  case h_2 hopc => exact illegalWord_of_decodeMemory hopc h
  case h_3 hopc => exact illegalWord_of_decodeImmArith hopc h
  case h_4 hopc => exact illegalWord_of_decodeRegArith hopc h
  case h_5 hopc => exact illegalWord_of_decodeBranch hopc h
  case h_6 hopc => exact illegalWord_of_decodeRi hopc h
  case h_7 =>
    have unlisted : 0x6 ≤ (opcOf w).toNat := by
      generalize opcOf w = opc at *
      decide +revert
    have slot := slot_eq_fields w
    exact .inr (.inl (by omega))

end

/-- Settles O3: table by table, an unlisted slot or a failed test is one of the causes; conversely no illegal word is a
legal instruction's. -/
theorem decoderRefusesExactlyTheIllegalWords : Obligations.DecoderRefusesExactlyTheIllegalWords := fun _ =>
  ⟨illegalWord_of_decode, decode_eq_none_of_illegal⟩

/-! ## One step of the VM (R284) -/

section
variable {s t : State}

theorem step_of_running (running : s.status = .running) : step s = vmStep s := by rw [step, running]

/-- Settles O6: the last case of a VM step. -/
theorem stepExecutesTheDecodedInstruction : Obligations.StepExecutesTheDecodedInstruction := by
  intro s w i running fetched decoded
  have hf : s.fetch = some w := fetched
  rw [step_of_running running, vmStep, hf]
  simp only [decoded]

/-- Settles O7: the first case of a VM step. -/
theorem fetchOutsideTheTextStops : Obligations.FetchOutsideTheTextStops := by
  intro s running outside
  have hf : s.fetch = none := List.getElem?_eq_none outside
  rw [step_of_running running, vmStep, hf]
  rfl

/-- Settles O9: the fetch and the decoder's refusal are taken as exceptions, and every instruction answers. -/
theorem runningMachineAlwaysSteps : Obligations.RunningMachineAlwaysSteps := by
  intro s running
  rw [step_of_running running]
  rcases vmStep_cases s with ⟨-, stops⟩ | ⟨w, -, -, stops⟩ | ⟨w, i, -, -, executes⟩
  · exact ⟨_, stops⟩
  · exact ⟨_, stops⟩
  · obtain ⟨t, answers, -⟩ := exec_shape i s
    exact ⟨t, executes.trans answers⟩

/-! ## What a VM step ends in (R262, R276) -/

/-- An instruction leaves the VM running, or changes the status alone: to the stop of an exception, to `Halted`, which is
`eret`'s, or to the host's, which is `ecall`'s. -/
theorem exec_status_cases {i : Instr} (running : s.status = .running) (h : exec i s = .next t) :
    t.status = .running ∨ (∃ e, t = s.raise e) ∨ (i = .eret ∧ t = { s with status := .halted }) ∨
      ∃ n, i = .ecall n ∧ t = { s with status := .inHost n } := by
  cases shape_of_exec h with
  | raised e by_ eq => exact .inr (.inl ⟨e, eq⟩)
  | wrote rd v d dest jump wrote =>
    obtain ⟨-, -, -, status, -⟩ := wrote
    exact .inl (status.trans running)
  | stored rs1 imm n v store access checked eq => subst eq; exact .inl running
  | jumped jump regs zero data status => exact .inl (status.trans running)
  | halted instr eq => exact .inr (.inr (.inl ⟨instr, eq⟩))
  | called n instr eq => exact .inr (.inr (.inr ⟨n, instr, eq⟩))

/-- The same of a VM step, the instructions by their words. -/
theorem vmStep_status_cases (running : s.status = .running) (h : vmStep s = .next t) :
    t.status = .running ∨ (∃ e, t = s.raise e) ∨ (s.fetch = some 0x00000001 ∧ t = { s with status := .halted }) ∨
      ∃ n : Imm15, s.fetch = some (n ++ 0x00002#17) ∧ t = { s with status := .inHost n } := by
  rcases vmStep_cases s with ⟨-, stops⟩ | ⟨w, -, -, stops⟩ | ⟨w, i, fetched, decoded, executes⟩
  · rw [stops] at h
    cases h
    exact .inr (.inl ⟨_, rfl⟩)
  · rw [stops] at h
    cases h
    exact .inr (.inl ⟨_, rfl⟩)
  · have word : s.fetch = some (encode i) := by rw [fetched, encode_of_decode decoded]
    rcases exec_status_cases running (executes ▸ h) with runs | stops | ⟨rfl, eq⟩ | ⟨n, rfl, eq⟩
    · exact .inl runs
    · exact .inr (.inl stops)
    · exact .inr (.inr (.inl ⟨word, eq⟩))
    · exact .inr (.inr (.inr ⟨n, encode_ecall n ▸ word, eq⟩))

end

/-- Settles O19: of the ends of a VM step only taking an exception has the status `Stopped`. -/
theorem exceptionsArePrecise : Obligations.ExceptionsArePrecise := by
  intro s t e running h stopped
  rw [step_of_running running] at h
  rcases vmStep_status_cases running h with runs | ⟨e', rfl⟩ | ⟨-, rfl⟩ | ⟨n, -, rfl⟩
  · rw [runs] at stopped
    cases stopped
  · cases stopped
    rfl
  · cases stopped
  · cases stopped

/-- No reply of the host ends the run normally: it serves in status `InHost`, which it keeps, leaves to run or stops. -/
theorem applyReply_not_halted {s : State} {n : Imm15} (serving : s.status = .inHost n) (r : HostReply) :
    (s.applyReply n r).status ≠ .halted := by
  rcases applyReply_cases s n r with ⟨-, h⟩ | ⟨-, h⟩ | ⟨-, h⟩ <;> rw [h]
  · exact nofun
  · exact nofun
  · rw [serving]
    exact nofun

/-- Settles O18: neither the host's step nor the resumption halts, and of the ends of a VM step only `eret`'s does. -/
theorem onlyEretEndsARunNormally : Obligations.OnlyEretEndsARunNormally := by
  intro s t h halted
  rcases step_next h with ⟨running, vm⟩ | ⟨n, serving, rfl⟩ | ⟨-, -, rfl⟩
  · rcases vmStep_status_cases running vm with runs | ⟨e, rfl⟩ | ⟨fetched, eq⟩ | ⟨n, -, rfl⟩
    · rw [runs] at halted
      cases halted
    · cases halted
    · exact ⟨running, fetched, eq⟩
    · cases halted
  · exact absurd halted (applyReply_not_halted serving _)
  · cases halted

/-! ## A placed word (the model's choice, log entries 1 and 31) -/

section
variable (text : List Word) (i : Nat) (w : Word)

theorem placeWord_length : (placeWord text i w).length = max text.length (i + 1) := by
  simp only [placeWord, List.length_set, List.length_append, List.length_replicate]
  omega

theorem placeWord_getElem?_of_lt {k : Nat} (inside : k < text.length) (other : k ≠ i) :
    (placeWord text i w)[k]? = text[k]? := by
  rw [placeWord, List.getElem?_set_ne other.symm, List.getElem?_append_left inside]

/-- The padding up to the placed word is zero. -/
theorem placeWord_getElem?_of_ge {k : Nat} (beyond : text.length ≤ k) (below : k < i) :
    (placeWord text i w)[k]? = some 0 := by
  rw [placeWord, List.getElem?_set_ne below.ne', List.getElem?_append_right beyond, List.getElem?_replicate_of_lt]
  omega

end

/-- A word's own number, reduced as a table row's bits are, is the word. -/
theorem ofNat_toNat_mod (w : Word) : BitVec.ofNat 32 (w.toNat % 2 ^ 32) = w := by
  rw [Nat.mod_eq_of_lt w.isLt, BitVec.ofNat_toNat, BitVec.setWidth_eq]

/-- Settles O12: the text is `placeWord`'s, and the fetch finds the word at the pc. -/
theorem placedWordIsExecutedNext : Obligations.PlacedWordIsExecutedNext := by
  intro s w i decoded
  have placed : s.withFetchWord 32 w.toNat =
      { s with status := .running, image := { s.image with text := placeWord s.image.text s.pc.toNat w } } := by
    rw [State.withFetchWord, ofNat_toNat_mod]
  have fetched := placeWord_getElem? s.image.text s.pc.toNat w
  refine ⟨_, placed, ?_, placeWord_length _ _ _, fetched, fun _ => placeWord_getElem?_of_lt _ _ _,
    fun _ => placeWord_getElem?_of_ge _ _ _⟩
  rw [placed]
  exact stepExecutesTheDecodedInstruction _ w i rfl fetched decoded

/-! ## Accesses that stop (R266, R267, R270) -/

section
variable {s : State} {a : Word} {n : Width} {e : Exc}

theorem checkAccess_eq_misaligned (misaligned : a.toNat % n.bytes ≠ 0) (unsupported : s.params.unalignedSupport = false) :
    s.checkAccess a n = some (.misalignedAccess a) := by
  rw [State.checkAccess, if_pos ⟨misaligned, unsupported⟩]

theorem checkAccess_eq_memoryFault (aligned : a.toNat % n.bytes = 0 ∨ s.params.unalignedSupport = true)
    (outside : s.image.dataSize < a.toNat + n.bytes) : s.checkAccess a n = some (.memoryFault a) := by
  rcases checkAccess_cases s a n with ⟨-, mis, unsupported⟩ | ⟨fault, -⟩ | ⟨-, -, inside⟩
  · simp [mis, unsupported] at aligned
  · exact fault
  · omega

theorem load_of_refused (refused : s.checkAccess a n = some e) (rd : Reg) (ext : Nat → Word) :
    s.load rd a n ext = s.raise e := by
  rw [State.load, State.memRead, refused]

theorem store_of_refused (refused : s.checkAccess a n = some e) (v : Word) : s.store a n v = s.raise e := by
  rw [State.store, State.memWrite, refused]

/-- A memory instruction whose access the checks refuse takes their exception. -/
theorem exec_of_refused {i : Instr} {rs1 : Reg} {imm : Imm15} (access : accessOf i = some (rs1, imm, n))
    (refused : s.checkAccess (s.effAddr rs1 imm) n = some e) : exec i s = .next (s.raise e) := by
  cases i with
  | sw _ _ _ | sh _ _ _ | sb _ _ _ =>
    cases access
    exact congrArg _ (store_of_refused refused _)
  | lw _ _ _ | lh _ _ _ | lb _ _ _ | lhu _ _ _ | lbu _ _ _ =>
    cases access
    exact congrArg _ (load_of_refused refused _ _)
  | _ => cases access

end

/-- Settles O32: the eight instructions by the access and width that `accessOf` gives them. -/
theorem badAccessStops : Obligations.BadAccessStops := by
  intro s rd rs1 imm p listed
  have access : ∃ n, accessOf p.1 = some (rs1, imm, n) ∧ n.bytes = p.2 := by
    simp only [List.mem_cons, List.not_mem_nil, or_false] at listed
    rcases listed with rfl | rfl | rfl | rfl | rfl | rfl | rfl | rfl <;> exact ⟨_, rfl, rfl⟩
  obtain ⟨n, access, width⟩ := access
  rw [← width]
  exact ⟨fun misaligned unsupported => exec_of_refused access (checkAccess_eq_misaligned misaligned unsupported),
    fun aligned outside => exec_of_refused access (checkAccess_eq_memoryFault aligned outside)⟩

/-! ## The host's step (R275, 40_system.md R103) -/

section
variable {s : State} {n : Imm15}

theorem step_of_serving (serving : s.status = .inHost n) : step s = .next (s.hostStep n) := by rw [step, serving]

theorem applyReply_of_never {r : HostReply} (never : r.outcome = .never) : s.applyReply n r = s := by
  rw [State.applyReply, never]

/-- A host function that ends leaves its registers and bytes within the laws, whether it returns or stops. -/
theorem applyReply_regs_data {r : HostReply} (ends : r.outcome ≠ .never) :
    (s.applyReply n r).regs = hostRegs s.regs r.regs ∧
      (s.applyReply n r).data = hostWrites s.image.dataSize r.writes s.data := by
  rcases applyReply_cases s n r with ⟨-, h⟩ | ⟨-, h⟩ | ⟨never, -⟩
  · exact ⟨by simp [h], by simp [h]⟩
  · exact ⟨by simp [h], by simp [h]⟩
  · exact absurd never ends

/-- The register law of R275: a preserved register reads the same after every reply. -/
theorem applyReply_getReg_preserved (r : HostReply) {q : Reg} (preserved : hostPreserves q.toNat = true) :
    (s.applyReply n r).getReg q = s.getReg q := by
  by_cases never : r.outcome = .never
  · rw [applyReply_of_never never]
  · obtain ⟨regs, -⟩ := applyReply_regs_data never
    by_cases zero : q = 0
    · subst zero
      exact (getReg_zero _).trans (getReg_zero s).symm
    · rw [getReg_of_ne _ _ zero, getReg_of_ne _ _ zero, regs]
      exact hostRegs_preserved _ _ q.toNat q.isLt preserved

/-- Any other register is the host's to choose. -/
theorem applyReply_getReg_other {r : HostReply} (ends : r.outcome ≠ .never) {q : Reg}
    (other : hostPreserves q.toNat = false) : (s.applyReply n r).getReg q = r.regs[q.toFin] := by
  have nonzero : q ≠ 0 := by
    rintro rfl
    cases other
  obtain ⟨regs, -⟩ := applyReply_regs_data ends
  rw [getReg_of_ne _ _ nonzero, regs]
  exact hostRegs_other _ _ q.toNat q.isLt other

/-- The size law of R275: no reply lists a byte outside the data space. -/
theorem applyReply_bound (r : HostReply) (bound : ∀ c ∈ s.data.cells, c.1 < s.image.dataSize) :
    ∀ c ∈ (s.applyReply n r).data.cells, c.1 < s.image.dataSize := by
  by_cases never : r.outcome = .never
  · rwa [applyReply_of_never never]
  · obtain ⟨-, data⟩ := applyReply_regs_data never
    rw [data]
    exact hostWrites_bound _ _ bound

/-- The three outcomes: return to the next word, a stop at the `ecall`, or no end at all. -/
theorem applyReply_outcome (s : State) (n : Imm15) (r : HostReply) :
    ((s.applyReply n r).status = .running ∧ (s.applyReply n r).pc = BitVec.ofNat 32 (s.pc.toNat + 1)) ∨
      ((s.applyReply n r).status = .stopped (.hostFault n) ∧ (s.applyReply n r).pc = s.pc) ∨ s.applyReply n r = s := by
  rcases applyReply_cases s n r with ⟨-, h⟩ | ⟨-, h⟩ | ⟨-, h⟩ <;> rw [h]
  · refine .inl ⟨rfl, ?_⟩
    rw [advance_pc, hostEffect_pc]
    exact add_ofNat_eq s.pc 1
  · exact .inr (.inl ⟨rfl, by rw [raise_pc, hostEffect_pc]⟩)
  · exact .inr (.inr rfl)

theorem hostRegs_self (regs : Vector Word 32) : hostRegs regs regs = regs := by
  ext i hi
  simp [hostRegs]

/-- With no host the call is rejected and nothing is written. -/
theorem hostStep_of_noHost (noHost : s.params.noHost = true) :
    s.hostStep n = { s with status := .stopped (.hostFault n), draws := s.draws + 1 } := by
  rw [State.hostStep, State.hostReply, if_pos noHost, State.applyReply, State.hostEffect, hostRegs_self]
  rfl

end

theorem hostPreserves_of {r : Reg} (h : r = 0 ∨ r = 2 ∨ r = 3 ∨ 22 ≤ r.toNat) : hostPreserves r.toNat = true := by
  rcases h with rfl | rfl | rfl | saved
  · rfl
  · rfl
  · rfl
  · simp [hostPreserves, saved]

/-- Settles O26: each law of R275 holds of every reply, so of the one the host gives. -/
theorem hostStepObeysTheCallLaws : Obligations.HostStepObeysTheCallLaws := by
  intro s n serving
  obtain ⟨image, params⟩ := applyReply_sameFile s n (s.hostReply n)
  exact ⟨_, step_of_serving serving, fun r saved => applyReply_getReg_preserved _ (hostPreserves_of saved), image, params,
    applyReply_bound _, applyReply_outcome s n _, hostStep_of_noHost⟩

/-! ## What the host may leave (R275) -/

/-- The writes that give the first `k` bytes of the data space the values `f`, lowest address first. -/
def fillWrites (f : Nat → Byte) (k : Nat) : List (Word × Byte) := (List.range k).map fun a => (BitVec.ofNat 32 a, f a)

theorem fillWrites_succ (f : Nat → Byte) (k : Nat) :
    fillWrites f (k + 1) = fillWrites f k ++ [(BitVec.ofNat 32 k, f k)] := by
  simp [fillWrites, List.range_succ]

theorem hostWrites_append (size : Nat) : ∀ (ws vs : List (Word × Byte)) (m : Memory),
    hostWrites size (ws ++ vs) m = hostWrites size vs (hostWrites size ws m)
  | [], _, _ => rfl
  | (_, _) :: rest, vs, _ => hostWrites_append size rest vs _

/-- One more byte written, at an address inside the data space. -/
theorem hostWrites_fillWrites_succ {size k : Nat} (f : Nat → Byte) (m : Memory) (inside : k < size)
    (small : size ≤ 2 ^ 32) :
    hostWrites size (fillWrites f (k + 1)) m = (hostWrites size (fillWrites f k) m).writeByte k (f k) := by
  have address : (BitVec.ofNat 32 k).toNat = k := by
    rw [BitVec.toNat_ofNat, Nat.mod_eq_of_lt (by omega)]
  rw [fillWrites_succ, hostWrites_append, hostWrites, hostWrites, address, if_pos inside]

theorem readByte_fillWrites {size : Nat} (f : Nat → Byte) {m : Memory} (hm : m.wf = true) (small : size ≤ 2 ^ 32) :
    ∀ k ≤ size, ∀ a < k, (hostWrites size (fillWrites f k) m).readByte a = f a
  | 0, _, _, ha => nomatch ha
  | k + 1, hk, a, ha => by
    rw [hostWrites_fillWrites_succ f m hk small]
    by_cases last : a = k
    · subst last
      exact readByte_writeByte_same (hostWrites_wf _ _ hm) _ _
    · rw [readByte_writeByte_other _ _ last]
      exact readByte_fillWrites f hm small k (by omega) a (by omega)

theorem hostPreserves_eq_false {r : Reg} (h : r.toNat = 1 ∨ (4 ≤ r.toNat ∧ r.toNat < 22)) :
    hostPreserves r.toNat = false := by
  simp only [hostPreserves, Bool.or_eq_false_iff, beq_eq_false_iff_ne, decide_eq_false_iff_not]
  omega

/-- The reply that returns with the registers `x` and the first `k` bytes of the data space as `f` says. -/
def fillReply (x : Vector Word 32) (f : Nat → Byte) (k : Nat) : HostReply where
  regs := x
  writes := fillWrites f k
  outcome := .returned

/-- Settles O27, by `fillReply` for the whole data space. -/
theorem hostMayLeaveAnythingElse : Obligations.HostMayLeaveAnythingElse := by
  intro s n x f hm small
  have ends : (fillReply x f s.image.dataSize).outcome ≠ .never := nofun
  obtain ⟨-, data⟩ := applyReply_regs_data (s := s) (n := n) ends
  refine ⟨_, rfl, fun q other => applyReply_getReg_other ends (hostPreserves_eq_false other), ?_⟩
  rw [data]
  exact readByte_fillWrites f hm small _ le_rfl

/-! ## The observable trace (R273) -/

section
variable {s t : State} (fuel : Nat)

/-- A step adds its event, if it shows one, in front of the trace of the rest. -/
theorem trace_of_running (running : s.status = .running) (h : step s = .next t) : trace (fuel + 1) s =
    { events := t.ecallEvent.toList ++ (trace fuel t).events, final := (trace fuel t).final } := by
  rw [trace, events_running fuel running h, run_running fuel running h, trace]

theorem trace_of_serving {n : Imm15} (serving : s.status = .inHost n) (h : step s = .next t) :
    trace (fuel + 1) s = trace fuel t := by
  rw [trace, events_serving fuel serving h, run_serving fuel serving h, trace]

theorem trace_of_ended (ended : s.status = .halted ∨ ∃ e, s.status = .stopped e) :
    trace fuel s = { events := [], final := s } := by
  cases fuel with
  | zero => rfl
  | succ fuel =>
    rcases ended with halted | ⟨e, stopped⟩
    · simp [trace, events, run, halted]
    · simp [trace, events, run, stopped]

/-- A state shows an event in status `InHost` alone. -/
theorem ecallEvent_eq_none (notServing : ∀ n, t.status ≠ .inHost n) : t.ecallEvent = none := by
  unfold State.ecallEvent
  split
  · next n serving => exact absurd serving (notServing n)
  · rfl

end

/-- Settles O60: an `ecall` hands over a state that shows its event, and no other word does (O20). -/
theorem traceOfARun : Obligations.TraceOfARun := by
  intro s fuel
  refine ⟨fun n running fetched => ?_, fun t running other h => ?_, fun n t => trace_of_serving fuel, trace_of_ended fuel⟩
  · have decoded : decode (n ++ 0x00002#17) = some (.ecall n) :=
      (decode_eq_some_iff rfl).mpr (encode_ecall n).symm
    have h : step s = .next { s with status := .inHost n } :=
      stepExecutesTheDecodedInstruction s _ _ running fetched decoded
    rw [trace_of_running fuel running h]
    rfl
  · have silent : t.ecallEvent = none := ecallEvent_eq_none fun n serving => by
      obtain ⟨fetched, -⟩ := onlyEcallCallsTheHost s t n running h serving
      exact other n fetched
    rw [trace_of_running fuel running h, silent]
    rfl

end Sys2Proof.Machine
end

section
/-! The obligation of 70_reset_and_hazards.md. What a loaded file and the host's writes leave before start-up is read off
the state that start-up makes of it. -/

namespace Sys2Proof.Machine

/-! ## The file's data in the data space (20_memory.md R54) -/

/-- The bytes listed from `a` on are the bytes of the file, the ones past its end unlisted. -/
theorem lookupCell_cellsOf : ∀ (bs : List Byte) (a i : Nat),
    lookupCell (cellsOf a bs) (a + i) = bs[i]?.getD Memory.unlisted
  | [], _, _ => rfl
  | b :: rest, a, 0 => by
    unfold cellsOf
    split
    · next zero =>
      rw [lookupCell_below (cellsOf_wf rest (a + 1)) (by omega), ← zero]
      rfl
    · exact if_pos rfl
  | b :: rest, a, i + 1 => by
    have tail := lookupCell_cellsOf rest (a + 1) i
    rw [show a + 1 + i = a + (i + 1) by omega] at tail
    unfold cellsOf
    split
    · exact tail
    · rw [lookupCell, if_neg (by omega)]
      exact tail

section
variable (f : PlgFile) (x : Vector Word 32) (p : Params) (d : Nat)

theorem startUp_readByte (i : Nat) : (f.startUp x p d).data.readByte i = f.data[i]?.getD Memory.unlisted := by
  have listed := lookupCell_cellsOf f.data 0 i
  rwa [Nat.zero_add] at listed

/-- `INIT_REGS` but for register 0. -/
theorem startUp_getReg {r : Reg} (nonzero : r ≠ 0) : (f.startUp x p d).getReg r = x[r.toFin] := by
  have index : 0 ≠ r.toNat := fun zero => nonzero (BitVec.eq_of_toNat_eq zero.symm)
  rw [getReg_of_ne _ _ nonzero, PlgFile.startUp, start_regs, load_regs]
  exact Vector.getElem_set_ne _ _ index

end

theorem parseFile_data_length {bs : List Byte} {f : PlgFile} (accepted : parseFile bs = .ok f) :
    f.data.length = f.dataLen.toNat := by
  obtain ⟨-, -, -, -, rfl⟩ := parseFile_eq_ok.mp accepted
  simp

/-! ## The host's writes before start-up (20_memory.md R61) -/

/-- A register write changes the registers alone. -/
theorem setReg_eq (s : State) (r : Reg) (v : Word) : s.setReg r v = { s with regs := (s.setReg r v).regs } := by
  unfold State.setReg
  split <;> rfl

theorem loaded_setByte_eq_none {l : Loaded} {a : Word} (outside : l.image.dataSize ≤ a.toNat) (b : Byte) :
    l.setByte a b = none := by
  rw [Loaded.setByte, if_neg (Nat.not_lt.mpr outside)]

theorem readByte_writeByte {m : Memory} (hm : m.wf = true) (a : Nat) (b : Byte) (k : Nat) :
    (m.writeByte a b).readByte k = if k = a then b else m.readByte k := by
  split
  · next same => exact same ▸ readByte_writeByte_same hm a b
  · next other => exact readByte_writeByte_other m b other

/-- Settles O59: start-up of the loaded file field by field, then the two writes before it. -/
theorem startUp : Obligations.StartUp := by
  refine ⟨fun bs f x p d accepted => ?_, fun l r v d => ?_, fun l a b d => ⟨fun hm inside => ?_, fun outside => ?_⟩⟩
  · refine ⟨rfl, getReg_zero _, fun r => startUp_getReg f x p d, fun i b byte => ?_, fun i beyond => ?_,
      parseFile_data_length accepted, rfl, rfl, rfl, rfl, rfl, rfl⟩
    · rw [startUp_readByte, byte, Option.getD_some]
    · rw [startUp_readByte, List.getElem?_eq_none beyond]
      rfl
  · rw [start_setReg]
    exact ⟨setReg_eq _ r v, fun q => getReg_setReg _ r q v⟩
  · exact ⟨_, loaded_setByte_eq_some.mpr ⟨inside, rfl⟩, rfl, readByte_writeByte hm _ b⟩
  · exact loaded_setByte_eq_none outside b

end Sys2Proof.Machine
end
